-- ==== Sys2Proof/Word.lean ====
section
/-! DEFINITION. The word types of OWTC: bus bytes, 32-bit host registers, 64-bit sensor addresses
(00_scope.md R6, R8). -/

namespace Sys2Proof

/-- A bus byte (00_scope.md R8). -/
abbrev Byte := BitVec 8

/-- A 32-bit host register or command word (10_state.md §2, 30_encoding.md R80). -/
abbrev Word := BitVec 32

/-- A SensorAddress, byte k in bits [8k+7:8k] (10_state.md R32). -/
abbrev Addr := BitVec 64

end Sys2Proof
end

