-- ==== Sys2Proof/Config.lean ====
section
/-! DEFINITION. What is fixed for the life of one OWTC (00_scope.md R6, R7), and the free values: the bus
environment's answers (10_state.md R47) and the reads the spec leaves unspecified (70_reset_and_hazards.md R262). -/

namespace Sys2Proof

/-- One event of the bus history H (10_state.md R46). -/
inductive BusEvent where
  | reset (p : Bool)
  | write (b : Bool)
  | read (b : Bool)
  | wait (n : Nat)
deriving DecidableEq, Repr

/-- The slot-timing parameters of 00_scope.md R6, in clock cycles, each at least 1. -/
structure Timing where
  tRstl : ℕ+
  tMsp : ℕ+
  tRstr : ℕ+
  tW1l : ℕ+
  tW1h : ℕ+
  tW0l : ℕ+
  tW0h : ℕ+
  tRl : ℕ+
  tMsr : ℕ+
  tRh : ℕ+
  tConv : ℕ+
deriving Inhabited

/-- `cyc(t) = ceil(t * CLK_HZ)` for a positive `t` given in microseconds (00_scope.md R6). -/
def cycUs (us : Nat) (clkHz : ℕ+) : ℕ+ := Nat.toPNat' ((us * clkHz + 999999) / 1000000)

/-- The default times of 00_scope.md R6 at a clock frequency. -/
def Timing.default (clkHz : ℕ+) : Timing where
  tRstl := cycUs 480 clkHz
  tMsp := cycUs 70 clkHz
  tRstr := cycUs 410 clkHz
  tW1l := cycUs 10 clkHz
  tW1h := cycUs 55 clkHz
  tW0l := cycUs 65 clkHz
  tW0h := cycUs 5 clkHz
  tRl := cycUs 3 clkHz
  tMsr := cycUs 10 clkHz
  tRh := cycUs 53 clkHz
  tConv := cycUs 750000 clkHz

/-- The configuration of one OWTC (00_scope.md R6). `N_SENSORS` is 1 to 256, so it is kept as the last slot's
number, and `N_SENSORS = 0` (R7's ConfigurationError) cannot be written down. The table is total on eight bits;
entries at or above `N_SENSORS` are never looked up in a run (44_scheduler.md R193). The last three fields are
FREE VALUES: the two functions of `BusEnv` (10_state.md R47), each of the history and a free choice, and what a
read of an unspecified field draws (70_reset_and_hazards.md R262). -/
structure Config where
  lastSlot : BitVec 8
  sensorTable : BitVec 8 → Addr
  clkHz : ℕ+
  timing : Timing
  presence : List BusEvent → Nat → Bool
  readBit : List BusEvent → Nat → Bool
  freeRead : Nat → Word
deriving Inhabited

/-- `N_SENSORS`, 1 to 256 (00_scope.md R6). -/
def Config.nSensors (cfg : Config) : Nat := cfg.lastSlot.toNat + 1

/-- The configuration of the modelled OWTC. It has no body: every parameter is OPEN (92_eei_decisions.md D39) and
the bus environment and unspecified reads are free values, so a claim about `Config.owtc` holds for every one. -/
opaque Config.owtc : Config

end Sys2Proof
end

