-- ==== Sys2Proof/Syntax.lean ====
section
/-! DEFINITION. The syntax: the sixteen command words and the three bus bytes of opcode_table.json
(30_encoding.md R83, R86), the two code spaces they live in, and the host's side of the register port
(20_memory.md R60). -/

namespace Sys2Proof

/-- One constructor per row of opcode_table.json. A command keeps its whole IMM byte, also the bits its rule
ignores (30_encoding.md R84), since acceptance latches all of it in LIMM (R81). -/
inductive Instr where
  | nop (imm : Byte)
  | reset (imm : Byte)
  | writeBit (imm : Byte)
  | readBit (imm : Byte)
  | writeByte (imm : Byte)
  | readByte (imm : Byte)
  | select (imm : Byte)
  | convert (imm : Byte)
  | readScratchpad (imm : Byte)
  | crcInit (imm : Byte)
  | crcByte (imm : Byte)
  | decode (imm : Byte)
  | waitConv (imm : Byte)
  | measure (imm : Byte)
  | advance (imm : Byte)
  | cycle (imm : Byte)
  | matchRom
  | convertT
  | readScratchpadFn
deriving DecidableEq, Repr

/-- The two code spaces: command words written to CMD (30_encoding.md R80) and command bytes OWTC sends on the
bus (R86). -/
inductive Code where
  | cmd (w : Word)
  | bus (v : Byte)
deriving DecidableEq, Repr

/-- One host access at byte address `a` of `n` bytes (20_memory.md R60, R65); `writeRead` is the port's cycle with
`reg_wr` and `reg_rd` both 1. -/
inductive Access where
  | write (n a : Nat) (v : Word)
  | read (n a : Nat)
  | writeRead (n a : Nat) (v : Word)
deriving DecidableEq, Repr

/-- The inputs of one clock cycle: `rst`, whether some device pulls the line low, and the host's access
(20_memory.md R60, 10_state.md R45, 70_reset_and_hazards.md R250). -/
structure ClockIn where
  rst : Bool := false
  devLow : Bool := false
  access : Option Access := none
deriving DecidableEq, Repr

/-- What the host (or, for `cycle`, the clock) does in one turn: nothing, one register access, one `rst` cycle
(with an access that has no effect, R250), or one clock cycle of the RTL (R270). -/
inductive Act where
  | idle
  | access (x : Access)
  | rst (x : Option Access)
  | cycle (c : ClockIn)
deriving DecidableEq, Repr

/-- One turn of the interleaving (20_memory.md R69): an act, then up to `ctl` controller steps before the next
turn (`none`: until the command in flight ends). Log 1. -/
structure Turn where
  act : Act
  ctl : Option Nat
deriving DecidableEq, Repr

end Sys2Proof
end

