-- ==== Sys2Proof/WellFormed.lean ====
section
/-! DEFINITION. Well-formedness. Every term of `Instr` is an instruction the encoding admits, because its operands
are typed at their width and no IMM value is illegal (30_encoding.md R84, R85). What can be ill-formed is a command
word (a nonzero reserved bit, R82) and a host access (20_memory.md R65). -/

namespace Sys2Proof

/-- Every constructor with every IMM is legal (30_encoding.md R84: "An ignored IMM bit never makes a command
illegal"), so no instruction is ill-formed. -/
def Instr.wellFormed : Instr → Bool
  | .nop _ | .reset _ | .writeBit _ | .readBit _ | .writeByte _ | .readByte _ | .select _ | .convert _
  | .readScratchpad _ | .crcInit _ | .crcByte _ | .decode _ | .waitConv _ | .measure _ | .advance _ | .cycle _
  | .matchRom | .convertT | .readScratchpadFn => true

/-- RSV0 and RSV1 are zero (30_encoding.md R80, R82). -/
def Code.wellFormed : Code → Bool
  | .cmd w => w.extractLsb' 4 4 == 0 && w.extractLsb' 16 16 == 0
  | .bus v => v == 0x55 || v == 0x44 || v == 0xBE

/-- 20_memory.md R65: "`n = 4` and `a mod 4 = 0` and `a < 0x100`". -/
def portAccessOk (n a : Nat) : Bool := n == 4 && a % 4 == 0 && a < 0x100

/-- The access can be expressed on the port (20_memory.md R65). -/
def Access.wellFormed : Access → Bool
  | .write n a _ | .read n a | .writeRead n a _ => portAccessOk n a

def Act.wellFormed : Act → Bool
  | .idle => true
  | .access x => x.wellFormed
  | .rst x => x.all Access.wellFormed
  | .cycle c => c.access.all Access.wellFormed

end Sys2Proof
end

