-- ==== Sys2Proof/Decode.lean ====
section
/-! DEFINITION. Decoding and encoding of command words (30_encoding.md R80, R83) and bus bytes (R86). The decoder
is total and rejects by name. -/

namespace Sys2Proof

/-- Why a code is no instruction. -/
inductive DecodeError where
  /-- RSV0, bits [7:4], is not zero (30_encoding.md R82). -/
  | rsv0
  /-- RSV1, bits [31:16], is not zero (30_encoding.md R82). -/
  | rsv1
  /-- A byte that is none of OWTC's own bus command bytes (30_encoding.md R86). -/
  | noBusCommand
deriving DecidableEq, Repr

/-- OP, bits [3:0] (30_encoding.md R80). -/
def wordOp (w : Word) : BitVec 4 := w.extractLsb' 0 4

/-- RSV0, bits [7:4] (30_encoding.md R80). -/
def wordRsv0 (w : Word) : BitVec 4 := w.extractLsb' 4 4

/-- IMM, bits [15:8] (30_encoding.md R80). -/
def wordImm (w : Word) : Byte := w.extractLsb' 8 8

/-- RSV1, bits [31:16] (30_encoding.md R80). -/
def wordRsv1 (w : Word) : BitVec 16 := w.extractLsb' 16 16

/-- The opcode map of 30_encoding.md R83: every value of OP is a command. -/
def instrOf (op : BitVec 4) (imm : Byte) : Instr :=
  match op.toNat with
  | 0x0 => .nop imm
  | 0x1 => .reset imm
  | 0x2 => .writeBit imm
  | 0x3 => .readBit imm
  | 0x4 => .writeByte imm
  | 0x5 => .readByte imm
  | 0x6 => .select imm
  | 0x7 => .convert imm
  | 0x8 => .readScratchpad imm
  | 0x9 => .crcInit imm
  | 0xA => .crcByte imm
  | 0xB => .decode imm
  | 0xC => .waitConv imm
  | 0xD => .measure imm
  | 0xE => .advance imm
  | _ => .cycle imm

/-- Decode one command word: reserved bits first, then OP alone selects the command (30_encoding.md R80 to R85). -/
def decodeCmd (w : Word) : Except DecodeError Instr :=
  if wordRsv0 w ≠ 0 then .error .rsv0
  else if wordRsv1 w ≠ 0 then .error .rsv1
  else .ok (instrOf (wordOp w) (wordImm w))

/-- Decode one of OWTC's own bus command bytes (30_encoding.md R86). -/
def decodeBusByte (v : Byte) : Except DecodeError Instr :=
  if v = 0x55 then .ok .matchRom
  else if v = 0x44 then .ok .convertT
  else if v = 0xBE then .ok .readScratchpadFn
  else .error .noBusCommand

/-- The decoder over both code spaces. -/
def decode : Code → Except DecodeError Instr
  | .cmd w => decodeCmd w
  | .bus v => decodeBusByte v

/-- `w = zext_32(IMM) << 8 | OP` (30_encoding.md R83). -/
def encodeCmd (op : BitVec 4) (imm : Byte) : Word := (imm.setWidth 32 <<< 8) ||| op.setWidth 32

/-- The code of an instruction (30_encoding.md R83, R86). -/
def encode : Instr → Code
  | .nop imm => .cmd (encodeCmd 0x0 imm)
  | .reset imm => .cmd (encodeCmd 0x1 imm)
  | .writeBit imm => .cmd (encodeCmd 0x2 imm)
  | .readBit imm => .cmd (encodeCmd 0x3 imm)
  | .writeByte imm => .cmd (encodeCmd 0x4 imm)
  | .readByte imm => .cmd (encodeCmd 0x5 imm)
  | .select imm => .cmd (encodeCmd 0x6 imm)
  | .convert imm => .cmd (encodeCmd 0x7 imm)
  | .readScratchpad imm => .cmd (encodeCmd 0x8 imm)
  | .crcInit imm => .cmd (encodeCmd 0x9 imm)
  | .crcByte imm => .cmd (encodeCmd 0xA imm)
  | .decode imm => .cmd (encodeCmd 0xB imm)
  | .waitConv imm => .cmd (encodeCmd 0xC imm)
  | .measure imm => .cmd (encodeCmd 0xD imm)
  | .advance imm => .cmd (encodeCmd 0xE imm)
  | .cycle imm => .cmd (encodeCmd 0xF imm)
  | .matchRom => .bus 0x55
  | .convertT => .bus 0x44
  | .readScratchpadFn => .bus 0xBE

/-- The code of a row of opcode_table.json: an 8-bit row is a bus byte, any other a 32-bit command word whose bits
above `nbits` are zero. -/
def tableCode (nbits w : Nat) : Code :=
  if nbits ≤ 8 then .bus (BitVec.ofNat 8 (w % 2 ^ nbits)) else .cmd (BitVec.ofNat 32 (w % 2 ^ nbits))

/-- The instruction the decoder reads from a row's word of `nbits` bits. -/
def decodeTableWord (nbits w : Nat) : Option Instr :=
  match decode (tableCode nbits w) with
  | .ok i => some i
  | .error _ => none

end Sys2Proof
end

