-- ==== Sys2Proof/Machine/State.lean ====
section
/-! DEFINITION. The machine state: every host-visible register (10_state.md R21 to R36), the controller's hidden
state (R40 to R44), the line and the bus history (R45, R46), the read port (20_memory.md R60), and three fields of
the model's own (`choice`, `agenda`, `turn`). Plain data throughout. -/

namespace Sys2Proof.Machine

/-- The codes of STATUS.ERR that occur; 4 to 7 are never written (60_exceptions.md R220). -/
inductive Err where
  | ok
  | busAbsent
  | crcMismatch
  | illegalCmd
deriving DecidableEq, Repr

/-- The kind of the current time slot (10_state.md R42). -/
inductive Slot where
  | none
  | reset
  | write
  | read
  | wait
deriving DecidableEq, Repr

/-- The phase inside a slot (10_state.md R42 names `sphase`; its values are the model's, log 9): the line driven
low; released, before the sample or to the end of a write slot or wait; the one cycle that samples; the rest. -/
inductive Phase where
  | low
  | release
  | sample
  | recover
deriving DecidableEq, Repr

structure State where
  /-- STATUS.BUSY (10_state.md R23). -/
  busy : Bool
  /-- STATUS.PRESENCE (R24). -/
  presence : Bool
  /-- STATUS.RXBIT (R25). -/
  rxbit : Bool
  /-- STATUS.CRC_OK (R26). -/
  crcOk : Bool
  /-- STATUS.RES_VALID (R27). -/
  resValid : Bool
  /-- STATUS.OVR (R28). -/
  ovr : Bool
  /-- STATUS.ERR (R29). -/
  err : Err
  /-- RXDATA.RXBYTE (R30). -/
  rxbyte : Byte
  /-- CRC.CRC, the CRC-8 accumulator (R31). -/
  crc : Byte
  /-- ADDR0 (R32). -/
  addr0 : Word
  /-- ADDR1 (R32). -/
  addr1 : Word
  /-- SCRATCH[0..8], seen through SCRATCH0 to SCRATCH2 (R33). -/
  scratch : Vector Byte 9
  /-- TEMP.TEMP_Q4 (R34). -/
  tempQ4 : BitVec 16
  /-- TEMP.RES (R34). -/
  res : BitVec 2
  /-- SCHED.CURSOR (R35). -/
  cursor : BitVec 8
  /-- SCHED.MEAS_SLOT (R35). -/
  measSlot : BitVec 8
  /-- LOP, the accepted command's opcode (R40). -/
  lop : BitVec 4
  /-- LIMM, the accepted command's immediate (R40). -/
  limm : Byte
  /-- LADDR, the address SELECT, MEASURE or CYCLE sends (R40). -/
  laddr : Addr
  /-- LSLOT, the cursor latched by MEASURE and CYCLE (R40). -/
  lslot : BitVec 8
  /-- The index into the accepted command's list of micro-operations (R41). -/
  uix : Nat
  /-- The current time slot (R42). -/
  slot : Slot
  /-- The phase inside the slot (R42). -/
  sphase : Phase
  /-- The down-counter of clock cycles left in the phase (R42). -/
  tcnt : Nat
  /-- The bit index inside the byte being shifted (R42). -/
  bitcnt : BitVec 3
  /-- The byte index inside the group of bytes being shifted, 0 to 8 (R42). -/
  bytecnt : BitVec 4
  /-- The byte shift register (R42). -/
  shreg : Byte
  /-- The step index of MEASURE and CYCLE (R42). -/
  mstep : BitVec 4
  /-- The line driver's output enable: true drives the line low (R43). -/
  dqOe : Bool
  /-- The two-flip-flop input synchroniser (R44). -/
  dqSync : BitVec 2
  /-- Whether some device pulls the line low: the other part of the line's level (R45). -/
  devLow : Bool
  /-- The bus history H, oldest event first (R46). -/
  hist : List BusEvent
  /-- `reg_rdata`, the value the last host read returned (20_memory.md R60). -/
  rdata : Word
  /-- MODEL's own: the number of free choices made so far; each free value is a function of it (log 6). -/
  choice : Nat
  /-- MODEL's own: the host's turns still to come, next first (log 1). -/
  agenda : List Turn
  /-- MODEL's own: how many controller steps the current turn may take; `none` is to the command's end (log 1). -/
  turn : Option Nat
deriving DecidableEq, Repr

/-- OWTC has no fault mechanism (60_exceptions.md R223; 93_implementation_defined.md: "no item is treated as
`fault`"), so there is no fault: no constructor, raised by nobody. -/
inductive Fault where
deriving DecidableEq, Repr

inductive Refusal where
  /-- Raised by an arm of `exec` whose instruction has no meaning in the model; there is none. Safe. -/
  | notModelled (mnemonic : String)
  /-- Raised by `step` when the host's next turn holds an access of `n` bytes at `a` that the port cannot express
  (20_memory.md R65, "refuses ... no step"). Safe: the hardware has no such access. -/
  | accessNotExpressible (n a : Nat)
deriving DecidableEq, Repr

/-- The machine right after reset: R251 for the host-visible fields, 10_state.md R40 to R44 for the hidden state,
R250 for the empty history. The spec gives no value for `uix`, `sphase`, `devLow`, `rdata` (DESIGN CHOICE, log 10)
nor for the model's own `choice`, `agenda`, `turn` (DESIGN CHOICE, log 10). -/
def State.reset : State where
  busy := false
  presence := false
  rxbit := false
  crcOk := false
  resValid := false
  ovr := false
  err := .ok
  rxbyte := 0x00
  crc := 0x00
  addr0 := 0x00000000
  addr1 := 0x00000000
  scratch := Vector.replicate 9 0x00
  tempQ4 := 0x0000
  res := 0b00
  cursor := 0
  measSlot := 0
  lop := 0
  limm := 0
  laddr := 0
  lslot := 0
  uix := 0
  slot := .none
  sphase := .low
  tcnt := 0
  bitcnt := 0
  bytecnt := 0
  shreg := 0
  mstep := 0
  dqOe := false
  dqSync := 0b11
  devLow := false
  hist := []
  rdata := 0
  choice := 0
  agenda := []
  turn := none

end Sys2Proof.Machine
end

