-- ==== Sys2Proof/Machine/Functions.lean ====
section
/-! DEFINITION. The spec's pure functions: the CRC-8 (42_crc.md R150, R151), the scratchpad decoder (43_decode.md
R170) and the scheduler's successor (44_scheduler.md R191). -/

namespace Sys2Proof.Machine

/-- The order of the bits of a byte on the bus and in the CRC, bit 0 first (20_memory.md R67). -/
def bitOrder : List Nat := [0, 1, 2, 3, 4, 5, 6, 7]

/-- One of the eight shifts of `crc8_step` (42_crc.md R150). -/
def crc8Bit (c : Byte) (b : Bool) : Byte :=
  if c.getLsbD 0 ^^ b then (c >>> 1) ^^^ 0x8C else c >>> 1

/-- `crc8_step(c, v)`, bit 0 of `v` first (42_crc.md R150). -/
def crc8Step (c v : Byte) : Byte := bitOrder.foldl (fun c i => crc8Bit c (v.getLsbD i)) c

/-- `crc8` of a byte sequence, from 0x00 (42_crc.md R151). -/
def crc8 (bytes : List Byte) : Byte := bytes.foldl crc8Step 0x00

/-- `crc8(SCRATCH[0..7])`. -/
def scratchCrc (sp : Vector Byte 9) : Byte := crc8 (sp.toList.take 8)

/-- The scratchpad check `crc8(SCRATCH[0..7]) = SCRATCH[8]` (42_crc.md R151). -/
def scratchOk (sp : Vector Byte 9) : Bool := scratchCrc sp == sp[8]

/-- The raw temperature, byte 1 high and byte 0 low (43_decode.md R170). -/
def scratchRaw (sp : Vector Byte 9) : BitVec 16 := sp[1] ++ sp[0]

/-- The resolution code, byte 4 bits 6:5 (43_decode.md R170). -/
def scratchRes (sp : Vector Byte 9) : BitVec 2 := sp[4].extractLsb' 5 2

/-- How many low bits a resolution code clears (43_decode.md R175). -/
def clearedBits (r : BitVec 2) : Nat := 3 - r.toNat

/-- The raw value with its low bits cleared for a resolution code (43_decode.md R170). -/
def maskRaw (raw : BitVec 16) (r : BitVec 2) : BitVec 16 :=
  raw &&& ~~~ (BitVec.ofNat 16 (2 ^ clearedBits r - 1))

/-- `decode(s)`, the Q4 value and the resolution code (43_decode.md R170). -/
def decodeTemp (sp : Vector Byte 9) : BitVec 16 × BitVec 2 :=
  (maskRaw (scratchRaw sp) (scratchRes sp), scratchRes sp)

/-- `next(c) = (c + 1) mod N_SENSORS`, written back as 8 bits (44_scheduler.md R191). -/
def nextSlot (cfg : Config) (c : BitVec 8) : BitVec 8 := BitVec.ofNat 8 ((c.toNat + 1) % cfg.nSensors)

end Sys2Proof.Machine
end

