-- ==== Sys2Proof/Machine/Operands.lean ====
section
/-! DEFINITION. Operand forms: what a command takes from IMM (30_encoding.md R84), the staging address, the address
multiplexer (44_scheduler.md R190), the latches filled at acceptance (R81), and a byte's place in an address
(20_memory.md R68). -/

namespace Sys2Proof.Machine

/-- OP of a command (30_encoding.md R83). A bus byte has no opcode; it is no command word and is never accepted,
and the value 0 for it is never used. -/
def opOf : Instr → BitVec 4
  | .nop _ => 0x0
  | .reset _ => 0x1
  | .writeBit _ => 0x2
  | .readBit _ => 0x3
  | .writeByte _ => 0x4
  | .readByte _ => 0x5
  | .select _ => 0x6
  | .convert _ => 0x7
  | .readScratchpad _ => 0x8
  | .crcInit _ => 0x9
  | .crcByte _ => 0xA
  | .decode _ => 0xB
  | .waitConv _ => 0xC
  | .measure _ => 0xD
  | .advance _ => 0xE
  | .cycle _ => 0xF
  | .matchRom | .convertT | .readScratchpadFn => 0x0

/-- IMM of a command (30_encoding.md R80); a bus byte has none. -/
def immOf : Instr → Byte
  | .nop imm | .reset imm | .writeBit imm | .readBit imm | .writeByte imm | .readByte imm | .select imm
  | .convert imm | .readScratchpad imm | .crcInit imm | .crcByte imm | .decode imm | .waitConv imm
  | .measure imm | .advance imm | .cycle imm => imm
  | .matchRom | .convertT | .readScratchpadFn => 0

/-- IMM[0]: the bit of WRITE_BIT, the address source of SELECT (30_encoding.md R84). -/
def immBit (imm : Byte) : Bool := imm.getLsbD 0

/-- Address byte k, `a[8k+7:8k]` (10_state.md R32). -/
def addrByte (a : Addr) (k : Nat) : Byte := a.extractLsb' (8 * k) 8

/-- The staging SensorAddress `ADDR = ADDR1 ++ ADDR0` (10_state.md R32). -/
def State.addr (s : State) : Addr := s.addr1 ++ s.addr0

/-- The address multiplexer `TABLE_OUT = SENSOR_TABLE[CURSOR]` (44_scheduler.md R190). -/
def tableOut (cfg : Config) (s : State) : Addr := cfg.sensorTable s.cursor

/-- The address SELECT latches: source 0 is ADDR, source 1 the table (30_encoding.md R81, R84). -/
def selectAddr (cfg : Config) (imm : Byte) (s : State) : Addr :=
  if immBit imm then tableOut cfg s else s.addr

/-- LADDR after acceptance (30_encoding.md R81); commands that send no address leave it. -/
def acceptLaddr (cfg : Config) (i : Instr) (s : State) : Addr :=
  match i with
  | .select imm => selectAddr cfg imm s
  | .measure _ | .cycle _ => tableOut cfg s
  | .nop _ | .reset _ | .writeBit _ | .readBit _ | .writeByte _ | .readByte _ | .convert _ | .readScratchpad _
  | .crcInit _ | .crcByte _ | .decode _ | .waitConv _ | .advance _
  | .matchRom | .convertT | .readScratchpadFn => s.laddr

/-- LSLOT after acceptance (30_encoding.md R81): MEASURE and CYCLE latch the cursor. -/
def acceptLslot (i : Instr) (s : State) : BitVec 8 :=
  match i with
  | .measure _ | .cycle _ => s.cursor
  | .nop _ | .reset _ | .writeBit _ | .readBit _ | .writeByte _ | .readByte _ | .select _ | .convert _
  | .readScratchpad _ | .crcInit _ | .crcByte _ | .decode _ | .waitConv _ | .advance _
  | .matchRom | .convertT | .readScratchpadFn => s.lslot

/-- The command in flight, rebuilt from its latches LOP and LIMM (10_state.md R40, 20_memory.md R72). -/
def State.current (s : State) : Instr := instrOf s.lop s.limm

/-- The level of the line, the wired-AND of OWTC's driver and the devices' (10_state.md R45). -/
def State.line (s : State) : Bool := !s.dqOe && !s.devLow

end Sys2Proof.Machine
end

