-- ==== Sys2Proof/Machine/Flags.lean ====
section
/-! DEFINITION. The flags and the layout of the host registers: the codes of STATUS.ERR (60_exceptions.md R220),
RES_VALID at acceptance (10_state.md R27), each register's word as the host reads it (10_state.md R21 to R36,
20_memory.md R61), and which of its bits are unspecified while BUSY = 1 (70_reset_and_hazards.md R262). -/

namespace Sys2Proof.Machine

/-- The code of STATUS.ERR (60_exceptions.md R220). -/
def Err.code : Err → BitVec 3
  | .ok => 0
  | .busAbsent => 1
  | .crcMismatch => 2
  | .illegalCmd => 3

/-- RES_VALID after acceptance: DECODE, MEASURE and CYCLE clear it (30_encoding.md R81). -/
def acceptResValid (i : Instr) (s : State) : Bool :=
  match i with
  | .decode _ | .measure _ | .cycle _ => false
  | .nop _ | .reset _ | .writeBit _ | .readBit _ | .writeByte _ | .readByte _ | .select _ | .convert _
  | .readScratchpad _ | .crcInit _ | .crcByte _ | .waitConv _ | .advance _
  | .matchRom | .convertT | .readScratchpadFn => s.resValid

/-- A Bool as the bit of a register. -/
def flagBit (b : Bool) : BitVec 1 := BitVec.ofBool b

/-- STATUS as read: ERR at [10:8], RES0 at [7:6], then OVR, RES_VALID, CRC_OK, RXBIT, PRESENCE, BUSY
(10_state.md R22). -/
def statusWord (s : State) : Word :=
  (0 : BitVec 21) ++ s.err.code ++ (0 : BitVec 2) ++ flagBit s.ovr ++ flagBit s.resValid ++ flagBit s.crcOk
    ++ flagBit s.rxbit ++ flagBit s.presence ++ flagBit s.busy

/-- RXDATA as read (10_state.md R30). -/
def rxdataWord (s : State) : Word := s.rxbyte.setWidth 32

/-- CRC as read (10_state.md R31). -/
def crcWord (s : State) : Word := s.crc.setWidth 32

/-- SCRATCH0, bytes 0 to 3, byte k at [8k+7:8k] (10_state.md R33). -/
def scratch0Word (s : State) : Word := s.scratch[3] ++ s.scratch[2] ++ s.scratch[1] ++ s.scratch[0]

/-- SCRATCH1, bytes 4 to 7 (10_state.md R33). -/
def scratch1Word (s : State) : Word := s.scratch[7] ++ s.scratch[6] ++ s.scratch[5] ++ s.scratch[4]

/-- SCRATCH2, byte 8 (10_state.md R33). -/
def scratch2Word (s : State) : Word := s.scratch[8].setWidth 32

/-- TEMP as read: RES at [17:16], TEMP_Q4 at [15:0] (10_state.md R34). -/
def tempWord (s : State) : Word := (0 : BitVec 14) ++ s.res ++ s.tempQ4

/-- SCHED as read: NCOUNT at [24:16], MEAS_SLOT at [15:8], CURSOR at [7:0] (10_state.md R35). -/
def schedWord (cfg : Config) (s : State) : Word :=
  (0 : BitVec 7) ++ BitVec.ofNat 9 cfg.nSensors ++ s.measSlot ++ s.cursor

/-- The register at a byte offset (20_memory.md R61); CMD and every offset with no register read 0
(10_state.md R21, R36). -/
def regWord (cfg : Config) (a : Nat) (s : State) : Word :=
  match a with
  | 0x04 => statusWord s
  | 0x08 => rxdataWord s
  | 0x0C => crcWord s
  | 0x10 => s.addr0
  | 0x14 => s.addr1
  | 0x18 => scratch0Word s
  | 0x1C => scratch1Word s
  | 0x20 => scratch2Word s
  | 0x24 => tempWord s
  | 0x28 => schedWord cfg s
  | _ => 0

/-- The bits of a register whose read is unspecified while BUSY = 1 (70_reset_and_hazards.md R262). -/
def busyFreeMask (a : Nat) : Word :=
  match a with
  | 0x04 => 0x0000071E
  | 0x08 => 0x000000FF
  | 0x0C => 0x000000FF
  | 0x18 => 0xFFFFFFFF
  | 0x1C => 0xFFFFFFFF
  | 0x20 => 0x000000FF
  | 0x24 => 0x0003FFFF
  | 0x28 => 0x0000FFFF
  | _ => 0

end Sys2Proof.Machine
end

