-- ==== Sys2Proof/Machine/MicroOps.lean ====
section
/-! DEFINITION. The micro-operations a command body is a list of (10_state.md R41), and the spec's shared sequences
(40_bus_primitives.md R103, R104, 41_rom_function.md R130, R135). A micro-operation is one controller step
(20_memory.md R69): at most one time slot or wait, with the effects the body makes just before and just after it
(60_exceptions.md R222: completion "in the same step as the body's last effect"). Log 8. -/

namespace Sys2Proof.Machine

/-- The slot of a micro-operation; `none` is a body with no time slot. -/
inductive SlotOp where
  | none
  | reset
  | write (b : Bool)
  | read
  | wait
deriving DecidableEq, Repr

/-- The effects of command bodies that take no time, each named after its line of pseudocode. -/
inductive Effect where
  /-- `SCHED.MEAS_SLOT <- LSLOT` (44_scheduler.md R194). -/
  | setMeasSlot
  /-- `if not p: fail BUS_ABSENT` (40_bus_primitives.md R107, 44_scheduler.md R194). -/
  | failIfAbsent
  /-- `STATUS.RXBIT <- b` (40_bus_primitives.md R110). -/
  | storeRxBit
  /-- `RXDATA.RXBYTE <- v` (40_bus_primitives.md R112). -/
  | storeRxByte
  /-- `SCRATCH[k] <- BusReadByte()` (41_rom_function.md R135). -/
  | storeScratch (k : Fin 9)
  /-- The last four lines of `ScratchRead()` (41_rom_function.md R135). -/
  | scratchCheck
  /-- `ValidatedDecode()` (43_decode.md R171). -/
  | validatedDecode
  /-- `CRC <- LIMM` (42_crc.md R152). -/
  | crcInit (v : Byte)
  /-- `CRC <- crc8_step(CRC, LIMM)` (42_crc.md R153). -/
  | crcByte (v : Byte)
  /-- `SCHED.CURSOR <- next(SCHED.CURSOR)` (44_scheduler.md R192). -/
  | advance
  /-- `SCHED.CURSOR <- next(LSLOT)` (44_scheduler.md R196). -/
  | advanceLatched
deriving DecidableEq, Repr

/-- One micro-operation. `bit`, `byte`, `mstep` are the sequencer's counters during its slot, and `load` the byte
the shift register takes as the slot begins (10_state.md R42; log 9). -/
structure MicroOp where
  pre : List Effect := []
  slot : SlotOp
  post : List Effect := []
  bit : BitVec 3 := 0
  byte : BitVec 4 := 0
  mstep : BitVec 4 := 0
  load : Option Byte := none
deriving DecidableEq, Repr

/-- A command body: its micro-operations, and the effects made at its end whether it fails or not (CYCLE's
advance, 44_scheduler.md R196). -/
structure Body where
  ops : List MicroOp
  always : List Effect := []
deriving DecidableEq, Repr

/-- A body with no time slot: one controller step (40_bus_primitives.md §2). -/
def instantOps (effects : List Effect) : List MicroOp := [{ slot := .none, post := effects }]

/-- A reset slot whose caller fails on no presence (40_bus_primitives.md R107). -/
def resetOp (pre : List Effect) (mstep : BitVec 4) : MicroOp :=
  { pre := pre, slot := .reset, post := [.failIfAbsent], mstep := mstep }

/-- `Wait(T_CONV)` (40_bus_primitives.md R105). -/
def waitOp (mstep : BitVec 4) : MicroOp := { slot := .wait, mstep := mstep }

/-- The write slot of bit `i` of `v` (40_bus_primitives.md R101, R103). -/
def writeBitOp (v : Byte) (byte mstep : BitVec 4) (i : Nat) : MicroOp :=
  { slot := .write (v.getLsbD i), bit := BitVec.ofNat 3 i, byte := byte, mstep := mstep,
    load := if i = 0 then some v else none }

/-- `BusWriteByte(v)`: eight write slots, bit 0 first (40_bus_primitives.md R103). -/
def writeByteOps (v : Byte) (byte mstep : BitVec 4) : List MicroOp := bitOrder.map (writeBitOp v byte mstep)

/-- The read slot of bit `i` of a byte; `post` follows the eighth (40_bus_primitives.md R102, R104). -/
def readBitOp (post : List Effect) (byte mstep : BitVec 4) (i : Nat) : MicroOp :=
  { slot := .read, post := if i = 7 then post else [], bit := BitVec.ofNat 3 i, byte := byte, mstep := mstep }

/-- `BusReadByte()`, then `post` (40_bus_primitives.md R104). -/
def readByteOps (post : List Effect) (byte mstep : BitVec 4) : List MicroOp :=
  bitOrder.map (readBitOp post byte mstep)

/-- The bytes of the bus commands (30_encoding.md R86). -/
def matchRomByte : Byte := 0x55
def convertByte : Byte := 0x44
def readScratchpadByte : Byte := 0xBE

/-- The order of the address bytes on the bus, byte 0 first (20_memory.md R68). -/
def addrOrder : List Nat := [0, 1, 2, 3, 4, 5, 6, 7]

/-- `SendMatch(a)`: MATCH ROM, then the eight address bytes (41_rom_function.md R130). -/
def sendMatchOps (a : Addr) (mstep : BitVec 4) : List MicroOp :=
  writeByteOps matchRomByte 0 mstep
    ++ addrOrder.flatMap fun k => writeByteOps (addrByte a k) (BitVec.ofNat 4 (k + 1)) mstep

/-- The order of the scratchpad bytes on the bus up to byte 7, byte 0 first (20_memory.md R68). -/
def scratchOrder : List (Fin 9) := [0, 1, 2, 3, 4, 5, 6, 7]

/-- `ScratchRead()`, then `post` if the check passes (41_rom_function.md R135). -/
def scratchReadOps (post : List Effect) (mstep : BitVec 4) : List MicroOp :=
  writeByteOps readScratchpadByte 0 mstep
    ++ (scratchOrder.flatMap fun k => readByteOps [.storeScratch k] (BitVec.ofNat 4 k.val) mstep)
    ++ readByteOps (.storeScratch 8 :: .scratchCheck :: post) 8 mstep

/-- `MeasureBody()` for the latched address (44_scheduler.md R194); `mstep` counts the steps of its comments. -/
def measureOps (a : Addr) : List MicroOp :=
  [resetOp [.setMeasSlot] 1] ++ sendMatchOps a 2 ++ writeByteOps convertByte 0 2 ++ [waitOp 3]
    ++ [resetOp [] 4] ++ sendMatchOps a 4 ++ scratchReadOps [.validatedDecode] 5

end Sys2Proof.Machine
end

