-- ==== Sys2Proof/Machine/Ops.lean ====
section
/-! DEFINITION. The shared operations of the controller: the effects of a body, the end of a command in either of
its two ways (60_exceptions.md R222: `failCommand` is OWTC's one "exception"), the time slots (40_bus_primitives.md
R100 to R105), one controller step, and a turn of controller steps. -/

namespace Sys2Proof.Machine

/-! ### Time slots -/

/-- The kind a slot shows in the sequencer state (10_state.md R42). -/
def SlotOp.kind : SlotOp → Slot
  | .none => .none
  | .reset => .reset
  | .write _ => .write
  | .read => .read
  | .wait => .wait

/-- The first phase of a slot and its length in cycles (40_bus_primitives.md R100 to R102, R105). For a body with no
slot, low and 0 are the model's choice (DESIGN CHOICE, log 24). -/
def firstPhase (t : Timing) : SlotOp → Phase × Nat
  | .none => (.low, 0)
  | .reset => (.low, t.tRstl)
  | .write b => (.low, if b then t.tW1l else t.tW0l)
  | .read => (.low, t.tRl)
  | .wait => (.release, t.tConv)

/-- The phase after one that has run out, and its length; `none` at the end of the slot (40_bus_primitives.md R100
to R102, R105). The sampling cycle is the first of the slot's last phase. -/
def nextPhase (t : Timing) : SlotOp → Phase → Option (Phase × Nat)
  | .reset, .low => some (.release, t.tMsp)
  | .reset, .release => some (.sample, t.tRstr)
  | .read, .low => some (.release, t.tMsr)
  | .read, .release => some (.sample, t.tRh)
  | .write b, .low => some (.release, if b then t.tW1h else t.tW0h)
  | _, _ => none

/-- The line is driven low in the first phase of a reset, write or read slot, and released otherwise. -/
def drives : SlotOp → Phase → Bool
  | .reset, .low | .write _, .low | .read, .low => true
  | _, _ => false

/-- The sequencer at rest: no slot, line released (10_state.md R42, R43). R42 does not say what `sphase` and the
counters hold with no slot; low and 0 are the model's choice (DESIGN CHOICE, log 24). -/
def sequencerRest (s : State) : State :=
  { s with slot := .none, sphase := .low, tcnt := 0, bitcnt := 0, bytecnt := 0, mstep := 0, dqOe := false }

/-- The sequencer at the first cycle of a micro-operation's slot (10_state.md R42, 70_reset_and_hazards.md R270:
slots run back to back). -/
def loadSlot (cfg : Config) (op : MicroOp) (s : State) : State :=
  { s with
    slot := op.slot.kind
    sphase := (firstPhase cfg.timing op.slot).1
    tcnt := (firstPhase cfg.timing op.slot).2
    bitcnt := op.bit
    bytecnt := op.byte
    mstep := op.mstep
    shreg := op.load.getD s.shreg
    dqOe := drives op.slot (firstPhase cfg.timing op.slot).1 }

/-- The presence a reset slot samples (40_bus_primitives.md R100, 10_state.md R24). -/
def samplePresence (p : Bool) (s : State) : State := { s with presence := p }

/-- A byte shifted right one place with a new bit 7 (10_state.md R42). -/
def pushBit (b : Bool) (v : Byte) : Byte := BitVec.ofBool b ++ v.extractLsb' 1 7

/-- The bit a read slot samples enters the shift register at bit 7 (10_state.md R42). -/
def sampleBit (b : Bool) (s : State) : State := { s with shreg := pushBit b s.shreg }

/-- Give a slot its answer from the bus environment (10_state.md R47, 40_bus_primitives.md R100, R102), with a fresh
choice. A slot that clock cycles have already sampled keeps that answer (log 15). -/
def answerSlot (cfg : Config) (op : SlotOp) (s : State) : State :=
  match op with
  | .reset =>
    if s.sphase = .recover then s
    else { samplePresence (cfg.presence s.hist s.choice) s with choice := s.choice + 1 }
  | .read =>
    if s.sphase = .recover then s
    else { sampleBit (cfg.readBit s.hist s.choice) s with choice := s.choice + 1 }
  | .none | .write _ | .wait => s

/-- Record the slot's bus event in H (10_state.md R46, 40_bus_primitives.md R100 to R105); a write slot has shifted
its bit out of the shift register. R42 does not say in which cycle of a write slot it shifts, nor what enters at bit
7; the end of the slot's last cycle and a 0 are the model's choice (DESIGN CHOICE, log 23). -/
def recordSlot (cfg : Config) (op : SlotOp) (s : State) : State :=
  match op with
  | .none => s
  | .reset => { s with hist := s.hist ++ [.reset s.presence] }
  | .write b => { s with hist := s.hist ++ [.write b], shreg := s.shreg >>> 1 }
  | .read => { s with hist := s.hist ++ [.read (s.shreg.getLsbD 7)] }
  | .wait => { s with hist := s.hist ++ [.wait cfg.timing.tConv] }

/-! ### Effects -/

/-- The last lines of `ScratchRead()`: CRC and CRC_OK, and whether the check failed (41_rom_function.md R135). -/
def checkScratch (s : State) : State × Option Err :=
  ({ s with crc := scratchCrc s.scratch, crcOk := scratchOk s.scratch },
    if scratchOk s.scratch then none else some .crcMismatch)

/-- `ValidatedDecode()` (43_decode.md R171): it writes CRC_OK, and TEMP and RES_VALID only if the check passes. -/
def decodeScratch (s : State) : State × Option Err :=
  if scratchOk s.scratch then
    ({ s with crcOk := true, tempQ4 := (decodeTemp s.scratch).1, res := (decodeTemp s.scratch).2, resValid := true },
      none)
  else ({ s with crcOk := false }, some .crcMismatch)

/-- One effect; an error is the `fail` of its line. -/
def runEffect (cfg : Config) (e : Effect) (s : State) : State × Option Err :=
  match e with
  | .setMeasSlot => ({ s with measSlot := s.lslot }, none)
  | .failIfAbsent => (s, if s.presence then none else some .busAbsent)
  | .storeRxBit => ({ s with rxbit := s.shreg.getLsbD 7 }, none)
  | .storeRxByte => ({ s with rxbyte := s.shreg }, none)
  | .storeScratch k => ({ s with scratch := s.scratch.set k s.shreg }, none)
  | .scratchCheck => checkScratch s
  | .validatedDecode => decodeScratch s
  | .crcInit v => ({ s with crc := v }, none)
  | .crcByte v => ({ s with crc := crc8Step s.crc v }, none)
  | .advance => ({ s with cursor := nextSlot cfg s.cursor }, none)
  | .advanceLatched => ({ s with cursor := nextSlot cfg s.lslot }, none)

/-- Effects in order, up to the first `fail` (00_scope.md R10). -/
def runEffects (cfg : Config) : List Effect → State → State × Option Err
  | [], s => (s, none)
  | e :: es, s =>
    match runEffect cfg e s with
    | (s', none) => runEffects cfg es s'
    | (s', some err) => (s', some err)

/-! ### The end of a command -/

/-- BUSY <- 0 and the controller idle (60_exceptions.md R222, 10_state.md R41); the position "idle" is written 0
(log 24). -/
def goIdle (s : State) : State := { sequencerRest s with busy := false, uix := 0 }

/-- The normal end: the body's unconditional effects, then BUSY <- 0 in the same step (60_exceptions.md R222). -/
def completeCommand (cfg : Config) (b : Body) (s : State) : State := goIdle (runEffects cfg b.always s).1

/-- `fail E`: ERR <- E, the rest of the body skipped except its unconditional effects, BUSY <- 0 in the same step;
every earlier effect stays (60_exceptions.md R222). OWTC's only exception: nothing is saved, no mode changes and
nothing jumps (R223), and there is no return from it (R224). -/
def failCommand (cfg : Config) (b : Body) (e : Err) (s : State) : State :=
  completeCommand cfg b { s with err := e }

/-! ### Controller steps -/

/-- The end of a micro-operation whose slot has its answer: record the event, make the effects that follow, and go
on to the next micro-operation or end the command. -/
def endMicroOp (cfg : Config) (b : Body) (op : MicroOp) (rest : List MicroOp) (s : State) : State :=
  match runEffects cfg op.post (recordSlot cfg op.slot s) with
  | (s', some e) => failCommand cfg b e s'
  | (s', none) =>
    match rest with
    | [] => completeCommand cfg b s'
    | next :: _ => loadSlot cfg next { s' with uix := s'.uix + 1 }

/-- One controller step at the step level: one micro-operation, `rest` being those after it
(20_memory.md R69, 40_bus_primitives.md R109). -/
def stepMicroOp (cfg : Config) (b : Body) (op : MicroOp) (rest : List MicroOp) (s : State) : State :=
  endMicroOp cfg b op rest (answerSlot cfg op.slot (runEffects cfg op.pre s).1)

/-- At most `n` controller steps through the micro-operations `ops` still to come, stopping when the command ends.
The case of a command in flight with none left cannot arise in a run; it ends the command. -/
def runMicroOps (cfg : Config) (b : Body) : Nat → List MicroOp → State → State
  | 0, _, s => s
  | _ + 1, [], s => completeCommand cfg b s
  | n + 1, op :: rest, s =>
    let s' := stepMicroOp cfg b op rest s
    if s'.busy then runMicroOps cfg b n rest s' else s'

/-- The micro-operations still to come (10_state.md R41). -/
def opsLeft (b : Body) (s : State) : List MicroOp := b.ops.drop s.uix

/-- How many controller steps this turn allows; `none` allows all that are left, and one more ends any command. -/
def turnSteps (b : Body) (s : State) : Nat :=
  match s.turn with
  | none => (opsLeft b s).length + 1
  | some n => n

/-- The controller's turn on the command in flight with body `b`, resumed where it stands (log 1). With no command
in flight nothing happens (60_exceptions.md R235; log 20). -/
def runBody (cfg : Config) (b : Body) (s : State) : State :=
  if s.busy then runMicroOps cfg b (turnSteps b s) (opsLeft b s) s else s

/-- One byte sent by itself, `BusWriteByte(v)` (40_bus_primitives.md R103), outside any command: the meaning of the
bus-byte rows of opcode_table.json (log 3). -/
def sendByteAlone (cfg : Config) (v : Byte) (s : State) : State :=
  sequencerRest ((writeByteOps v 0 0).foldl (fun s op => recordSlot cfg op.slot s) { s with shreg := v })

end Sys2Proof.Machine
end

