-- ==== Sys2Proof/Machine/BusBytes.lean ====
section
/-! DEFINITION. The three bus-byte rows of opcode_table.json: OWTC sends the byte, LSB first, in eight write slots
(30_encoding.md R86, 40_bus_primitives.md R103). Inside a command they are sent by its body; these meanings send one
by itself (log 3). -/

namespace Sys2Proof.Machine

def execMatchRom (s : State) : Host.Outcome State Fault Refusal :=
  .next (sendByteAlone Config.owtc matchRomByte s)

def execConvertT (s : State) : Host.Outcome State Fault Refusal :=
  .next (sendByteAlone Config.owtc convertByte s)

def execReadScratchpadFn (s : State) : Host.Outcome State Fault Refusal :=
  .next (sendByteAlone Config.owtc readScratchpadByte s)

end Sys2Proof.Machine
end

