-- ==== Sys2Proof/Machine/Crc.lean ====
section
/-! DEFINITION. CRC_INIT and CRC_BYTE (42_crc.md R152, R153). -/

namespace Sys2Proof.Machine

/-- CRC_INIT: `CRC <- LIMM` (R152). -/
def crcInitBody (imm : Byte) : Body := { ops := instantOps [.crcInit imm] }

/-- CRC_BYTE: `CRC <- crc8_step(CRC, LIMM)` (R153). -/
def crcByteBody (imm : Byte) : Body := { ops := instantOps [.crcByte imm] }

def execCrcInit (imm : Byte) (s : State) : Host.Outcome State Fault Refusal :=
  .next (runBody Config.owtc (crcInitBody imm) s)

def execCrcByte (imm : Byte) (s : State) : Host.Outcome State Fault Refusal :=
  .next (runBody Config.owtc (crcByteBody imm) s)

end Sys2Proof.Machine
end

