-- ==== Sys2Proof/Machine/Decoder.lean ====
section
/-! DEFINITION. DECODE (43_decode.md R172). -/

namespace Sys2Proof.Machine

/-- DECODE: `ValidatedDecode()`; RES_VALID was cleared at acceptance (R171, R172). -/
def decodeBody : Body := { ops := instantOps [.validatedDecode] }

def execDecode (_imm : Byte) (s : State) : Host.Outcome State Fault Refusal :=
  .next (runBody Config.owtc decodeBody s)

end Sys2Proof.Machine
end

