-- ==== Sys2Proof/Machine/Primitives.lean ====
section
/-! DEFINITION. NOP, RESET, WRITE_BIT, READ_BIT, WRITE_BYTE and READ_BYTE (40_bus_primitives.md R106 to R112). Each
command has its body and its meaning: the controller's turn on that body. -/

namespace Sys2Proof.Machine

/-- NOP: `(nothing)` (R106). -/
def nopBody : Body := { ops := instantOps [] }

/-- RESET: one reset slot, `fail BUS_ABSENT` on no presence (R107). -/
def resetBody : Body := { ops := [resetOp [] 0] }

/-- WRITE_BIT: one write slot of LIMM[0] (R108). -/
def writeBitBody (imm : Byte) : Body := { ops := [{ slot := .write (immBit imm), load := some imm }] }

/-- READ_BIT: one read slot, then RXBIT (R110). -/
def readBitBody : Body := { ops := [{ slot := .read, post := [.storeRxBit] }] }

/-- WRITE_BYTE: `BusWriteByte(LIMM)` (R111). -/
def writeByteBody (imm : Byte) : Body := { ops := writeByteOps imm 0 0 }

/-- READ_BYTE: `BusReadByte()`, then RXBYTE (R112). -/
def readByteBody : Body := { ops := readByteOps [.storeRxByte] 0 0 }

def execNop (_imm : Byte) (s : State) : Host.Outcome State Fault Refusal :=
  .next (runBody Config.owtc nopBody s)

def execReset (_imm : Byte) (s : State) : Host.Outcome State Fault Refusal :=
  .next (runBody Config.owtc resetBody s)

def execWriteBit (imm : Byte) (s : State) : Host.Outcome State Fault Refusal :=
  .next (runBody Config.owtc (writeBitBody imm) s)

def execReadBit (_imm : Byte) (s : State) : Host.Outcome State Fault Refusal :=
  .next (runBody Config.owtc readBitBody s)

def execWriteByte (imm : Byte) (s : State) : Host.Outcome State Fault Refusal :=
  .next (runBody Config.owtc (writeByteBody imm) s)

def execReadByte (_imm : Byte) (s : State) : Host.Outcome State Fault Refusal :=
  .next (runBody Config.owtc readByteBody s)

end Sys2Proof.Machine
end

