-- ==== Sys2Proof/Machine/RomFunction.lean ====
section
/-! DEFINITION. SELECT, CONVERT, WAIT_CONV and READ_SCRATCHPAD (41_rom_function.md R131 to R134). None checks what
came before it (R136). -/

namespace Sys2Proof.Machine

/-- SELECT: `SendMatch(LADDR)`; the source IMM[0] was used at acceptance (R131, 30_encoding.md R81). -/
def selectBody (a : Addr) : Body := { ops := sendMatchOps a 0 }

/-- CONVERT: `BusWriteByte(0x44)` (R132). -/
def convertBody : Body := { ops := writeByteOps convertByte 0 0 }

/-- WAIT_CONV: `Wait(T_CONV)` (R133). -/
def waitConvBody : Body := { ops := [waitOp 0] }

/-- READ_SCRATCHPAD: `ScratchRead()` (R134, R135). -/
def readScratchpadBody : Body := { ops := scratchReadOps [] 0 }

def execSelect (_imm : Byte) (s : State) : Host.Outcome State Fault Refusal :=
  .next (runBody Config.owtc (selectBody s.laddr) s)

def execConvert (_imm : Byte) (s : State) : Host.Outcome State Fault Refusal :=
  .next (runBody Config.owtc convertBody s)

def execWaitConv (_imm : Byte) (s : State) : Host.Outcome State Fault Refusal :=
  .next (runBody Config.owtc waitConvBody s)

def execReadScratchpad (_imm : Byte) (s : State) : Host.Outcome State Fault Refusal :=
  .next (runBody Config.owtc readScratchpadBody s)

end Sys2Proof.Machine
end

