-- ==== Sys2Proof/Machine/Scheduler.lean ====
section
/-! DEFINITION. MEASURE, ADVANCE and CYCLE (44_scheduler.md R192, R194, R196). -/

namespace Sys2Proof.Machine

/-- MEASURE: `MeasureBody()` with the latched address (R194). -/
def measureBody (a : Addr) : Body := { ops := measureOps a }

/-- ADVANCE: `SCHED.CURSOR <- next(SCHED.CURSOR)` (R192). -/
def advanceBody : Body := { ops := instantOps [.advance] }

/-- CYCLE: `MeasureBody()`, then `SCHED.CURSOR <- next(LSLOT)` on success or failure (R196). -/
def cycleBody (a : Addr) : Body := { ops := measureOps a, always := [.advanceLatched] }

def execMeasure (_imm : Byte) (s : State) : Host.Outcome State Fault Refusal :=
  .next (runBody Config.owtc (measureBody s.laddr) s)

def execAdvance (_imm : Byte) (s : State) : Host.Outcome State Fault Refusal :=
  .next (runBody Config.owtc advanceBody s)

def execCycle (_imm : Byte) (s : State) : Host.Outcome State Fault Refusal :=
  .next (runBody Config.owtc (cycleBody s.laddr) s)

end Sys2Proof.Machine
end

