-- ==== Sys2Proof/Machine/Bodies.lean ====
section
/-! DEFINITION. The body of each command in one table, for acceptance and the clock-cycle operation: "A command
body is fixed by LOP" (10_state.md R41). -/

namespace Sys2Proof.Machine

/-- The body of a command whose latched address is `a`. A bus byte is no command and has no body of its own. -/
def bodyOf (i : Instr) (a : Addr) : Body :=
  match i with
  | .nop _ => nopBody
  | .reset _ => resetBody
  | .writeBit imm => writeBitBody imm
  | .readBit _ => readBitBody
  | .writeByte imm => writeByteBody imm
  | .readByte _ => readByteBody
  | .select _ => selectBody a
  | .convert _ => convertBody
  | .readScratchpad _ => readScratchpadBody
  | .crcInit imm => crcInitBody imm
  | .crcByte imm => crcByteBody imm
  | .decode _ => decodeBody
  | .waitConv _ => waitConvBody
  | .measure _ => measureBody a
  | .advance _ => advanceBody
  | .cycle _ => cycleBody a
  | .matchRom | .convertT | .readScratchpadFn => { ops := [] }

/-- The body of the command in flight. -/
def State.body (s : State) : Body := bodyOf s.current s.laddr

end Sys2Proof.Machine
end

