-- ==== Sys2Proof/Machine/Dispatch.lean ====
section
/-! DEFINITION. One arm per instruction. -/

namespace Sys2Proof.Machine

def exec (i : Instr) (s : State) : Host.Outcome State Fault Refusal :=
  match i with
  | .nop imm => Sys2Proof.Machine.execNop imm s
  | .reset imm => Sys2Proof.Machine.execReset imm s
  | .writeBit imm => Sys2Proof.Machine.execWriteBit imm s
  | .readBit imm => Sys2Proof.Machine.execReadBit imm s
  | .writeByte imm => Sys2Proof.Machine.execWriteByte imm s
  | .readByte imm => Sys2Proof.Machine.execReadByte imm s
  | .select imm => Sys2Proof.Machine.execSelect imm s
  | .convert imm => Sys2Proof.Machine.execConvert imm s
  | .readScratchpad imm => Sys2Proof.Machine.execReadScratchpad imm s
  | .crcInit imm => Sys2Proof.Machine.execCrcInit imm s
  | .crcByte imm => Sys2Proof.Machine.execCrcByte imm s
  | .decode imm => Sys2Proof.Machine.execDecode imm s
  | .waitConv imm => Sys2Proof.Machine.execWaitConv imm s
  | .measure imm => Sys2Proof.Machine.execMeasure imm s
  | .advance imm => Sys2Proof.Machine.execAdvance imm s
  | .cycle imm => Sys2Proof.Machine.execCycle imm s
  | .matchRom => Sys2Proof.Machine.execMatchRom s
  | .convertT => Sys2Proof.Machine.execConvertT s
  | .readScratchpadFn => Sys2Proof.Machine.execReadScratchpadFn s

end Sys2Proof.Machine
end

