-- ==== Sys2Proof/Machine/HostPort.lean ====
section
/-! DEFINITION. The host's side: offering, accepting and refusing a command word (30_encoding.md R81, R82), register
writes and reads (20_memory.md R63, R64, 70_reset_and_hazards.md R262), and `rst` (R250). -/

namespace Sys2Proof.Machine

/-! ### Command words -/

/-- The first micro-operation's slot is ready for the cycle after acceptance (70_reset_and_hazards.md R270). -/
def loadFirst (cfg : Config) (b : Body) (s : State) : State :=
  match b.ops with
  | [] => s
  | op :: _ => loadSlot cfg op s

/-- The latches and flags that acceptance writes (30_encoding.md R81). -/
def latchCommand (cfg : Config) (i : Instr) (s : State) : State :=
  { s with
    lop := opOf i
    limm := immOf i
    laddr := acceptLaddr cfg i s
    lslot := acceptLslot i s
    resValid := acceptResValid i s
    err := .ok
    busy := true
    uix := 0 }

/-- Acceptance of a command (30_encoding.md R81): the controller now runs its body. -/
def acceptCommand (cfg : Config) (i : Instr) (s : State) : State :=
  let s' := latchCommand cfg i s
  loadFirst cfg (bodyOf i s'.laddr) s'

/-- Refusal: ERR <- ILLEGAL_CMD and nothing else (30_encoding.md R82). -/
def refuseCommand (s : State) : State := { s with err := .illegalCmd }

/-- A word written to CMD, `seenBusy` being BUSY as the write sees it: busy before reserved bits (30_encoding.md R81,
60_exceptions.md R225). -/
def offerCommand (cfg : Config) (seenBusy : Bool) (w : Word) (s : State) : State :=
  if seenBusy then { s with ovr := true }
  else
    match decodeCmd w with
    | .error _ => refuseCommand s
    | .ok i => acceptCommand cfg i s

/-! ### Register accesses -/

/-- `MemWrite(a, 4, v)` (20_memory.md R63). -/
def hostWrite (cfg : Config) (seenBusy : Bool) (a : Nat) (v : Word) (s : State) : State :=
  match a with
  | 0x00 => offerCommand cfg seenBusy v s
  | 0x04 => if v.getLsbD 5 then { s with ovr := false } else s
  | 0x10 => { s with addr0 := v }
  | 0x14 => { s with addr1 := v }
  | _ => s

/-- What a read of the register at `a` returns, the unspecified bits taken from a draw while BUSY = 1
(20_memory.md R64, 70_reset_and_hazards.md R262). -/
def readValue (cfg : Config) (a : Nat) (s : State) : Word :=
  if s.busy then
    (regWord cfg a s &&& ~~~ busyFreeMask a) ||| (cfg.freeRead s.choice &&& busyFreeMask a)
  else regWord cfg a s

/-- The choices a read has made: one while BUSY = 1, "two reads may differ" (70_reset_and_hazards.md R262). -/
def readChoices (s : State) : Nat := if s.busy then 1 else 0

/-- `MemRead(a, 4)` of the state `s`, put into `s'`: it changes no register (20_memory.md R64). -/
def hostRead (cfg : Config) (a : Nat) (s s' : State) : State :=
  { s' with rdata := readValue cfg a s, choice := s'.choice + readChoices s }

/-- One access of the port, `s` being the state at its start, which a read returns and whose BUSY a CMD write sees,
and `s'` the state it acts on (20_memory.md R60, 60_exceptions.md R225 (c)). At the step level the two are one. -/
def hostAccess (cfg : Config) (x : Access) (s s' : State) : State :=
  match x with
  | .write _ a v => hostWrite cfg s.busy a v s'
  | .read _ a => hostRead cfg a s s'
  | .writeRead _ a v => hostWrite cfg s.busy a v (hostRead cfg a s s')

/-! ### Reset -/

/-- The state after a cycle with `rst = 1` (70_reset_and_hazards.md R250, R251, R253): every register and all hidden
state at its reset value, H empty. What is not OWTC's own stays: the devices' drive, the last word on `reg_rdata`,
the host's turns and the counter of free choices (log 6, log 11). -/
def resetState (s : State) : State :=
  { State.reset with
    devLow := s.devLow, rdata := s.rdata, choice := s.choice, agenda := s.agenda, turn := s.turn }

/-- A cycle with `rst = 1` and maybe an access, which has no effect; a read returns an unspecified value
(70_reset_and_hazards.md R250). -/
def resetCycle (cfg : Config) (x : Option Access) (s : State) : State :=
  match x with
  | none | some (.write _ _ _) => resetState s
  | some (.read _ _) | some (.writeRead _ _ _) =>
    { resetState s with rdata := cfg.freeRead s.choice, choice := s.choice + 1 }

end Sys2Proof.Machine
end

