-- ==== Sys2Proof/Machine/Rtl.lean ====
section
/-! DEFINITION. The RTL level: one clock cycle over the same state (70_reset_and_hazards.md R270, 10_state.md R42 to
R45, the RTL parts of 40_bus_primitives.md R100 to R105), and a host act of either level. -/

namespace Sys2Proof.Machine

/-- `dq_oe` as it leaves the block in a cycle: released in a reset cycle itself (10_state.md R43,
70_reset_and_hazards.md R250). -/
def dqOeOut (rst : Bool) (s : State) : Bool := !rst && s.dqOe

/-- The effects before a slot are made in its first cycle. -/
def atSlotStart (cfg : Config) (op : MicroOp) (s : State) : Bool :=
  s.sphase == (firstPhase cfg.timing op.slot).1 && s.tcnt == (firstPhase cfg.timing op.slot).2

/-- The sampling cycle: presence is a low line, a read bit is the line, both through `dq_sync[1]`
(40_bus_primitives.md R100, R102, 10_state.md R44). -/
def sampleLine (op : SlotOp) (s : State) : State :=
  match op with
  | .reset => samplePresence (!s.dqSync.getLsbD 1) s
  | .read => sampleBit (s.dqSync.getLsbD 1) s
  | .none | .write _ | .wait => s

/-- Count a cycle of a slot: go on in the phase, enter the next, or end the slot. A sampling cycle is one cycle; the
rest of its phase is `recover`. -/
def countCycle (cfg : Config) (b : Body) (op : MicroOp) (rest : List MicroOp) (s : State) : State :=
  if s.tcnt > 1 then
    { s with tcnt := s.tcnt - 1, sphase := if s.sphase = .sample then .recover else s.sphase }
  else
    match nextPhase cfg.timing op.slot s.sphase with
    | some (ph, n) => { s with sphase := ph, tcnt := n, dqOe := drives op.slot ph }
    | none => endMicroOp cfg b op rest s

/-- The controller's part of a clock cycle with a command in flight: a body with no slot ends in this cycle, a slot
counts (70_reset_and_hazards.md R270). -/
def controllerCycle (cfg : Config) (b : Body) (s : State) : State :=
  match opsLeft b s with
  | [] => completeCommand cfg b s
  | op :: rest =>
    let s1 := if atSlotStart cfg op s then (runEffects cfg op.pre s).1 else s
    if op.slot = .none then endMicroOp cfg b op rest s1
    else countCycle cfg b op rest (if s1.sphase = .sample then sampleLine op.slot s1 else s1)

/-- The synchroniser takes the line's level in this cycle; `dq_sync[1]` is two cycles behind (10_state.md R44). -/
def syncLine (devLow : Bool) (s s' : State) : State :=
  { s' with
    dqSync := s.dqSync.extractLsb' 0 1 ++ BitVec.ofBool ({ s with devLow := devLow } : State).line
    devLow := devLow }

/-- One clock cycle (20_memory.md R60, 60_exceptions.md R225 (c), (d), 70_reset_and_hazards.md R270): `rst` overrides
everything; otherwise the controller and the synchroniser advance, and the host's access sees the state at the start
of the cycle and writes at its end. -/
def clock (cfg : Config) (c : ClockIn) (s : State) : State :=
  if c.rst then { resetCycle cfg c.access s with devLow := c.devLow }
  else
    let s' := syncLine c.devLow s (if s.busy then controllerCycle cfg s.body s else s)
    match c.access with
    | none => s'
    | some x => hostAccess cfg x s s'

/-- Clock cycles in order. -/
def clocks (cfg : Config) (cs : List ClockIn) (s : State) : State := cs.foldl (fun s c => clock cfg c s) s

/-- A host turn's act, at either level (20_memory.md R69). -/
def doAct (cfg : Config) (x : Act) (s : State) : State :=
  match x with
  | .idle => s
  | .access x => hostAccess cfg x s s
  | .rst x => resetCycle cfg x s
  | .cycle c => clock cfg c s

end Sys2Proof.Machine
end

