-- ==== Sys2Proof/Machine/Step.lean ====
section
/-! DEFINITION. One step of the machine: the host's next turn, then the controller's steps in it (log 1). -/

namespace Sys2Proof.Machine

/-- The controller's part of a turn: the command in flight, named by its latches, runs; a bus byte standing in the
shift register with no command in flight is sent (log 3; no run from reset gets there); otherwise OWTC is quiescent
(60_exceptions.md R235). -/
def controllerTurn (s : State) : Host.Outcome State Fault Refusal :=
  if s.busy then exec s.current s
  else if s.slot = .write then
    match decodeBusByte s.shreg with
    | .ok i => exec i s
    | .error _ => .next (sendByteAlone Config.owtc s.shreg s)
  else .next s

/-- The access an act cannot express on the port, as its size and offset (20_memory.md R65). -/
def refuseAct (x : Act) : Refusal :=
  match x with
  | .access (.write n a _) | .access (.read n a) | .access (.writeRead n a _) => .accessNotExpressible n a
  | .rst (some (.write n a _)) | .rst (some (.read n a)) | .rst (some (.writeRead n a _)) =>
    .accessNotExpressible n a
  | .cycle { access := some (.write n a _), .. } | .cycle { access := some (.read n a), .. }
  | .cycle { access := some (.writeRead n a _), .. } => .accessNotExpressible n a
  | .idle | .rst none | .cycle { access := none, .. } => .accessNotExpressible 0 0

/-- One step: the host's next turn, if there is one, then the controller. With no turn left the host is silent and
the command in flight runs to its end. -/
def step (s : State) : Host.Outcome State Fault Refusal :=
  match s.agenda with
  | [] => controllerTurn { s with turn := none }
  | t :: rest =>
    if t.act.wellFormed then
      controllerTurn (doAct Config.owtc t.act { s with agenda := rest, turn := t.ctl })
    else .refused (refuseAct t.act)

/-- `s` with an instruction where the next step takes it from. A command word comes in the host's write to CMD
(20_memory.md R72), so the host's next turn writes it with no command in flight; a bus byte stands in the shift
register of the sequencer, about to be shifted out (10_state.md R42; log 2, log 3). -/
def State.withFetchWord (s : State) (nbits w : Nat) : State :=
  match tableCode nbits w with
  | .cmd v => { s with busy := false, agenda := ⟨.access (.write 4 0x00 v), none⟩ :: s.agenda }
  | .bus v =>
    { s with busy := false, slot := .write, bitcnt := 0, shreg := v, agenda := ⟨.idle, none⟩ :: s.agenda }

end Sys2Proof.Machine
end

