-- ==== Sys2Proof/Machine/HostProgram.lean ====
section
/-! DEFINITION. Host programs in the assembler syntax of 30_encoding.md R87, and the host turns they stand for. -/

namespace Sys2Proof.Machine

/-- A command mnemonic with its operand; SELECT's is `table` for TABLE and its absence for ADDR (R87). -/
inductive AsmCommand where
  | nop
  | reset
  | writeBit (b : Bool)
  | readBit
  | writeByte (v : Byte)
  | readByte
  | select (table : Bool)
  | convert
  | readScratchpad
  | crcInit (v : Byte)
  | crcByte (v : Byte)
  | decode
  | waitConv
  | measure
  | advance
  | cycle
deriving DecidableEq, Repr

/-- A 0 or 1 operand as an immediate. -/
def asmBit (b : Bool) : Byte := if b then 1 else 0

/-- The command a mnemonic stands for, omitted operands 0 (R87). -/
def AsmCommand.instr : AsmCommand → Instr
  | .nop => .nop 0
  | .reset => .reset 0
  | .writeBit b => .writeBit (asmBit b)
  | .readBit => .readBit 0
  | .writeByte v => .writeByte v
  | .readByte => .readByte 0
  | .select table => .select (asmBit table)
  | .convert => .convert 0
  | .readScratchpad => .readScratchpad 0
  | .crcInit v => .crcInit v
  | .crcByte v => .crcByte v
  | .decode => .decode 0
  | .waitConv => .waitConv 0
  | .measure => .measure 0
  | .advance => .advance 0
  | .cycle => .cycle 0

/-- One line of a host program, pseudo-instructions included (R87). A POLL is written with how many of its reads find
BUSY = 1, each by the controller steps that follow it; its last read comes once the command in flight has ended
(log 22). `crc8` writes them for the POLL of its CRC_CLEAR and for the POLL of each byte. -/
inductive HostLine where
  | command (c : AsmCommand)
  | wr (offset : Nat) (v : Word)
  | rd (offset : Nat)
  | poll (gaps : List Nat)
  | commandPoll (c : AsmCommand) (gaps : List Nat)
  | loadAddr (a : Addr)
  | crcClear
  | crc8 (clearGaps : List Nat) (bytes : List (Byte × List Nat))
deriving DecidableEq, Repr

/-- A host turn that makes one access. -/
def accessTurn (x : Access) (ctl : Option Nat) : Turn := { act := .access x, ctl := ctl }

/-- `MemWrite(0x00, 4, w)` of a command's encoding (R83, R87). -/
def commandTurn (c : AsmCommand) (ctl : Option Nat) : List Turn :=
  match encode c.instr with
  | .cmd w => [accessTurn (.write 4 0x00 w) ctl]
  | .bus _ => []

/-- `POLL`: reads of STATUS until one returns BUSY = 0. -/
def pollTurns (gaps : List Nat) (ctl : Option Nat) : List Turn :=
  gaps.map (fun n => accessTurn (.read 4 0x04) (some n))
    ++ [{ act := .idle, ctl := none }, accessTurn (.read 4 0x04) ctl]

/-- `X!`: the command, `ctl` controller steps, then POLL. -/
def commandPollTurns (c : AsmCommand) (gaps : List Nat) (ctl : Option Nat) : List Turn :=
  commandTurn c ctl ++ pollTurns gaps ctl

/-- The host turns of a line, each followed by at most `ctl` controller steps. -/
def HostLine.turns (ctl : Option Nat) : HostLine → List Turn
  | .command c => commandTurn c ctl
  | .wr offset v => [accessTurn (.write 4 offset v) ctl]
  | .rd offset => [accessTurn (.read 4 offset) ctl]
  | .poll gaps => pollTurns gaps ctl
  | .commandPoll c gaps => commandPollTurns c gaps ctl
  | .loadAddr a =>
    [accessTurn (.write 4 0x10 (a.extractLsb' 0 32)) ctl, accessTurn (.write 4 0x14 (a.extractLsb' 32 32)) ctl]
  | .crcClear => commandTurn (.crcInit 0x00) ctl
  | .crc8 clearGaps bytes =>
    commandPollTurns (.crcInit 0x00) clearGaps ctl
      ++ bytes.flatMap fun v => commandPollTurns (.crcByte v.1) v.2 ctl

/-- A host program as host turns. -/
def hostTurns (ctl : Option Nat) (lines : List HostLine) : List Turn := lines.flatMap (HostLine.turns ctl)

end Sys2Proof.Machine
end

