-- ==== Sys2Proof/Machine/Pseudocode.lean ====
section
/-! DEFINITION. The command bodies a second time, as whole commands in the spec's own pseudocode: no micro-operations,
no sequencer registers, no host turn inside. `exec` is the model; these are what statements compare it with. -/

namespace Sys2Proof.Machine.Pseudo

/-- `BusReset() -> Bool` (40_bus_primitives.md R100, model level). -/
def busReset (cfg : Config) (s : State) : Bool × State :=
  let p := cfg.presence s.hist s.choice
  (p, { s with hist := s.hist ++ [.reset p], presence := p, choice := s.choice + 1 })

/-- `BusWriteBit(b)` (R101). -/
def busWriteBit (b : Bool) (s : State) : State := { s with hist := s.hist ++ [.write b] }

/-- `BusReadBit() -> Bit` (R102, model level). -/
def busReadBit (cfg : Config) (s : State) : Bool × State :=
  let b := cfg.readBit s.hist s.choice
  (b, { s with hist := s.hist ++ [.read b], choice := s.choice + 1 })

/-- `BusWriteByte(v)` (R103). -/
def busWriteByte (v : Byte) (s : State) : State :=
  bitOrder.foldl (fun s i => busWriteBit (v.getLsbD i) s) s

/-- `v[i] <- b`, for a bit that is still 0 (R104 starts from `v <- 0`). -/
def setBit (v : Byte) (i : Nat) (b : Bool) : Byte := v ||| ((BitVec.ofBool b).setWidth 8 <<< i)

/-- `BusReadByte() -> Byte` (R104). -/
def busReadByte (cfg : Config) (s : State) : Byte × State :=
  bitOrder.foldl
    (fun r i => (setBit r.1 i (busReadBit cfg r.2).1, (busReadBit cfg r.2).2)) ((0 : Byte), s)

/-- `Wait(T_CONV)` (R105). -/
def busWait (cfg : Config) (s : State) : State := { s with hist := s.hist ++ [.wait cfg.timing.tConv] }

/-- `SendMatch(a)` (41_rom_function.md R130). -/
def sendMatch (a : Addr) (s : State) : State :=
  addrOrder.foldl (fun s k => busWriteByte (addrByte a k) s) (busWriteByte 0x55 s)

/-- `SCRATCH[k] <- BusReadByte()` (R135). -/
def readScratchByte (cfg : Config) (k : Fin 9) (s : State) : State :=
  { (busReadByte cfg s).2 with scratch := (busReadByte cfg s).2.scratch.set k (busReadByte cfg s).1 }

/-- `ScratchRead()` (R135). -/
def scratchRead (cfg : Config) (s : State) : State × Option Err :=
  checkScratch
    (([0, 1, 2, 3, 4, 5, 6, 7, 8] : List (Fin 9)).foldl (fun s k => readScratchByte cfg k s) (busWriteByte 0xBE s))

/-- `MeasureBody()` (44_scheduler.md R194). -/
def measureTransaction (cfg : Config) (s : State) : State × Option Err :=
  match busReset cfg { s with measSlot := s.lslot } with
  | (false, s1) => (s1, some .busAbsent)
  | (true, s1) =>
    match busReset cfg (busWait cfg (busWriteByte 0x44 (sendMatch s1.laddr s1))) with
    | (false, s2) => (s2, some .busAbsent)
    | (true, s2) =>
      match scratchRead cfg (sendMatch s2.laddr s2) with
      | (s3, some e) => (s3, some e)
      | (s3, none) => decodeScratch s3

/-- The pseudocode of each command: the state its effects leave and the code it fails with. -/
def commandBody (cfg : Config) (i : Instr) (s : State) : State × Option Err :=
  match i with
  | .nop _ => (s, none)
  | .reset _ =>
    match busReset cfg s with
    | (false, s1) => (s1, some .busAbsent)
    | (true, s1) => (s1, none)
  | .writeBit imm => (busWriteBit (immBit imm) s, none)
  | .readBit _ => ({ (busReadBit cfg s).2 with rxbit := (busReadBit cfg s).1 }, none)
  | .writeByte imm => (busWriteByte imm s, none)
  | .readByte _ => ({ (busReadByte cfg s).2 with rxbyte := (busReadByte cfg s).1 }, none)
  | .select _ => (sendMatch s.laddr s, none)
  | .convert _ => (busWriteByte 0x44 s, none)
  | .readScratchpad _ => scratchRead cfg s
  | .crcInit imm => ({ s with crc := imm }, none)
  | .crcByte imm => ({ s with crc := crc8Step s.crc imm }, none)
  | .decode _ => decodeScratch s
  | .waitConv _ => (busWait cfg s, none)
  | .measure _ => measureTransaction cfg s
  | .advance _ => ({ s with cursor := nextSlot cfg s.cursor }, none)
  | .cycle _ =>
    ({ (measureTransaction cfg s).1 with cursor := nextSlot cfg (measureTransaction cfg s).1.lslot }, (measureTransaction cfg s).2)
  | .matchRom => (busWriteByte 0x55 s, none)
  | .convertT => (busWriteByte 0x44 s, none)
  | .readScratchpadFn => (busWriteByte 0xBE s, none)

/-- A whole command from its acceptance on: its body, then ERR if it failed, then BUSY <- 0 (60_exceptions.md
R222). -/
def runCommand (cfg : Config) (i : Instr) (s : State) : State :=
  match commandBody cfg i s with
  | (s', none) => goIdle s'
  | (s', some e) => goIdle { s' with err := e }

end Sys2Proof.Machine.Pseudo
end

