-- ==== Sys2Proof/Safety.lean ====
section
/-! DEFINITION. The terms statements are made in: when a command has just been accepted and the host is silent, the
bus events a byte makes, what the bus answers, a slot in clock cycles, and the invariant of safe runs. -/

namespace Sys2Proof.Machine

/-- A command has been accepted (30_encoding.md R81), its first slot has not been sampled, and the controller's turn
is not limited: the host is silent until the command ends. -/
def Started (s : State) : Prop :=
  s.busy = true ∧ s.uix = 0 ∧ s.turn = none ∧ s.sphase ≠ .recover

/-- The eight write events of a byte, bit 0 first (40_bus_primitives.md R103). -/
def writeEvents (v : Byte) : List BusEvent := bitOrder.map fun i => .write (v.getLsbD i)

/-- The eight read events that carry a byte, bit 0 first (40_bus_primitives.md R104). -/
def readEvents (v : Byte) : List BusEvent := bitOrder.map fun i => .read (v.getLsbD i)

/-- The 72 write events of `SendMatch(a)` (41_rom_function.md R130). -/
def sendMatchEvents (a : Addr) : List BusEvent :=
  writeEvents 0x55 ++ addrOrder.flatMap fun k => writeEvents (addrByte a k)

/-- Bit `j` of a scratchpad in the order its 72 bits are read (41_rom_function.md R135). -/
def scratchBit (sp : Vector Byte 9) (j : Nat) : Bool := (sp.toList.getD (j / 8) 0).getLsbD (j % 8)

/-- The 72 read events that carry a scratchpad, byte 0 first (41_rom_function.md R135). -/
def scratchEvents (sp : Vector Byte 9) : List BusEvent := sp.toList.flatMap readEvents

/-- A byte is what eight read slots return from the history `h` and the choice `c` on: bit `i` is the bus
environment's answer to the history the first `i` reads have left (40_bus_primitives.md R102, R104). -/
def ByteAnswers (cfg : Config) (h : List BusEvent) (c : Nat) (v : Byte) : Prop :=
  ∀ i, i < 8 → v.getLsbD i = cfg.readBit (h ++ (readEvents v).take i) (c + i)

/-- A scratchpad is what 72 read slots return (41_rom_function.md R135). -/
def ScratchAnswers (cfg : Config) (h : List BusEvent) (c : Nat) (sp : Vector Byte 9) : Prop :=
  ∀ j, j < 72 → scratchBit sp j = cfg.readBit (h ++ (scratchEvents sp).take j) (c + j)

/-- A command word, not a bus byte (30_encoding.md R83, R86). -/
def isCommand : Instr → Bool
  | .matchRom | .convertT | .readScratchpadFn => false
  | .nop _ | .reset _ | .writeBit _ | .readBit _ | .writeByte _ | .readByte _ | .select _ | .convert _
  | .readScratchpad _ | .crcInit _ | .crcByte _ | .decode _ | .waitConv _ | .measure _ | .advance _
  | .cycle _ => true

/-- How many events of each kind a history holds: reset, write and read slots, and waits
(70_reset_and_hazards.md R271). -/
def slotCounts (h : List BusEvent) : Nat × Nat × Nat × Nat :=
  (h.countP (fun e => match e with | .reset _ => true | _ => false),
    h.countP (fun e => match e with | .write _ => true | _ => false),
    h.countP (fun e => match e with | .read _ => true | _ => false),
    h.countP (fun e => match e with | .wait _ => true | _ => false))

/-- The size and offset of the host access an act makes, if it makes one (20_memory.md R65). -/
def actPort : Act → Option (Nat × Nat)
  | .access (.write n a _) | .access (.read n a) | .access (.writeRead n a _) => some (n, a)
  | .rst (some (.write n a _)) | .rst (some (.read n a)) | .rst (some (.writeRead n a _)) => some (n, a)
  | .cycle ⟨_, _, some (.write n a _)⟩ | .cycle ⟨_, _, some (.read n a)⟩
  | .cycle ⟨_, _, some (.writeRead n a _)⟩ => some (n, a)
  | .idle | .rst none | .cycle ⟨_, _, none⟩ => none

/-! ### Slots in clock cycles -/

/-- The cycles a slot drives the line low, from its first (40_bus_primitives.md R100 to R102, R105). -/
def slotLow (t : Timing) : SlotOp → Nat
  | .none | .wait => 0
  | .reset => t.tRstl
  | .write b => if b then t.tW1l else t.tW0l
  | .read => t.tRl

/-- The length of a slot in cycles (70_reset_and_hazards.md R270). -/
def slotLength (t : Timing) : SlotOp → Nat
  | .none => 0
  | .reset => t.tRstl + t.tMsp + t.tRstr
  | .write b => if b then t.tW1l + t.tW1h else t.tW0l + t.tW0h
  | .read => t.tRl + t.tMsr + t.tRh
  | .wait => t.tConv

/-- The level of the line in cycle `j` of a slot, from the devices' drive in each cycle (10_state.md R45). -/
def lineAt (t : Timing) (op : SlotOp) (cs : List ClockIn) (j : Nat) : Bool :=
  !decide (j < slotLow t op) && !(cs.getD j {}).devLow

/-- What a slot's sample does: it sees the line two cycles before the sampling cycle (70_reset_and_hazards.md R267,
40_bus_primitives.md R100, R102). -/
def sampled (t : Timing) (op : SlotOp) (cs : List ClockIn) (s : State) : State :=
  match op with
  | .reset => samplePresence (!lineAt t op cs (t.tRstl + t.tMsp - 2)) s
  | .read => sampleBit (lineAt t op cs (t.tRl + t.tMsr - 2)) s
  | .none | .write _ | .wait => s

/-- The sequencer stands at the first cycle of a slot (10_state.md R42, R43). -/
def SlotLoaded (t : Timing) (op : SlotOp) (s : State) : Prop :=
  s.sphase = (firstPhase t op).1 ∧ s.tcnt = (firstPhase t op).2 ∧ s.dqOe = decide (0 < slotLow t op)

/-- A clock cycle with no `rst` and no host access. -/
def Quiet (c : ClockIn) : Prop := c.rst = false ∧ c.access = none

/-! ### The invariant -/

/-- TEMP and RES hold the decoded value of some scratchpad whose checksum validated (10_state.md R27). -/
def TempIsValidated (s : State) : Prop :=
  ∃ sp : Vector Byte 9, scratchOk sp = true ∧ decodeTemp sp = (s.tempQ4, s.res)

/-- With no command in flight the sequencer is at rest (10_state.md R41 to R43, 60_exceptions.md R235). -/
def IdleAtRest (s : State) : Prop :=
  s.busy = false → s.slot = .none ∧ s.uix = 0 ∧ s.tcnt = 0 ∧ s.mstep = 0 ∧ s.dqOe = false

/-- With a command in flight the position is inside its body, and the slot is the one standing there
(10_state.md R41, R42). -/
def BusyInBody (s : State) : Prop :=
  s.busy = true → ∃ op, s.body.ops[s.uix]? = some op ∧ s.slot = op.slot.kind

/-- The invariant of safe runs: the cursor and the two slot registers name a slot (44_scheduler.md R193 (a)), BUSY
agrees with the sequencer, `bytecnt` is at most 8 (10_state.md R42), a measurement's latched slot is the cursor
(44_scheduler.md R196), and RES_VALID vouches for TEMP (10_state.md R27). -/
structure Inv (cfg : Config) (s : State) : Prop where
  cursor_lt : s.cursor.toNat < cfg.nSensors
  lslot_lt : s.lslot.toNat < cfg.nSensors
  measSlot_lt : s.measSlot.toNat < cfg.nSensors
  idle : IdleAtRest s
  inBody : BusyInBody s
  bytecnt_le : s.bytecnt.toNat ≤ 8
  lslot_cursor : s.busy = true → (s.lop = 0xD ∨ s.lop = 0xF) → s.lslot = s.cursor
  temp : s.resValid = true → TempIsValidated s

end Sys2Proof.Machine
end

