-- ==== Sys2Proof/Certificates/Slice0/Obligations.lean ====
section
/-! DEFINITION. The statements for the provers. Those about `exec` are about the opaque `Config.owtc`, so they hold
for every configuration and every answer of the bus environment. A statement that takes `Started s` is about a command
from its acceptance (`uix` 0) with the host silent to its end; `TurnSplittingChangesNothing` and
`EveryCommandEnds` carry the rest. `goIdle s` is `s` with BUSY, `uix` and the sequencer at rest. -/

section Slice0
open Sys2Proof Sys2Proof.Machine

/-! ### Encoding -/

/-- Every instruction survives encoding and decoding with every operand value (30_encoding.md R83, R84, R86). -/
def Obligations.DecodeOfEncodeIsIdentity : Prop :=
  ∀ i : Instr, i.wellFormed = true → decode (encode i) = .ok i

/-- The codes that decode are the words with zero reserved bits and the three bus bytes, and each is the one code of
its instruction (30_encoding.md R80, R82, R85, R86). -/
def Obligations.DecodableCodesAreTheWellFormedOnes : Prop :=
  ∀ c : Code, (c.wellFormed = true ↔ ∃ i, decode c = .ok i) ∧ ∀ i, decode c = .ok i → encode i = c

/-- The match and mask columns of the opcode map, with IMM taken from bits [15:8] (30_encoding.md R80, R83). -/
def Obligations.MatchAndMaskSelectTheCommand : Prop :=
  ∀ w : Word,
    (w &&& 0xFFFF00FF = 0x00000000 → decodeCmd w = .ok (.nop (w.extractLsb' 8 8))) ∧
    (w &&& 0xFFFF00FF = 0x00000001 → decodeCmd w = .ok (.reset (w.extractLsb' 8 8))) ∧
    (w &&& 0xFFFF00FF = 0x00000002 → decodeCmd w = .ok (.writeBit (w.extractLsb' 8 8))) ∧
    (w &&& 0xFFFF00FF = 0x00000003 → decodeCmd w = .ok (.readBit (w.extractLsb' 8 8))) ∧
    (w &&& 0xFFFF00FF = 0x00000004 → decodeCmd w = .ok (.writeByte (w.extractLsb' 8 8))) ∧
    (w &&& 0xFFFF00FF = 0x00000005 → decodeCmd w = .ok (.readByte (w.extractLsb' 8 8))) ∧
    (w &&& 0xFFFF00FF = 0x00000006 → decodeCmd w = .ok (.select (w.extractLsb' 8 8))) ∧
    (w &&& 0xFFFF00FF = 0x00000007 → decodeCmd w = .ok (.convert (w.extractLsb' 8 8))) ∧
    (w &&& 0xFFFF00FF = 0x00000008 → decodeCmd w = .ok (.readScratchpad (w.extractLsb' 8 8))) ∧
    (w &&& 0xFFFF00FF = 0x00000009 → decodeCmd w = .ok (.crcInit (w.extractLsb' 8 8))) ∧
    (w &&& 0xFFFF00FF = 0x0000000A → decodeCmd w = .ok (.crcByte (w.extractLsb' 8 8))) ∧
    (w &&& 0xFFFF00FF = 0x0000000B → decodeCmd w = .ok (.decode (w.extractLsb' 8 8))) ∧
    (w &&& 0xFFFF00FF = 0x0000000C → decodeCmd w = .ok (.waitConv (w.extractLsb' 8 8))) ∧
    (w &&& 0xFFFF00FF = 0x0000000D → decodeCmd w = .ok (.measure (w.extractLsb' 8 8))) ∧
    (w &&& 0xFFFF00FF = 0x0000000E → decodeCmd w = .ok (.advance (w.extractLsb' 8 8))) ∧
    (w &&& 0xFFFF00FF = 0x0000000F → decodeCmd w = .ok (.cycle (w.extractLsb' 8 8)))

/-- Words of the spec's examples (30_encoding.md R83, R86; 95_test_vectors.md E1 to E8) and what they stand for. -/
def Obligations.SpecWordsDecode : Prop :=
  decode (.cmd 0x00000001) = .ok (.reset 0) ∧
  decode (.cmd 0x00000106) = .ok (.select 1) ∧
  decode (.cmd 0x0000FF02) = .ok (.writeBit 0xFF) ∧
  decode (.cmd 0x0000AB00) = .ok (.nop 0xAB) ∧
  decode (.cmd 0x00004404) = .ok (.writeByte 0x44) ∧
  decode (.cmd 0x00005A09) = .ok (.crcInit 0x5A) ∧
  decode (.cmd 0x0000000B) = .ok (.decode 0) ∧
  decode (.cmd 0x0000000F) = .ok (.cycle 0) ∧
  decode (.cmd 0x00000010) = .error .rsv0 ∧
  decode (.cmd 0x00010001) = .error .rsv1 ∧
  decode (.cmd 0x80000000) = .error .rsv1 ∧
  decode (.bus 0x55) = .ok .matchRom ∧
  decode (.bus 0x44) = .ok .convertT ∧
  decode (.bus 0xBE) = .ok .readScratchpadFn ∧
  decode (.bus 0x33) = .error .noBusCommand

/-! ### A step -/

/-- A step runs the decoded instruction: a command word written to CMD with no command in flight is accepted and run
(20_memory.md R72, 30_encoding.md R81); a bus byte in the shift register is sent (the model's own convention, log 2
and log 3). -/
def Obligations.StepRunsTheDecodedInstruction : Prop :=
  (∀ (s : State) (w : Word) (i : Instr), decode (.cmd w) = .ok i →
    step (s.withFetchWord 32 w.toNat) =
      exec i (acceptCommand Config.owtc i { s with busy := false, turn := none })) ∧
  (∀ (s : State) (v : Byte) (i : Instr), decode (.bus v) = .ok i →
    step (s.withFetchWord 8 v.toNat) =
      exec i { s with busy := false, slot := .write, bitcnt := 0, shreg := v, turn := none })

/-- A step is the host's next act, then the controller's part (20_memory.md R69; log 1): the command in flight runs,
named by its latches, and with none in flight OWTC is quiescent (60_exceptions.md R235). -/
def Obligations.StepIsAHostActThenTheController : Prop :=
  ∀ s u : State,
    (s.agenda = [] → u = { s with turn := none }) →
    (∀ t rest, s.agenda = t :: rest →
      t.act.wellFormed = true ∧ u = doAct Config.owtc t.act { s with agenda := rest, turn := t.ctl }) →
    (u.busy = true → step s = exec (instrOf u.lop u.limm) u) ∧
    (u.busy = false → u.slot ≠ .write → step s = .next u)

/-- A step stops only on a host access the port cannot express, and then by name (20_memory.md R65, 60_exceptions.md
R223, R235). That the refusal covers an access in a reset turn or a clock cycle too is the model's choice (log
12), and so is the step as one host turn, which answers a next state in every other case (log 1). -/
def Obligations.StepStopsOnlyOnInexpressibleAccesses : Prop :=
  ∀ s : State,
    (∀ t rest n a, s.agenda = t :: rest → actPort t.act = some (n, a) → ¬ (n = 4 ∧ a % 4 = 0 ∧ a < 0x100) →
      step s = .refused (.accessNotExpressible n a)) ∧
    ((∀ t rest n a, s.agenda = t :: rest → actPort t.act = some (n, a) → n = 4 ∧ a % 4 = 0 ∧ a < 0x100) →
      ∃ s', step s = .next s')

/-! ### The host's port -/

/-- What a word written to CMD does, in its three arms, and that an accepted command runs to its end
(30_encoding.md R81). -/
def Obligations.AcceptanceLatchesTheCommand : Prop :=
  ∀ (s t : State) (w : Word), t = hostAccess Config.owtc (.write 4 0x00 w) s s →
    if s.busy = true then t = { s with ovr := true }
    else if w.extractLsb' 4 4 ≠ 0 ∨ w.extractLsb' 16 16 ≠ 0 then t = { s with err := .illegalCmd }
    else
      t = { s with
        busy := true
        lop := w.extractLsb' 0 4
        limm := w.extractLsb' 8 8
        err := .ok
        laddr :=
          if w.extractLsb' 0 4 = 0x6 then
            if w.getLsbD 8 = false then s.addr1 ++ s.addr0 else Config.owtc.sensorTable s.cursor
          else if w.extractLsb' 0 4 = 0xD ∨ w.extractLsb' 0 4 = 0xF then Config.owtc.sensorTable s.cursor
          else s.laddr
        lslot := if w.extractLsb' 0 4 = 0xD ∨ w.extractLsb' 0 4 = 0xF then s.cursor else s.lslot
        resValid :=
          if w.extractLsb' 0 4 = 0xB ∨ w.extractLsb' 0 4 = 0xD ∨ w.extractLsb' 0 4 = 0xF then false
          else s.resValid
        uix := 0
        slot := t.slot
        sphase := t.sphase
        tcnt := t.tcnt
        bitcnt := t.bitcnt
        bytecnt := t.bytecnt
        shreg := t.shreg
        mstep := t.mstep
        dqOe := t.dqOe } ∧
      (s.turn = none → ∃ u, exec t.current t = .next u ∧ u.busy = false)

/-- A refused word sets ERR and nothing else, every OP is a command, and a bad word while busy is dropped
(30_encoding.md R82). -/
def Obligations.RefusalSetsOnlyErr : Prop :=
  (∀ (s : State) (w : Word), s.busy = false → (w.extractLsb' 4 4 ≠ 0 ∨ w.extractLsb' 16 16 ≠ 0) →
    hostAccess Config.owtc (.write 4 0x00 w) s s = { s with err := .illegalCmd }) ∧
  (∀ (op : BitVec 4) (imm : Byte), ∃ i, decodeCmd (encodeCmd op imm) = .ok i) ∧
  (∀ (s : State) (w : Word), s.busy = true → (w.extractLsb' 4 4 ≠ 0 ∨ w.extractLsb' 16 16 ≠ 0) →
    hostAccess Config.owtc (.write 4 0x00 w) s s = { s with ovr := true })

/-- The host's writes, register by register (20_memory.md R63). -/
def Obligations.HostWriteTable : Prop :=
  ∀ (s : State) (v : Word),
    hostAccess Config.owtc (.write 4 0x00 v) s s = offerCommand Config.owtc s.busy v s ∧
    hostAccess Config.owtc (.write 4 0x04 v) s s =
      { s with ovr := if v.getLsbD 5 then false else s.ovr } ∧
    hostAccess Config.owtc (.write 4 0x10 v) s s = { s with addr0 := v } ∧
    hostAccess Config.owtc (.write 4 0x14 v) s s = { s with addr1 := v } ∧
    ∀ a, a ≠ 0x00 → a ≠ 0x04 → a ≠ 0x10 → a ≠ 0x14 → hostAccess Config.owtc (.write 4 a v) s s = s

/-- A read returns the register and changes no register; `rdata` is the port's own output (20_memory.md R60, R64). -/
def Obligations.HostReadReturnsTheRegister : Prop :=
  ∀ (s t : State) (a : Nat), t = hostAccess Config.owtc (.read 4 a) s s →
    t = { s with rdata := t.rdata, choice := t.choice } ∧
    (s.busy = false → t.rdata = regWord Config.owtc a s ∧ t.choice = s.choice)

/-- The fields of every register at their bits, RES0 bits and offsets with no register reading 0 (10_state.md R21,
R22, R30 to R36, 20_memory.md R61). -/
def Obligations.RegisterLayouts : Prop :=
  ∀ (s : State) (st rx crc sc2 tmp sch : Word),
    st = regWord Config.owtc 0x04 s → rx = regWord Config.owtc 0x08 s → crc = regWord Config.owtc 0x0C s →
    sc2 = regWord Config.owtc 0x20 s → tmp = regWord Config.owtc 0x24 s → sch = regWord Config.owtc 0x28 s →
    (st.getLsbD 0 = s.busy ∧ st.getLsbD 1 = s.presence ∧ st.getLsbD 2 = s.rxbit ∧ st.getLsbD 3 = s.crcOk ∧
      st.getLsbD 4 = s.resValid ∧ st.getLsbD 5 = s.ovr ∧ st.extractLsb' 6 2 = 0 ∧ st.extractLsb' 11 21 = 0) ∧
    (match s.err with
      | .ok => st.extractLsb' 8 3 = 0
      | .busAbsent => st.extractLsb' 8 3 = 1
      | .crcMismatch => st.extractLsb' 8 3 = 2
      | .illegalCmd => st.extractLsb' 8 3 = 3) ∧
    (rx.extractLsb' 0 8 = s.rxbyte ∧ rx.extractLsb' 8 24 = 0) ∧
    (crc.extractLsb' 0 8 = s.crc ∧ crc.extractLsb' 8 24 = 0) ∧
    regWord Config.owtc 0x10 s = s.addr0 ∧ regWord Config.owtc 0x14 s = s.addr1 ∧
    (∀ k : Fin 9,
      (regWord Config.owtc (0x18 + 4 * (k.val / 4)) s).extractLsb' (8 * (k.val % 4)) 8 = s.scratch[k]) ∧
    sc2.extractLsb' 8 24 = 0 ∧
    (tmp.extractLsb' 0 16 = s.tempQ4 ∧ tmp.extractLsb' 16 2 = s.res ∧ tmp.extractLsb' 18 14 = 0) ∧
    (sch.extractLsb' 0 8 = s.cursor ∧ sch.extractLsb' 8 8 = s.measSlot ∧
      (sch.extractLsb' 16 9).toNat = Config.owtc.nSensors ∧ sch.extractLsb' 25 7 = 0) ∧
    (∀ a, a = 0x00 ∨ 0x2C ≤ a → regWord Config.owtc a s = 0)

/-- While BUSY = 1 a read is exact outside the fields of R262 and a fresh free draw in them (20_memory.md R64,
70_reset_and_hazards.md R262; the draw is the model's, log 5). -/
def Obligations.BusyReadsDrawOnlyTheUnspecifiedFields : Prop :=
  ∀ (s t : State) (a : Nat) (v d : Word), s.busy = true → t = hostAccess Config.owtc (.read 4 a) s s →
    v = t.rdata → d = Config.owtc.freeRead s.choice →
    t.choice = s.choice + 1 ∧
    (a = 0x04 → v.getLsbD 0 = true ∧ v.getLsbD 5 = s.ovr ∧ v.extractLsb' 6 2 = 0 ∧ v.extractLsb' 11 21 = 0 ∧
      v.extractLsb' 1 4 = d.extractLsb' 1 4 ∧ v.extractLsb' 8 3 = d.extractLsb' 8 3) ∧
    (a = 0x08 ∨ a = 0x0C ∨ a = 0x20 → v.extractLsb' 8 24 = 0 ∧ v.extractLsb' 0 8 = d.extractLsb' 0 8) ∧
    (a = 0x10 → v = s.addr0) ∧ (a = 0x14 → v = s.addr1) ∧
    (a = 0x18 ∨ a = 0x1C → v = d) ∧
    (a = 0x24 → v.extractLsb' 18 14 = 0 ∧ v.extractLsb' 0 18 = d.extractLsb' 0 18) ∧
    (a = 0x28 → (v.extractLsb' 16 9).toNat = Config.owtc.nSensors ∧ v.extractLsb' 25 7 = 0 ∧
      v.extractLsb' 0 16 = d.extractLsb' 0 16) ∧
    (a = 0x00 ∨ 0x2C ≤ a → v = 0)

/-- With `reg_wr` and `reg_rd` both 1 the write is performed and the value read is the one before it
(20_memory.md R60). -/
def Obligations.WriteAndReadTogether : Prop :=
  ∀ (s t : State) (a : Nat) (v : Word), t = hostAccess Config.owtc (.writeRead 4 a v) s s →
    t.rdata = (hostAccess Config.owtc (.read 4 a) s s).rdata ∧
    t = { hostAccess Config.owtc (.write 4 a v) s s with rdata := t.rdata, choice := t.choice }

/-- No host access but a command word offered to an idle OWTC touches the controller: the command in flight, its
latches and the bus history stay, and a quiescent OWTC stays quiescent (10_state.md R40, 20_memory.md R72,
60_exceptions.md R235). -/
def Obligations.HostAccessesLeaveTheController : Prop :=
  ∀ (s t : State) (x : Access),
    (s.busy = true ∨ ∀ n v, x ≠ .write n 0x00 v ∧ x ≠ .writeRead n 0x00 v) →
    t = hostAccess Config.owtc x s s →
    t = { s with ovr := t.ovr, addr0 := t.addr0, addr1 := t.addr1, rdata := t.rdata, choice := t.choice }

/-! ### Results and completion of the commands -/

/-- NOP changes no register but BUSY (40_bus_primitives.md R106). The model's choice: what the sequencer holds at rest
(log 24). -/
def Obligations.NopOnlyEnds : Prop :=
  ∀ (s : State) (imm : Byte), Started s → exec (.nop imm) s = .next (goIdle s)

/-- RESET: one reset slot, PRESENCE from its answer, BUS_ABSENT on no presence (40_bus_primitives.md R100, R107). The
model's choice: what the sequencer holds at rest (log 24). -/
def Obligations.ResetReportsPresence : Prop :=
  ∀ (s : State) (imm : Byte) (p : Bool), Started s → p = Config.owtc.presence s.hist s.choice →
    exec (.reset imm) s = .next (goIdle { s with
      presence := p
      err := if p then s.err else .busAbsent
      hist := s.hist ++ [.reset p]
      choice := s.choice + 1 })

/-- WRITE_BIT: one write slot of IMM[0] (40_bus_primitives.md R101, R108; the shift register as in 10_state.md R42).
The model's choice: what a write slot shifts into the shift register (log 23) and what the sequencer holds at rest
(log 24). -/
def Obligations.WriteBitSendsTheLowBit : Prop :=
  ∀ (s : State) (imm : Byte), Started s →
    exec (.writeBit imm) s = .next (goIdle { s with
      hist := s.hist ++ [.write (imm.getLsbD 0)]
      shreg := s.shreg >>> 1 })

/-- READ_BIT: one read slot, its bit in RXBIT (40_bus_primitives.md R102, R110, 10_state.md R42). The model's choice:
what the sequencer holds at rest (log 24). -/
def Obligations.ReadBitReturnsTheSlotsBit : Prop :=
  ∀ (s : State) (imm : Byte) (b : Bool), Started s → b = Config.owtc.readBit s.hist s.choice →
    exec (.readBit imm) s = .next (goIdle { s with
      rxbit := b
      hist := s.hist ++ [.read b]
      choice := s.choice + 1
      shreg := BitVec.ofBool b ++ s.shreg.extractLsb' 1 7 })

/-- WRITE_BYTE: eight write slots, bit 0 first, and nothing read (40_bus_primitives.md R103, R111). The model's
choice: what a write slot shifts into the shift register (log 23) and what the sequencer holds at rest (log 24). -/
def Obligations.WriteByteSendsEightBits : Prop :=
  ∀ (s : State) (imm : Byte), Started s →
    exec (.writeByte imm) s = .next (goIdle { s with
      hist := s.hist ++ [.write (imm.getLsbD 0), .write (imm.getLsbD 1), .write (imm.getLsbD 2),
        .write (imm.getLsbD 3), .write (imm.getLsbD 4), .write (imm.getLsbD 5), .write (imm.getLsbD 6),
        .write (imm.getLsbD 7)]
      shreg := 0 })

/-- READ_BYTE: eight read slots, the first bit read being bit 0 of RXBYTE (40_bus_primitives.md R104, R112). The
model's choice: what the sequencer holds at rest (log 24). -/
def Obligations.ReadByteAssemblesEightBits : Prop :=
  ∀ (s : State) (imm : Byte), Started s →
    ∃ v, ByteAnswers Config.owtc s.hist s.choice v ∧
      exec (.readByte imm) s = .next (goIdle { s with
        rxbyte := v
        hist := s.hist ++ readEvents v
        choice := s.choice + 8
        shreg := v })

/-- SELECT: MATCH ROM and the eight bytes of the latched address, byte 0 first (41_rom_function.md R130, R131). The
model's choice: what a write slot shifts into the shift register (log 23) and what the sequencer holds at rest
(log 24). -/
def Obligations.SelectSendsTheLatchedAddress : Prop :=
  ∀ (s : State) (imm : Byte), Started s →
    exec (.select imm) s = .next (goIdle { s with
      hist := s.hist ++ writeEvents 0x55
        ++ writeEvents (s.laddr.extractLsb' 0 8) ++ writeEvents (s.laddr.extractLsb' 8 8)
        ++ writeEvents (s.laddr.extractLsb' 16 8) ++ writeEvents (s.laddr.extractLsb' 24 8)
        ++ writeEvents (s.laddr.extractLsb' 32 8) ++ writeEvents (s.laddr.extractLsb' 40 8)
        ++ writeEvents (s.laddr.extractLsb' 48 8) ++ writeEvents (s.laddr.extractLsb' 56 8)
      shreg := 0 })

/-- CONVERT sends 0x44 and nothing more (41_rom_function.md R132). The model's choice: what a write slot shifts into
the shift register (log 23) and what the sequencer holds at rest (log 24). -/
def Obligations.ConvertSendsItsByte : Prop :=
  ∀ (s : State) (imm : Byte), Started s →
    exec (.convert imm) s = .next (goIdle { s with
      hist := s.hist ++ [.write false, .write false, .write true, .write false, .write false, .write false,
        .write true, .write false]
      shreg := 0 })

/-- WAIT_CONV records one wait of T_CONV cycles and changes no register but BUSY (41_rom_function.md R133,
40_bus_primitives.md R105). The model's choice: what the sequencer holds at rest (log 24). -/
def Obligations.WaitConvOnlyWaits : Prop :=
  ∀ (s : State) (imm : Byte), Started s →
    exec (.waitConv imm) s = .next (goIdle { s with
      hist := s.hist ++ [.wait Config.owtc.timing.tConv] })

/-- READ_SCRATCHPAD: 0xBE, nine bytes, and the check; the bytes stay in SCRATCH either way, and TEMP, RES and
RES_VALID are not touched (41_rom_function.md R134, R135). The model's choice: what the sequencer holds at rest
(log 24). -/
def Obligations.ReadScratchpadReadsAndChecks : Prop :=
  ∀ (s : State) (imm : Byte), Started s →
    ∃ sp, ScratchAnswers Config.owtc (s.hist ++ writeEvents 0xBE) s.choice sp ∧
      exec (.readScratchpad imm) s = .next (goIdle { s with
        scratch := sp
        crc := crc8 (sp.toList.take 8)
        crcOk := decide (crc8 (sp.toList.take 8) = sp[8])
        err := if crc8 (sp.toList.take 8) = sp[8] then s.err else .crcMismatch
        hist := s.hist ++ writeEvents 0xBE ++ scratchEvents sp
        choice := s.choice + 72
        shreg := sp[8] })

/-- CRC_INIT writes CRC and nothing else (42_crc.md R152). The model's choice: what the sequencer holds at rest (log
24). -/
def Obligations.CrcInitSetsTheAccumulator : Prop :=
  ∀ (s : State) (imm : Byte), Started s → exec (.crcInit imm) s = .next (goIdle { s with crc := imm })

/-- CRC_BYTE folds IMM into CRC and writes nothing else (42_crc.md R150, R153). The model's choice: what the sequencer
holds at rest (log 24). -/
def Obligations.CrcByteFoldsOneByte : Prop :=
  ∀ (s : State) (imm : Byte), Started s →
    exec (.crcByte imm) s = .next (goIdle { s with crc := crc8Step s.crc imm })

/-- DECODE: the check first; TEMP, RES and RES_VALID only if it passes, and never the CRC register
(43_decode.md R171, R172). The model's choice: what the sequencer holds at rest (log 24). -/
def Obligations.DecodeWritesTempOnlyWhenTheCheckPasses : Prop :=
  ∀ (s : State) (imm : Byte), Started s →
    exec (.decode imm) s = .next (goIdle
      (if crc8 (s.scratch.toList.take 8) = s.scratch[8] then
        { s with
          crcOk := true
          tempQ4 := (decodeTemp s.scratch).1
          res := (decodeTemp s.scratch).2
          resValid := true }
      else { s with crcOk := false, err := .crcMismatch }))

/-- ADVANCE moves the cursor to the next slot and writes nothing else (44_scheduler.md R191, R192). The model's
choice: what the sequencer holds at rest (log 24). -/
def Obligations.AdvanceMovesOnlyTheCursor : Prop :=
  ∀ (s : State) (imm : Byte), Started s →
    exec (.advance imm) s = .next (goIdle { s with
      cursor := BitVec.ofNat 8 ((s.cursor.toNat + 1) % Config.owtc.nSensors) })

/-- MEASURE and CYCLE in full: the first reset absent, the second absent, or the scratchpad read and checked. CYCLE is
MEASURE with the cursor moved on from the latched slot in every case (44_scheduler.md R194, R196, 60_exceptions.md
R222, R225). The model's choice: what a write slot shifts into the shift register (log 23) and what the sequencer
holds at rest (log 24). -/
def Obligations.MeasureAndCycleOutcomes : Prop :=
  ∀ (s : State) (i : Instr) (cur : BitVec 8) (h1 h2 : List BusEvent), Started s →
    ((∃ imm, i = .measure imm) ∧ cur = s.cursor ∨
      (∃ imm, i = .cycle imm) ∧ cur = nextSlot Config.owtc s.lslot) →
    h1 = s.hist ++ [.reset true] ++ sendMatchEvents s.laddr ++ writeEvents 0x44
      ++ [.wait Config.owtc.timing.tConv] →
    h2 = h1 ++ [.reset true] ++ sendMatchEvents s.laddr ++ writeEvents 0xBE →
    ∃ t, exec i s = .next t ∧
      if Config.owtc.presence s.hist s.choice = false then
        t = goIdle { s with
          measSlot := s.lslot
          presence := false
          err := .busAbsent
          cursor := cur
          hist := s.hist ++ [.reset false]
          choice := s.choice + 1 }
      else if Config.owtc.presence h1 (s.choice + 1) = false then
        t = goIdle { s with
          measSlot := s.lslot
          presence := false
          err := .busAbsent
          cursor := cur
          hist := h1 ++ [.reset false]
          choice := s.choice + 2
          shreg := 0 }
      else
        ∃ sp, ScratchAnswers Config.owtc h2 (s.choice + 2) sp ∧
          t = goIdle { s with
            measSlot := s.lslot
            presence := true
            err := if scratchOk sp then s.err else .crcMismatch
            cursor := cur
            hist := h2 ++ scratchEvents sp
            choice := s.choice + 74
            shreg := sp[8]
            scratch := sp
            crc := crc8 (sp.toList.take 8)
            crcOk := scratchOk sp
            tempQ4 := if scratchOk sp then (decodeTemp sp).1 else s.tempQ4
            res := if scratchOk sp then (decodeTemp sp).2 else s.res
            resValid := if scratchOk sp then true else s.resValid }

/-- The three bus bytes, bit 0 first, in the spec's own bit sequences (30_encoding.md R86, 40_bus_primitives.md R103).
That a row of its own is the byte sent by itself is the model's choice (log 3). The model's choice: what a write
slot shifts into the shift register (log 23) and what the sequencer holds at rest (log 24). -/
def Obligations.BusBytesAreSentLowBitFirst : Prop :=
  ∀ s : State,
    exec .matchRom s = .next (sequencerRest { s with
      hist := s.hist ++ [.write true, .write false, .write true, .write false, .write true, .write false,
        .write true, .write false]
      shreg := 0 }) ∧
    exec .convertT s = .next (sequencerRest { s with
      hist := s.hist ++ [.write false, .write false, .write true, .write false, .write false, .write false,
        .write true, .write false]
      shreg := 0 }) ∧
    exec .readScratchpadFn s = .next (sequencerRest { s with
      hist := s.hist ++ [.write false, .write true, .write true, .write true, .write true, .write true,
        .write false, .write true]
      shreg := 0 })

/-! ### The commands together -/

/-- Every command, run from its acceptance, is its pseudocode of the spec followed by its completion; the shift
register is the sequencer's own (40_bus_primitives.md to 44_scheduler.md, 60_exceptions.md R222). The model's choice:
what the sequencer holds at rest (log 24). -/
def Obligations.EveryCommandRunsItsPseudocode : Prop :=
  ∀ (i : Instr) (s : State), isCommand i = true → Started s →
    ∃ t, exec i s = .next t ∧ t = { Pseudo.runCommand Config.owtc i s with shreg := t.shreg }

/-- A command in flight, wherever it stands, ends, and the controller is then at rest; with none in flight nothing
happens (60_exceptions.md R222, R235, 10_state.md R41 to R43). The model's choice: what the position and the
counters hold at rest (log 24, log 9), and the last clause (log 20). -/
def Obligations.EveryCommandEnds : Prop :=
  ∀ (i : Instr) (s : State), isCommand i = true →
    (s.busy = true → s.turn = none →
      ∃ t, exec i s = .next t ∧ t.busy = false ∧ t.uix = 0 ∧ t.slot = .none ∧ t.tcnt = 0 ∧ t.bitcnt = 0 ∧
        t.bytecnt = 0 ∧ t.mstep = 0 ∧ t.dqOe = false) ∧
    (s.busy = false → exec i s = .next s)

/-- The interleaving of host and controller steps is free because the controller's work may be cut anywhere between
slots: `m` controller steps and then `k` more are `m + k` (20_memory.md R69, 40_bus_primitives.md R109; turns are
log 1). -/
def Obligations.TurnSplittingChangesNothing : Prop :=
  ∀ (i : Instr) (s : State) (m : Nat) (k : Option Nat), isCommand i = true →
    ∃ t1 t2 t, exec i { s with turn := some m } = .next t1 ∧ exec i { t1 with turn := k } = .next t2 ∧
      exec i { s with turn := k.map (m + ·) } = .next t ∧
      { t with turn := none } = { t2 with turn := none }

/-- Which command may write which register, from any position in its body (10_state.md R24 to R27, R30, R31, R33 to
R35, R37, R40): all else stays, the bus history only grows, CRC_OK is the check of SCRATCH, and TEMP changes only by a
validated decode. -/
def Obligations.WritersOfEachRegister : Prop :=
  ∀ (i : Instr) (s t : State), isCommand i = true → exec i s = .next t →
    (t.ovr = s.ovr ∧ t.addr0 = s.addr0 ∧ t.addr1 = s.addr1 ∧ t.lop = s.lop ∧ t.limm = s.limm ∧
      t.laddr = s.laddr ∧ t.lslot = s.lslot ∧ t.rdata = s.rdata ∧ t.dqSync = s.dqSync) ∧
    (match i with
      | .reset _ | .measure _ | .cycle _ => True
      | _ => t.presence = s.presence) ∧
    (match i with
      | .readBit _ => True
      | _ => t.rxbit = s.rxbit) ∧
    (match i with
      | .readByte _ => True
      | _ => t.rxbyte = s.rxbyte) ∧
    (match i with
      | .crcInit _ | .crcByte _ | .readScratchpad _ | .measure _ | .cycle _ => True
      | _ => t.crc = s.crc) ∧
    (match i with
      | .readScratchpad _ | .decode _ | .measure _ | .cycle _ =>
        t.crcOk = s.crcOk ∨ t.crcOk = decide (crc8 (t.scratch.toList.take 8) = t.scratch[8])
      | _ => t.crcOk = s.crcOk) ∧
    (match i with
      | .readScratchpad _ | .measure _ | .cycle _ => True
      | _ => t.scratch = s.scratch) ∧
    (match i with
      | .decode _ | .measure _ | .cycle _ =>
        t.tempQ4 = s.tempQ4 ∧ t.res = s.res ∧ t.resValid = s.resValid ∨
          t.resValid = true ∧ scratchOk t.scratch = true ∧ decodeTemp t.scratch = (t.tempQ4, t.res)
      | _ => t.tempQ4 = s.tempQ4 ∧ t.res = s.res ∧ t.resValid = s.resValid) ∧
    (match i with
      | .advance _ | .cycle _ => True
      | _ => t.cursor = s.cursor) ∧
    (match i with
      | .measure _ | .cycle _ => t.measSlot = s.measSlot ∨ t.measSlot = s.lslot
      | _ => t.measSlot = s.measSlot) ∧
    s.hist <+: t.hist

/-- Which command may end with which code: BUS_ABSENT only after a reset slot that found nobody, CRC_MISMATCH only on
a scratchpad that fails its check, and no command sets ILLEGAL_CMD (60_exceptions.md R220, R221). -/
def Obligations.ErrorCodesOfEachCommand : Prop :=
  ∀ (i : Instr) (s t : State), isCommand i = true → exec i s = .next t →
    t.err = s.err ∨
    (match i with
      | .reset _ | .measure _ | .cycle _ => t.err = .busAbsent ∧ t.presence = false
      | _ => False) ∨
    (match i with
      | .readScratchpad _ | .decode _ | .measure _ | .cycle _ =>
        t.err = .crcMismatch ∧ t.crcOk = false ∧ crc8 (t.scratch.toList.take 8) ≠ t.scratch[8]
      | _ => False)

/-- The bus slots of each command that ends without error (70_reset_and_hazards.md R271), as numbers of reset, write
and read slots and waits. That a bus byte is an instruction of its own, sent by itself in eight write slots, is the
model's choice and not in R271 (log 3). -/
def Obligations.SlotCountsOfEachCommand : Prop :=
  ∀ (i : Instr) (s : State), Started s → s.err = .ok →
    ∃ t ev, exec i s = .next t ∧ t.hist = s.hist ++ ev ∧
      (t.err = .ok → slotCounts ev =
        match i with
        | .nop _ | .crcInit _ | .crcByte _ | .decode _ | .advance _ => (0, 0, 0, 0)
        | .reset _ => (1, 0, 0, 0)
        | .writeBit _ => (0, 1, 0, 0)
        | .readBit _ => (0, 0, 1, 0)
        | .writeByte _ | .convert _ | .matchRom | .convertT | .readScratchpadFn => (0, 8, 0, 0)
        | .readByte _ => (0, 0, 8, 0)
        | .select _ => (0, 72, 0, 0)
        | .waitConv _ => (0, 0, 0, 1)
        | .readScratchpad _ => (0, 8, 72, 0)
        | .measure _ | .cycle _ => (2, 160, 72, 1))

/-- CYCLE moves the cursor on whatever happens, and MEASURE never does, from any position in the body
(44_scheduler.md R194, R196). -/
def Obligations.CycleAlwaysAdvances : Prop :=
  ∀ (s : State) (imm : Byte), s.busy = true → s.turn = none →
    (∃ t, exec (.cycle imm) s = .next t ∧
      t.cursor = BitVec.ofNat 8 ((s.lslot.toNat + 1) % Config.owtc.nSensors)) ∧
    (∃ t, exec (.measure imm) s = .next t ∧ t.cursor = s.cursor)

/-- A line held low: MEASURE ends without error on nine zero bytes (70_reset_and_hazards.md R265). -/
def Obligations.LineHeldLowGoesUndetected : Prop :=
  ∀ (cfg : Config) (s t : State), Started s → s.err = .ok →
    (∀ h c, cfg.presence h c = true) → (∀ h c, cfg.readBit h c = false) →
    t = runBody cfg (measureBody s.laddr) s →
    t.busy = false ∧ t.err = .ok ∧ t.scratch = Vector.replicate 9 0x00 ∧ t.crc = 0x00 ∧ t.crcOk = true ∧
      t.resValid = true ∧ t.tempQ4 = 0x0000 ∧ t.res = 0

/-- Presence but no match: MEASURE reads nine 0xFF bytes and ends with CRC_MISMATCH (70_reset_and_hazards.md R266). -/
def Obligations.UnmatchedDeviceIsACrcMismatch : Prop :=
  ∀ (cfg : Config) (s t : State), Started s → s.resValid = false →
    (∀ h c, cfg.presence h c = true) → (∀ h c, cfg.readBit h c = true) →
    t = runBody cfg (measureBody s.laddr) s →
    t.busy = false ∧ t.err = .crcMismatch ∧ t.scratch = Vector.replicate 9 0xFF ∧ t.crc = 0xC9 ∧
      t.crcOk = false ∧ t.resValid = false ∧ t.tempQ4 = s.tempQ4 ∧ t.res = s.res

/-! ### CRC, decoder, scheduler -/

/-- The checksum's laws (42_crc.md R154 (a) to (d)). -/
def Obligations.CrcLaws : Prop :=
  (∀ c v : Byte, crc8Step c v = crc8Step (c ^^^ v) 0x00) ∧
  (∀ c : Byte, crc8Step c c = 0x00) ∧
  (∀ b : List Byte, crc8 (b ++ [crc8 b]) = 0x00) ∧
  (∀ n : Nat, crc8 (List.replicate n 0x00) = 0x00) ∧
  crc8 (List.replicate 8 0xFF) = 0xC9

/-- A change within one byte changes the checksum (42_crc.md R154 (e)). -/
def Obligations.CrcDetectsOneTamperedByte : Prop :=
  ∀ (b : List Byte) (k : Nat) (v : Byte), k < b.length → b[k]? ≠ some v → crc8 (b.set k v) ≠ crc8 b

/-- Worked values of the checksum (95_test_vectors.md C2 to C8). -/
def Obligations.CrcVectors : Prop :=
  crc8Step 0x00 0x01 = 0x5E ∧ crc8Step 0x00 0x80 = 0x8C ∧ crc8Step 0x00 0xFF = 0x35 ∧
  crc8Step 0xFF 0x00 = 0x35 ∧ crc8Step 0x5E 0x01 = 0x9A ∧ crc8Step 0x12 0x34 = 0xFE

/-- The decoder bit by bit: the resolution code from byte 4 bits [6:5], and the raw value of bytes 1 and 0 with its
low `3 - r` bits cleared, in the four masks (43_decode.md R170). -/
def Obligations.DecoderBitByBit : Prop :=
  ∀ (sp : Vector Byte 9) (q : BitVec 16) (r : BitVec 2), decodeTemp sp = (q, r) →
    (r.getLsbD 0 = sp[4].getLsbD 5 ∧ r.getLsbD 1 = sp[4].getLsbD 6) ∧
    (∀ j, j < 16 → q.getLsbD j =
      (decide (3 - r.toNat ≤ j) && if j < 8 then sp[0].getLsbD j else sp[1].getLsbD (j - 8))) ∧
    (r = 0 → q = (sp[1] ++ sp[0]) &&& 0xFFF8) ∧ (r = 1 → q = (sp[1] ++ sp[0]) &&& 0xFFFC) ∧
    (r = 2 → q = (sp[1] ++ sp[0]) &&& 0xFFFE) ∧ (r = 3 → q = (sp[1] ++ sp[0]) &&& 0xFFFF)

/-- Masking is a floor in two's complement; it keeps the sign, and an aligned value (43_decode.md R173). -/
def Obligations.MaskingIsAFloor : Prop :=
  ∀ (raw q : BitVec 16) (r : BitVec 2) (k : Nat), k = 3 - r.toNat → q = maskRaw raw r →
    q.toInt = 2 ^ k * (raw.toInt / 2 ^ k) ∧ q.toInt ≤ raw.toInt ∧ q.msb = raw.msb ∧
      ((2 ^ k : Int) ∣ raw.toInt → q = raw)

/-- `next` on integers, with its two extreme sizes (44_scheduler.md R191). -/
def Obligations.NextSlotArithmetic : Prop :=
  ∀ (cfg : Config) (c : BitVec 8),
    (nextSlot cfg c).toNat = (c.toNat + 1) % cfg.nSensors ∧
    (cfg.nSensors = 256 → (nextSlot cfg c).toNat = (c.toNat + 1) % 256) ∧
    (cfg.nSensors = 1 → nextSlot cfg c = 0)

/-- Round robin: N advances visit every slot exactly once and return to the start (44_scheduler.md R193 (b)). -/
def Obligations.RoundRobinVisitsEverySlotOnce : Prop :=
  ∀ (cfg : Config) (c : BitVec 8), c.toNat < cfg.nSensors →
    (nextSlot cfg)^[cfg.nSensors] c = c ∧
    ∀ d : BitVec 8, d.toNat < cfg.nSensors → ∃! k, k < cfg.nSensors ∧ (nextSlot cfg)^[k] c = d

/-! ### Reset and the invariant -/

/-- A cycle with `rst` = 1 gives every register field its reset value, the hidden state its own, the history is empty,
the line is released in that cycle itself, and an access in it has no effect (70_reset_and_hazards.md R250, R251). -/
def Obligations.RstGivesResetValues : Prop :=
  ∀ (s t : State) (x : Option Access), t = doAct Config.owtc (.rst x) s →
    (t.busy = false ∧ t.presence = false ∧ t.rxbit = false ∧ t.crcOk = false ∧ t.resValid = false ∧
      t.ovr = false ∧ t.err = .ok ∧ t.rxbyte = 0x00 ∧ t.crc = 0x00 ∧ t.addr0 = 0x00000000 ∧
      t.addr1 = 0x00000000 ∧ t.scratch = Vector.replicate 9 0x00 ∧ t.tempQ4 = 0x0000 ∧ t.res = 0b00 ∧
      t.cursor = 0 ∧ t.measSlot = 0) ∧
    (∀ a, a ≠ 0x28 → regWord Config.owtc a t = 0) ∧
    regWord Config.owtc 0x28 t = BitVec.ofNat 32 Config.owtc.nSensors <<< 16 ∧
    (t.lop = 0 ∧ t.limm = 0 ∧ t.laddr = 0 ∧ t.lslot = 0 ∧ t.slot = .none ∧ t.mstep = 0 ∧ t.tcnt = 0 ∧
      t.bitcnt = 0 ∧ t.bytecnt = 0 ∧ t.shreg = 0 ∧ t.dqOe = false ∧ t.dqSync = 0b11 ∧ t.hist = []) ∧
    dqOeOut true s = false ∧
    t = { doAct Config.owtc (.rst none) s with rdata := t.rdata, choice := t.choice } ∧
    ∀ d, doAct Config.owtc (.cycle ⟨true, d, x⟩) s = { t with devLow := d }

/-- The invariant of safe runs holds at reset: the cursor and the slot registers name a slot, BUSY agrees with the
sequencer, and RES_VALID vouches for TEMP (44_scheduler.md R193 (a), 10_state.md R27, R41 to R43). What the
position and the counters hold at rest is the model's choice (log 10, log 24). -/
def Obligations.InvHoldsAtReset : Prop := Inv Config.owtc State.reset

/-- Every step keeps the invariant, in every state that meets it, whatever the host does next
(44_scheduler.md R193 (a), R196, 10_state.md R27, R35, R41 to R43, 60_exceptions.md R235). What the position and the
counters hold at rest is the model's choice (log 24). -/
def Obligations.EveryStepKeepsInv : Prop :=
  ∀ s s' : State, Inv Config.owtc s → step s = .next s' → Inv Config.owtc s'

/-! ### Clock cycles -/

/-- A slot in clock cycles: the line is driven low in exactly its low time, the slot lasts exactly its length, and it
ends in the controller step of the step level with the answer the synchronised line gives (40_bus_primitives.md
R100 to R102, R105, R109, 10_state.md R44, R45, 70_reset_and_hazards.md R267, R270). That the history takes its
event in the slot's last cycle is the model's inference (log 16). The model's choice: that a write slot shifts the
shift register at the end of its last cycle, and a 0 in (log 23), and the values of `sphase` and `tcnt` at the slot's
start (log 9). -/
def Obligations.ClockedSlotIsOneControllerStep : Prop :=
  ∀ (s : State) (op : MicroOp) (rest : List MicroOp) (cs : List ClockIn),
    s.busy = true → opsLeft s.body s = op :: rest → op.slot ≠ .none →
    SlotLoaded Config.owtc.timing op.slot s →
    (∀ c ∈ cs, Quiet c) → cs.length = slotLength Config.owtc.timing op.slot →
    (∀ j, j < cs.length →
      (clocks Config.owtc (cs.take j) s).dqOe = decide (j < slotLow Config.owtc.timing op.slot) ∧
      (clocks Config.owtc (cs.take j) s).busy = true) ∧
    ∃ t, clocks Config.owtc cs s = t ∧
      t = { endMicroOp Config.owtc s.body op rest
              (sampled Config.owtc.timing op.slot cs (runEffects Config.owtc op.pre s).1) with
        dqSync := t.dqSync
        devLow := t.devLow }

/-- Commands with no time slot end in the cycle after the one that accepts them, with the result of the step level
(70_reset_and_hazards.md R270). -/
def Obligations.SlotlessCommandsTakeOneCycle : Prop :=
  ∀ (s s1 s2 : State) (w : Word) (i : Instr) (d1 d2 : Bool), s.busy = false → s.turn = none →
    decodeCmd w = .ok i → w.extractLsb' 0 4 ∈ ([0x0, 0x9, 0xA, 0xB, 0xE] : List (BitVec 4)) →
    s1 = clock Config.owtc ⟨false, d1, some (.write 4 0x00 w)⟩ s →
    s2 = clock Config.owtc ⟨false, d2, none⟩ s1 →
    s1.busy = true ∧ s2.busy = false ∧
      exec i s1 = .next { s2 with dqSync := s1.dqSync, devLow := s1.devLow }

/-- A CMD write in the cycle that completes a command, or in any other while BUSY = 1, sees BUSY as at the start of
the cycle: the word is dropped and OVR set (60_exceptions.md R225 (c)). -/
def Obligations.WriteInTheCompletionCycleIsDropped : Prop :=
  ∀ (s : State) (w : Word) (d : Bool), s.busy = true →
    clock Config.owtc ⟨false, d, some (.write 4 0x00 w)⟩ s =
      { clock Config.owtc ⟨false, d, none⟩ s with ovr := true }

end Slice0
end

