-- ==== Sys2Proof/Laws/State.lean ====
section
/-! SUPPORT. The fields of the named state updates, one lemma per field and update, so that no proof unfolds an
update. -/

namespace Sys2Proof.Machine

section
variable (s : State)
@[simp] theorem sequencerRest_busy : (sequencerRest s).busy = s.busy := rfl
@[simp] theorem sequencerRest_presence : (sequencerRest s).presence = s.presence := rfl
@[simp] theorem sequencerRest_rxbit : (sequencerRest s).rxbit = s.rxbit := rfl
@[simp] theorem sequencerRest_crcOk : (sequencerRest s).crcOk = s.crcOk := rfl
@[simp] theorem sequencerRest_resValid : (sequencerRest s).resValid = s.resValid := rfl
@[simp] theorem sequencerRest_ovr : (sequencerRest s).ovr = s.ovr := rfl
@[simp] theorem sequencerRest_err : (sequencerRest s).err = s.err := rfl
@[simp] theorem sequencerRest_rxbyte : (sequencerRest s).rxbyte = s.rxbyte := rfl
@[simp] theorem sequencerRest_crc : (sequencerRest s).crc = s.crc := rfl
@[simp] theorem sequencerRest_addr0 : (sequencerRest s).addr0 = s.addr0 := rfl
@[simp] theorem sequencerRest_addr1 : (sequencerRest s).addr1 = s.addr1 := rfl
@[simp] theorem sequencerRest_scratch : (sequencerRest s).scratch = s.scratch := rfl
@[simp] theorem sequencerRest_tempQ4 : (sequencerRest s).tempQ4 = s.tempQ4 := rfl
@[simp] theorem sequencerRest_res : (sequencerRest s).res = s.res := rfl
@[simp] theorem sequencerRest_cursor : (sequencerRest s).cursor = s.cursor := rfl
@[simp] theorem sequencerRest_measSlot : (sequencerRest s).measSlot = s.measSlot := rfl
@[simp] theorem sequencerRest_lop : (sequencerRest s).lop = s.lop := rfl
@[simp] theorem sequencerRest_limm : (sequencerRest s).limm = s.limm := rfl
@[simp] theorem sequencerRest_laddr : (sequencerRest s).laddr = s.laddr := rfl
@[simp] theorem sequencerRest_lslot : (sequencerRest s).lslot = s.lslot := rfl
@[simp] theorem sequencerRest_uix : (sequencerRest s).uix = s.uix := rfl
@[simp] theorem sequencerRest_slot : (sequencerRest s).slot = .none := rfl
@[simp] theorem sequencerRest_sphase : (sequencerRest s).sphase = .low := rfl
@[simp] theorem sequencerRest_tcnt : (sequencerRest s).tcnt = 0 := rfl
@[simp] theorem sequencerRest_bitcnt : (sequencerRest s).bitcnt = 0 := rfl
@[simp] theorem sequencerRest_bytecnt : (sequencerRest s).bytecnt = 0 := rfl
@[simp] theorem sequencerRest_shreg : (sequencerRest s).shreg = s.shreg := rfl
@[simp] theorem sequencerRest_mstep : (sequencerRest s).mstep = 0 := rfl
@[simp] theorem sequencerRest_dqOe : (sequencerRest s).dqOe = false := rfl
@[simp] theorem sequencerRest_dqSync : (sequencerRest s).dqSync = s.dqSync := rfl
@[simp] theorem sequencerRest_devLow : (sequencerRest s).devLow = s.devLow := rfl
@[simp] theorem sequencerRest_hist : (sequencerRest s).hist = s.hist := rfl
@[simp] theorem sequencerRest_rdata : (sequencerRest s).rdata = s.rdata := rfl
@[simp] theorem sequencerRest_choice : (sequencerRest s).choice = s.choice := rfl
@[simp] theorem sequencerRest_agenda : (sequencerRest s).agenda = s.agenda := rfl
@[simp] theorem sequencerRest_turn : (sequencerRest s).turn = s.turn := rfl
end

section
variable (s : State)
@[simp] theorem goIdle_busy : (goIdle s).busy = false := rfl
@[simp] theorem goIdle_presence : (goIdle s).presence = s.presence := rfl
@[simp] theorem goIdle_rxbit : (goIdle s).rxbit = s.rxbit := rfl
@[simp] theorem goIdle_crcOk : (goIdle s).crcOk = s.crcOk := rfl
@[simp] theorem goIdle_resValid : (goIdle s).resValid = s.resValid := rfl
@[simp] theorem goIdle_ovr : (goIdle s).ovr = s.ovr := rfl
@[simp] theorem goIdle_err : (goIdle s).err = s.err := rfl
@[simp] theorem goIdle_rxbyte : (goIdle s).rxbyte = s.rxbyte := rfl
@[simp] theorem goIdle_crc : (goIdle s).crc = s.crc := rfl
@[simp] theorem goIdle_addr0 : (goIdle s).addr0 = s.addr0 := rfl
@[simp] theorem goIdle_addr1 : (goIdle s).addr1 = s.addr1 := rfl
@[simp] theorem goIdle_scratch : (goIdle s).scratch = s.scratch := rfl
@[simp] theorem goIdle_tempQ4 : (goIdle s).tempQ4 = s.tempQ4 := rfl
@[simp] theorem goIdle_res : (goIdle s).res = s.res := rfl
@[simp] theorem goIdle_cursor : (goIdle s).cursor = s.cursor := rfl
@[simp] theorem goIdle_measSlot : (goIdle s).measSlot = s.measSlot := rfl
@[simp] theorem goIdle_lop : (goIdle s).lop = s.lop := rfl
@[simp] theorem goIdle_limm : (goIdle s).limm = s.limm := rfl
@[simp] theorem goIdle_laddr : (goIdle s).laddr = s.laddr := rfl
@[simp] theorem goIdle_lslot : (goIdle s).lslot = s.lslot := rfl
@[simp] theorem goIdle_uix : (goIdle s).uix = 0 := rfl
@[simp] theorem goIdle_slot : (goIdle s).slot = .none := rfl
@[simp] theorem goIdle_sphase : (goIdle s).sphase = .low := rfl
@[simp] theorem goIdle_tcnt : (goIdle s).tcnt = 0 := rfl
@[simp] theorem goIdle_bitcnt : (goIdle s).bitcnt = 0 := rfl
@[simp] theorem goIdle_bytecnt : (goIdle s).bytecnt = 0 := rfl
@[simp] theorem goIdle_shreg : (goIdle s).shreg = s.shreg := rfl
@[simp] theorem goIdle_mstep : (goIdle s).mstep = 0 := rfl
@[simp] theorem goIdle_dqOe : (goIdle s).dqOe = false := rfl
@[simp] theorem goIdle_dqSync : (goIdle s).dqSync = s.dqSync := rfl
@[simp] theorem goIdle_devLow : (goIdle s).devLow = s.devLow := rfl
@[simp] theorem goIdle_hist : (goIdle s).hist = s.hist := rfl
@[simp] theorem goIdle_rdata : (goIdle s).rdata = s.rdata := rfl
@[simp] theorem goIdle_choice : (goIdle s).choice = s.choice := rfl
@[simp] theorem goIdle_agenda : (goIdle s).agenda = s.agenda := rfl
@[simp] theorem goIdle_turn : (goIdle s).turn = s.turn := rfl
end

section
variable (cfg : Config) (op : MicroOp) (s : State)
@[simp] theorem loadSlot_busy : (loadSlot cfg op s).busy = s.busy := rfl
@[simp] theorem loadSlot_presence : (loadSlot cfg op s).presence = s.presence := rfl
@[simp] theorem loadSlot_rxbit : (loadSlot cfg op s).rxbit = s.rxbit := rfl
@[simp] theorem loadSlot_crcOk : (loadSlot cfg op s).crcOk = s.crcOk := rfl
@[simp] theorem loadSlot_resValid : (loadSlot cfg op s).resValid = s.resValid := rfl
@[simp] theorem loadSlot_ovr : (loadSlot cfg op s).ovr = s.ovr := rfl
@[simp] theorem loadSlot_err : (loadSlot cfg op s).err = s.err := rfl
@[simp] theorem loadSlot_rxbyte : (loadSlot cfg op s).rxbyte = s.rxbyte := rfl
@[simp] theorem loadSlot_crc : (loadSlot cfg op s).crc = s.crc := rfl
@[simp] theorem loadSlot_addr0 : (loadSlot cfg op s).addr0 = s.addr0 := rfl
@[simp] theorem loadSlot_addr1 : (loadSlot cfg op s).addr1 = s.addr1 := rfl
@[simp] theorem loadSlot_scratch : (loadSlot cfg op s).scratch = s.scratch := rfl
@[simp] theorem loadSlot_tempQ4 : (loadSlot cfg op s).tempQ4 = s.tempQ4 := rfl
@[simp] theorem loadSlot_res : (loadSlot cfg op s).res = s.res := rfl
@[simp] theorem loadSlot_cursor : (loadSlot cfg op s).cursor = s.cursor := rfl
@[simp] theorem loadSlot_measSlot : (loadSlot cfg op s).measSlot = s.measSlot := rfl
@[simp] theorem loadSlot_lop : (loadSlot cfg op s).lop = s.lop := rfl
@[simp] theorem loadSlot_limm : (loadSlot cfg op s).limm = s.limm := rfl
@[simp] theorem loadSlot_laddr : (loadSlot cfg op s).laddr = s.laddr := rfl
@[simp] theorem loadSlot_lslot : (loadSlot cfg op s).lslot = s.lslot := rfl
@[simp] theorem loadSlot_uix : (loadSlot cfg op s).uix = s.uix := rfl
@[simp] theorem loadSlot_slot : (loadSlot cfg op s).slot = op.slot.kind := rfl
@[simp] theorem loadSlot_sphase : (loadSlot cfg op s).sphase = (firstPhase cfg.timing op.slot).1 := rfl
@[simp] theorem loadSlot_tcnt : (loadSlot cfg op s).tcnt = (firstPhase cfg.timing op.slot).2 := rfl
@[simp] theorem loadSlot_bitcnt : (loadSlot cfg op s).bitcnt = op.bit := rfl
@[simp] theorem loadSlot_bytecnt : (loadSlot cfg op s).bytecnt = op.byte := rfl
@[simp] theorem loadSlot_shreg : (loadSlot cfg op s).shreg = op.load.getD s.shreg := rfl
@[simp] theorem loadSlot_mstep : (loadSlot cfg op s).mstep = op.mstep := rfl
@[simp] theorem loadSlot_dqOe : (loadSlot cfg op s).dqOe = drives op.slot (firstPhase cfg.timing op.slot).1 := rfl
@[simp] theorem loadSlot_dqSync : (loadSlot cfg op s).dqSync = s.dqSync := rfl
@[simp] theorem loadSlot_devLow : (loadSlot cfg op s).devLow = s.devLow := rfl
@[simp] theorem loadSlot_hist : (loadSlot cfg op s).hist = s.hist := rfl
@[simp] theorem loadSlot_rdata : (loadSlot cfg op s).rdata = s.rdata := rfl
@[simp] theorem loadSlot_choice : (loadSlot cfg op s).choice = s.choice := rfl
@[simp] theorem loadSlot_agenda : (loadSlot cfg op s).agenda = s.agenda := rfl
@[simp] theorem loadSlot_turn : (loadSlot cfg op s).turn = s.turn := rfl
end

section
variable (p : Bool) (s : State)
@[simp] theorem samplePresence_busy : (samplePresence p s).busy = s.busy := rfl
@[simp] theorem samplePresence_presence : (samplePresence p s).presence = p := rfl
@[simp] theorem samplePresence_rxbit : (samplePresence p s).rxbit = s.rxbit := rfl
@[simp] theorem samplePresence_crcOk : (samplePresence p s).crcOk = s.crcOk := rfl
@[simp] theorem samplePresence_resValid : (samplePresence p s).resValid = s.resValid := rfl
@[simp] theorem samplePresence_ovr : (samplePresence p s).ovr = s.ovr := rfl
@[simp] theorem samplePresence_err : (samplePresence p s).err = s.err := rfl
@[simp] theorem samplePresence_rxbyte : (samplePresence p s).rxbyte = s.rxbyte := rfl
@[simp] theorem samplePresence_crc : (samplePresence p s).crc = s.crc := rfl
@[simp] theorem samplePresence_addr0 : (samplePresence p s).addr0 = s.addr0 := rfl
@[simp] theorem samplePresence_addr1 : (samplePresence p s).addr1 = s.addr1 := rfl
@[simp] theorem samplePresence_scratch : (samplePresence p s).scratch = s.scratch := rfl
@[simp] theorem samplePresence_tempQ4 : (samplePresence p s).tempQ4 = s.tempQ4 := rfl
@[simp] theorem samplePresence_res : (samplePresence p s).res = s.res := rfl
@[simp] theorem samplePresence_cursor : (samplePresence p s).cursor = s.cursor := rfl
@[simp] theorem samplePresence_measSlot : (samplePresence p s).measSlot = s.measSlot := rfl
@[simp] theorem samplePresence_lop : (samplePresence p s).lop = s.lop := rfl
@[simp] theorem samplePresence_limm : (samplePresence p s).limm = s.limm := rfl
@[simp] theorem samplePresence_laddr : (samplePresence p s).laddr = s.laddr := rfl
@[simp] theorem samplePresence_lslot : (samplePresence p s).lslot = s.lslot := rfl
@[simp] theorem samplePresence_uix : (samplePresence p s).uix = s.uix := rfl
@[simp] theorem samplePresence_slot : (samplePresence p s).slot = s.slot := rfl
@[simp] theorem samplePresence_sphase : (samplePresence p s).sphase = s.sphase := rfl
@[simp] theorem samplePresence_tcnt : (samplePresence p s).tcnt = s.tcnt := rfl
@[simp] theorem samplePresence_bitcnt : (samplePresence p s).bitcnt = s.bitcnt := rfl
@[simp] theorem samplePresence_bytecnt : (samplePresence p s).bytecnt = s.bytecnt := rfl
@[simp] theorem samplePresence_shreg : (samplePresence p s).shreg = s.shreg := rfl
@[simp] theorem samplePresence_mstep : (samplePresence p s).mstep = s.mstep := rfl
@[simp] theorem samplePresence_dqOe : (samplePresence p s).dqOe = s.dqOe := rfl
@[simp] theorem samplePresence_dqSync : (samplePresence p s).dqSync = s.dqSync := rfl
@[simp] theorem samplePresence_devLow : (samplePresence p s).devLow = s.devLow := rfl
@[simp] theorem samplePresence_hist : (samplePresence p s).hist = s.hist := rfl
@[simp] theorem samplePresence_rdata : (samplePresence p s).rdata = s.rdata := rfl
@[simp] theorem samplePresence_choice : (samplePresence p s).choice = s.choice := rfl
@[simp] theorem samplePresence_agenda : (samplePresence p s).agenda = s.agenda := rfl
@[simp] theorem samplePresence_turn : (samplePresence p s).turn = s.turn := rfl
end

section
variable (b : Bool) (s : State)
@[simp] theorem sampleBit_busy : (sampleBit b s).busy = s.busy := rfl
@[simp] theorem sampleBit_presence : (sampleBit b s).presence = s.presence := rfl
@[simp] theorem sampleBit_rxbit : (sampleBit b s).rxbit = s.rxbit := rfl
@[simp] theorem sampleBit_crcOk : (sampleBit b s).crcOk = s.crcOk := rfl
@[simp] theorem sampleBit_resValid : (sampleBit b s).resValid = s.resValid := rfl
@[simp] theorem sampleBit_ovr : (sampleBit b s).ovr = s.ovr := rfl
@[simp] theorem sampleBit_err : (sampleBit b s).err = s.err := rfl
@[simp] theorem sampleBit_rxbyte : (sampleBit b s).rxbyte = s.rxbyte := rfl
@[simp] theorem sampleBit_crc : (sampleBit b s).crc = s.crc := rfl
@[simp] theorem sampleBit_addr0 : (sampleBit b s).addr0 = s.addr0 := rfl
@[simp] theorem sampleBit_addr1 : (sampleBit b s).addr1 = s.addr1 := rfl
@[simp] theorem sampleBit_scratch : (sampleBit b s).scratch = s.scratch := rfl
@[simp] theorem sampleBit_tempQ4 : (sampleBit b s).tempQ4 = s.tempQ4 := rfl
@[simp] theorem sampleBit_res : (sampleBit b s).res = s.res := rfl
@[simp] theorem sampleBit_cursor : (sampleBit b s).cursor = s.cursor := rfl
@[simp] theorem sampleBit_measSlot : (sampleBit b s).measSlot = s.measSlot := rfl
@[simp] theorem sampleBit_lop : (sampleBit b s).lop = s.lop := rfl
@[simp] theorem sampleBit_limm : (sampleBit b s).limm = s.limm := rfl
@[simp] theorem sampleBit_laddr : (sampleBit b s).laddr = s.laddr := rfl
@[simp] theorem sampleBit_lslot : (sampleBit b s).lslot = s.lslot := rfl
@[simp] theorem sampleBit_uix : (sampleBit b s).uix = s.uix := rfl
@[simp] theorem sampleBit_slot : (sampleBit b s).slot = s.slot := rfl
@[simp] theorem sampleBit_sphase : (sampleBit b s).sphase = s.sphase := rfl
@[simp] theorem sampleBit_tcnt : (sampleBit b s).tcnt = s.tcnt := rfl
@[simp] theorem sampleBit_bitcnt : (sampleBit b s).bitcnt = s.bitcnt := rfl
@[simp] theorem sampleBit_bytecnt : (sampleBit b s).bytecnt = s.bytecnt := rfl
@[simp] theorem sampleBit_shreg : (sampleBit b s).shreg = pushBit b s.shreg := rfl
@[simp] theorem sampleBit_mstep : (sampleBit b s).mstep = s.mstep := rfl
@[simp] theorem sampleBit_dqOe : (sampleBit b s).dqOe = s.dqOe := rfl
@[simp] theorem sampleBit_dqSync : (sampleBit b s).dqSync = s.dqSync := rfl
@[simp] theorem sampleBit_devLow : (sampleBit b s).devLow = s.devLow := rfl
@[simp] theorem sampleBit_hist : (sampleBit b s).hist = s.hist := rfl
@[simp] theorem sampleBit_rdata : (sampleBit b s).rdata = s.rdata := rfl
@[simp] theorem sampleBit_choice : (sampleBit b s).choice = s.choice := rfl
@[simp] theorem sampleBit_agenda : (sampleBit b s).agenda = s.agenda := rfl
@[simp] theorem sampleBit_turn : (sampleBit b s).turn = s.turn := rfl
end

section
variable (cfg : Config) (i : Instr) (s : State)
@[simp] theorem latchCommand_busy : (latchCommand cfg i s).busy = true := rfl
@[simp] theorem latchCommand_presence : (latchCommand cfg i s).presence = s.presence := rfl
@[simp] theorem latchCommand_rxbit : (latchCommand cfg i s).rxbit = s.rxbit := rfl
@[simp] theorem latchCommand_crcOk : (latchCommand cfg i s).crcOk = s.crcOk := rfl
@[simp] theorem latchCommand_resValid : (latchCommand cfg i s).resValid = acceptResValid i s := rfl
@[simp] theorem latchCommand_ovr : (latchCommand cfg i s).ovr = s.ovr := rfl
@[simp] theorem latchCommand_err : (latchCommand cfg i s).err = .ok := rfl
@[simp] theorem latchCommand_rxbyte : (latchCommand cfg i s).rxbyte = s.rxbyte := rfl
@[simp] theorem latchCommand_crc : (latchCommand cfg i s).crc = s.crc := rfl
@[simp] theorem latchCommand_addr0 : (latchCommand cfg i s).addr0 = s.addr0 := rfl
@[simp] theorem latchCommand_addr1 : (latchCommand cfg i s).addr1 = s.addr1 := rfl
@[simp] theorem latchCommand_scratch : (latchCommand cfg i s).scratch = s.scratch := rfl
@[simp] theorem latchCommand_tempQ4 : (latchCommand cfg i s).tempQ4 = s.tempQ4 := rfl
@[simp] theorem latchCommand_res : (latchCommand cfg i s).res = s.res := rfl
@[simp] theorem latchCommand_cursor : (latchCommand cfg i s).cursor = s.cursor := rfl
@[simp] theorem latchCommand_measSlot : (latchCommand cfg i s).measSlot = s.measSlot := rfl
@[simp] theorem latchCommand_lop : (latchCommand cfg i s).lop = opOf i := rfl
@[simp] theorem latchCommand_limm : (latchCommand cfg i s).limm = immOf i := rfl
@[simp] theorem latchCommand_laddr : (latchCommand cfg i s).laddr = acceptLaddr cfg i s := rfl
@[simp] theorem latchCommand_lslot : (latchCommand cfg i s).lslot = acceptLslot i s := rfl
@[simp] theorem latchCommand_uix : (latchCommand cfg i s).uix = 0 := rfl
@[simp] theorem latchCommand_slot : (latchCommand cfg i s).slot = s.slot := rfl
@[simp] theorem latchCommand_sphase : (latchCommand cfg i s).sphase = s.sphase := rfl
@[simp] theorem latchCommand_tcnt : (latchCommand cfg i s).tcnt = s.tcnt := rfl
@[simp] theorem latchCommand_bitcnt : (latchCommand cfg i s).bitcnt = s.bitcnt := rfl
@[simp] theorem latchCommand_bytecnt : (latchCommand cfg i s).bytecnt = s.bytecnt := rfl
@[simp] theorem latchCommand_shreg : (latchCommand cfg i s).shreg = s.shreg := rfl
@[simp] theorem latchCommand_mstep : (latchCommand cfg i s).mstep = s.mstep := rfl
@[simp] theorem latchCommand_dqOe : (latchCommand cfg i s).dqOe = s.dqOe := rfl
@[simp] theorem latchCommand_dqSync : (latchCommand cfg i s).dqSync = s.dqSync := rfl
@[simp] theorem latchCommand_devLow : (latchCommand cfg i s).devLow = s.devLow := rfl
@[simp] theorem latchCommand_hist : (latchCommand cfg i s).hist = s.hist := rfl
@[simp] theorem latchCommand_rdata : (latchCommand cfg i s).rdata = s.rdata := rfl
@[simp] theorem latchCommand_choice : (latchCommand cfg i s).choice = s.choice := rfl
@[simp] theorem latchCommand_agenda : (latchCommand cfg i s).agenda = s.agenda := rfl
@[simp] theorem latchCommand_turn : (latchCommand cfg i s).turn = s.turn := rfl
end

section
variable (s : State)
@[simp] theorem refuseCommand_busy : (refuseCommand s).busy = s.busy := rfl
@[simp] theorem refuseCommand_presence : (refuseCommand s).presence = s.presence := rfl
@[simp] theorem refuseCommand_rxbit : (refuseCommand s).rxbit = s.rxbit := rfl
@[simp] theorem refuseCommand_crcOk : (refuseCommand s).crcOk = s.crcOk := rfl
@[simp] theorem refuseCommand_resValid : (refuseCommand s).resValid = s.resValid := rfl
@[simp] theorem refuseCommand_ovr : (refuseCommand s).ovr = s.ovr := rfl
@[simp] theorem refuseCommand_err : (refuseCommand s).err = .illegalCmd := rfl
@[simp] theorem refuseCommand_rxbyte : (refuseCommand s).rxbyte = s.rxbyte := rfl
@[simp] theorem refuseCommand_crc : (refuseCommand s).crc = s.crc := rfl
@[simp] theorem refuseCommand_addr0 : (refuseCommand s).addr0 = s.addr0 := rfl
@[simp] theorem refuseCommand_addr1 : (refuseCommand s).addr1 = s.addr1 := rfl
@[simp] theorem refuseCommand_scratch : (refuseCommand s).scratch = s.scratch := rfl
@[simp] theorem refuseCommand_tempQ4 : (refuseCommand s).tempQ4 = s.tempQ4 := rfl
@[simp] theorem refuseCommand_res : (refuseCommand s).res = s.res := rfl
@[simp] theorem refuseCommand_cursor : (refuseCommand s).cursor = s.cursor := rfl
@[simp] theorem refuseCommand_measSlot : (refuseCommand s).measSlot = s.measSlot := rfl
@[simp] theorem refuseCommand_lop : (refuseCommand s).lop = s.lop := rfl
@[simp] theorem refuseCommand_limm : (refuseCommand s).limm = s.limm := rfl
@[simp] theorem refuseCommand_laddr : (refuseCommand s).laddr = s.laddr := rfl
@[simp] theorem refuseCommand_lslot : (refuseCommand s).lslot = s.lslot := rfl
@[simp] theorem refuseCommand_uix : (refuseCommand s).uix = s.uix := rfl
@[simp] theorem refuseCommand_slot : (refuseCommand s).slot = s.slot := rfl
@[simp] theorem refuseCommand_sphase : (refuseCommand s).sphase = s.sphase := rfl
@[simp] theorem refuseCommand_tcnt : (refuseCommand s).tcnt = s.tcnt := rfl
@[simp] theorem refuseCommand_bitcnt : (refuseCommand s).bitcnt = s.bitcnt := rfl
@[simp] theorem refuseCommand_bytecnt : (refuseCommand s).bytecnt = s.bytecnt := rfl
@[simp] theorem refuseCommand_shreg : (refuseCommand s).shreg = s.shreg := rfl
@[simp] theorem refuseCommand_mstep : (refuseCommand s).mstep = s.mstep := rfl
@[simp] theorem refuseCommand_dqOe : (refuseCommand s).dqOe = s.dqOe := rfl
@[simp] theorem refuseCommand_dqSync : (refuseCommand s).dqSync = s.dqSync := rfl
@[simp] theorem refuseCommand_devLow : (refuseCommand s).devLow = s.devLow := rfl
@[simp] theorem refuseCommand_hist : (refuseCommand s).hist = s.hist := rfl
@[simp] theorem refuseCommand_rdata : (refuseCommand s).rdata = s.rdata := rfl
@[simp] theorem refuseCommand_choice : (refuseCommand s).choice = s.choice := rfl
@[simp] theorem refuseCommand_agenda : (refuseCommand s).agenda = s.agenda := rfl
@[simp] theorem refuseCommand_turn : (refuseCommand s).turn = s.turn := rfl
end

section
variable (devLow : Bool) (s s' : State)
@[simp] theorem syncLine_busy : (syncLine devLow s s').busy = s'.busy := rfl
@[simp] theorem syncLine_presence : (syncLine devLow s s').presence = s'.presence := rfl
@[simp] theorem syncLine_rxbit : (syncLine devLow s s').rxbit = s'.rxbit := rfl
@[simp] theorem syncLine_crcOk : (syncLine devLow s s').crcOk = s'.crcOk := rfl
@[simp] theorem syncLine_resValid : (syncLine devLow s s').resValid = s'.resValid := rfl
@[simp] theorem syncLine_ovr : (syncLine devLow s s').ovr = s'.ovr := rfl
@[simp] theorem syncLine_err : (syncLine devLow s s').err = s'.err := rfl
@[simp] theorem syncLine_rxbyte : (syncLine devLow s s').rxbyte = s'.rxbyte := rfl
@[simp] theorem syncLine_crc : (syncLine devLow s s').crc = s'.crc := rfl
@[simp] theorem syncLine_addr0 : (syncLine devLow s s').addr0 = s'.addr0 := rfl
@[simp] theorem syncLine_addr1 : (syncLine devLow s s').addr1 = s'.addr1 := rfl
@[simp] theorem syncLine_scratch : (syncLine devLow s s').scratch = s'.scratch := rfl
@[simp] theorem syncLine_tempQ4 : (syncLine devLow s s').tempQ4 = s'.tempQ4 := rfl
@[simp] theorem syncLine_res : (syncLine devLow s s').res = s'.res := rfl
@[simp] theorem syncLine_cursor : (syncLine devLow s s').cursor = s'.cursor := rfl
@[simp] theorem syncLine_measSlot : (syncLine devLow s s').measSlot = s'.measSlot := rfl
@[simp] theorem syncLine_lop : (syncLine devLow s s').lop = s'.lop := rfl
@[simp] theorem syncLine_limm : (syncLine devLow s s').limm = s'.limm := rfl
@[simp] theorem syncLine_laddr : (syncLine devLow s s').laddr = s'.laddr := rfl
@[simp] theorem syncLine_lslot : (syncLine devLow s s').lslot = s'.lslot := rfl
@[simp] theorem syncLine_uix : (syncLine devLow s s').uix = s'.uix := rfl
@[simp] theorem syncLine_slot : (syncLine devLow s s').slot = s'.slot := rfl
@[simp] theorem syncLine_sphase : (syncLine devLow s s').sphase = s'.sphase := rfl
@[simp] theorem syncLine_tcnt : (syncLine devLow s s').tcnt = s'.tcnt := rfl
@[simp] theorem syncLine_bitcnt : (syncLine devLow s s').bitcnt = s'.bitcnt := rfl
@[simp] theorem syncLine_bytecnt : (syncLine devLow s s').bytecnt = s'.bytecnt := rfl
@[simp] theorem syncLine_shreg : (syncLine devLow s s').shreg = s'.shreg := rfl
@[simp] theorem syncLine_mstep : (syncLine devLow s s').mstep = s'.mstep := rfl
@[simp] theorem syncLine_dqOe : (syncLine devLow s s').dqOe = s'.dqOe := rfl
@[simp] theorem syncLine_dqSync : (syncLine devLow s s').dqSync = s.dqSync.extractLsb' 0 1 ++ BitVec.ofBool (!s.dqOe && !devLow) := rfl
@[simp] theorem syncLine_devLow : (syncLine devLow s s').devLow = devLow := rfl
@[simp] theorem syncLine_hist : (syncLine devLow s s').hist = s'.hist := rfl
@[simp] theorem syncLine_rdata : (syncLine devLow s s').rdata = s'.rdata := rfl
@[simp] theorem syncLine_choice : (syncLine devLow s s').choice = s'.choice := rfl
@[simp] theorem syncLine_agenda : (syncLine devLow s s').agenda = s'.agenda := rfl
@[simp] theorem syncLine_turn : (syncLine devLow s s').turn = s'.turn := rfl
end

section
variable (cfg : Config) (a : Nat) (s s' : State)
@[simp] theorem hostRead_busy : (hostRead cfg a s s').busy = s'.busy := rfl
@[simp] theorem hostRead_presence : (hostRead cfg a s s').presence = s'.presence := rfl
@[simp] theorem hostRead_rxbit : (hostRead cfg a s s').rxbit = s'.rxbit := rfl
@[simp] theorem hostRead_crcOk : (hostRead cfg a s s').crcOk = s'.crcOk := rfl
@[simp] theorem hostRead_resValid : (hostRead cfg a s s').resValid = s'.resValid := rfl
@[simp] theorem hostRead_ovr : (hostRead cfg a s s').ovr = s'.ovr := rfl
@[simp] theorem hostRead_err : (hostRead cfg a s s').err = s'.err := rfl
@[simp] theorem hostRead_rxbyte : (hostRead cfg a s s').rxbyte = s'.rxbyte := rfl
@[simp] theorem hostRead_crc : (hostRead cfg a s s').crc = s'.crc := rfl
@[simp] theorem hostRead_addr0 : (hostRead cfg a s s').addr0 = s'.addr0 := rfl
@[simp] theorem hostRead_addr1 : (hostRead cfg a s s').addr1 = s'.addr1 := rfl
@[simp] theorem hostRead_scratch : (hostRead cfg a s s').scratch = s'.scratch := rfl
@[simp] theorem hostRead_tempQ4 : (hostRead cfg a s s').tempQ4 = s'.tempQ4 := rfl
@[simp] theorem hostRead_res : (hostRead cfg a s s').res = s'.res := rfl
@[simp] theorem hostRead_cursor : (hostRead cfg a s s').cursor = s'.cursor := rfl
@[simp] theorem hostRead_measSlot : (hostRead cfg a s s').measSlot = s'.measSlot := rfl
@[simp] theorem hostRead_lop : (hostRead cfg a s s').lop = s'.lop := rfl
@[simp] theorem hostRead_limm : (hostRead cfg a s s').limm = s'.limm := rfl
@[simp] theorem hostRead_laddr : (hostRead cfg a s s').laddr = s'.laddr := rfl
@[simp] theorem hostRead_lslot : (hostRead cfg a s s').lslot = s'.lslot := rfl
@[simp] theorem hostRead_uix : (hostRead cfg a s s').uix = s'.uix := rfl
@[simp] theorem hostRead_slot : (hostRead cfg a s s').slot = s'.slot := rfl
@[simp] theorem hostRead_sphase : (hostRead cfg a s s').sphase = s'.sphase := rfl
@[simp] theorem hostRead_tcnt : (hostRead cfg a s s').tcnt = s'.tcnt := rfl
@[simp] theorem hostRead_bitcnt : (hostRead cfg a s s').bitcnt = s'.bitcnt := rfl
@[simp] theorem hostRead_bytecnt : (hostRead cfg a s s').bytecnt = s'.bytecnt := rfl
@[simp] theorem hostRead_shreg : (hostRead cfg a s s').shreg = s'.shreg := rfl
@[simp] theorem hostRead_mstep : (hostRead cfg a s s').mstep = s'.mstep := rfl
@[simp] theorem hostRead_dqOe : (hostRead cfg a s s').dqOe = s'.dqOe := rfl
@[simp] theorem hostRead_dqSync : (hostRead cfg a s s').dqSync = s'.dqSync := rfl
@[simp] theorem hostRead_devLow : (hostRead cfg a s s').devLow = s'.devLow := rfl
@[simp] theorem hostRead_hist : (hostRead cfg a s s').hist = s'.hist := rfl
@[simp] theorem hostRead_rdata : (hostRead cfg a s s').rdata = readValue cfg a s := rfl
@[simp] theorem hostRead_choice : (hostRead cfg a s s').choice = s'.choice + readChoices s := rfl
@[simp] theorem hostRead_agenda : (hostRead cfg a s s').agenda = s'.agenda := rfl
@[simp] theorem hostRead_turn : (hostRead cfg a s s').turn = s'.turn := rfl
end

section
variable (s : State)
@[simp] theorem resetState_busy : (resetState s).busy = State.reset.busy := rfl
@[simp] theorem resetState_presence : (resetState s).presence = State.reset.presence := rfl
@[simp] theorem resetState_rxbit : (resetState s).rxbit = State.reset.rxbit := rfl
@[simp] theorem resetState_crcOk : (resetState s).crcOk = State.reset.crcOk := rfl
@[simp] theorem resetState_resValid : (resetState s).resValid = State.reset.resValid := rfl
@[simp] theorem resetState_ovr : (resetState s).ovr = State.reset.ovr := rfl
@[simp] theorem resetState_err : (resetState s).err = State.reset.err := rfl
@[simp] theorem resetState_rxbyte : (resetState s).rxbyte = State.reset.rxbyte := rfl
@[simp] theorem resetState_crc : (resetState s).crc = State.reset.crc := rfl
@[simp] theorem resetState_addr0 : (resetState s).addr0 = State.reset.addr0 := rfl
@[simp] theorem resetState_addr1 : (resetState s).addr1 = State.reset.addr1 := rfl
@[simp] theorem resetState_scratch : (resetState s).scratch = State.reset.scratch := rfl
@[simp] theorem resetState_tempQ4 : (resetState s).tempQ4 = State.reset.tempQ4 := rfl
@[simp] theorem resetState_res : (resetState s).res = State.reset.res := rfl
@[simp] theorem resetState_cursor : (resetState s).cursor = State.reset.cursor := rfl
@[simp] theorem resetState_measSlot : (resetState s).measSlot = State.reset.measSlot := rfl
@[simp] theorem resetState_lop : (resetState s).lop = State.reset.lop := rfl
@[simp] theorem resetState_limm : (resetState s).limm = State.reset.limm := rfl
@[simp] theorem resetState_laddr : (resetState s).laddr = State.reset.laddr := rfl
@[simp] theorem resetState_lslot : (resetState s).lslot = State.reset.lslot := rfl
@[simp] theorem resetState_uix : (resetState s).uix = State.reset.uix := rfl
@[simp] theorem resetState_slot : (resetState s).slot = State.reset.slot := rfl
@[simp] theorem resetState_sphase : (resetState s).sphase = State.reset.sphase := rfl
@[simp] theorem resetState_tcnt : (resetState s).tcnt = State.reset.tcnt := rfl
@[simp] theorem resetState_bitcnt : (resetState s).bitcnt = State.reset.bitcnt := rfl
@[simp] theorem resetState_bytecnt : (resetState s).bytecnt = State.reset.bytecnt := rfl
@[simp] theorem resetState_shreg : (resetState s).shreg = State.reset.shreg := rfl
@[simp] theorem resetState_mstep : (resetState s).mstep = State.reset.mstep := rfl
@[simp] theorem resetState_dqOe : (resetState s).dqOe = State.reset.dqOe := rfl
@[simp] theorem resetState_dqSync : (resetState s).dqSync = State.reset.dqSync := rfl
@[simp] theorem resetState_devLow : (resetState s).devLow = s.devLow := rfl
@[simp] theorem resetState_hist : (resetState s).hist = State.reset.hist := rfl
@[simp] theorem resetState_rdata : (resetState s).rdata = s.rdata := rfl
@[simp] theorem resetState_choice : (resetState s).choice = s.choice := rfl
@[simp] theorem resetState_agenda : (resetState s).agenda = s.agenda := rfl
@[simp] theorem resetState_turn : (resetState s).turn = s.turn := rfl
end

end Sys2Proof.Machine
end

