-- ==== Sys2Proof/Laws/Read.lean ====
section
/-! SUPPORT. Read slots: eight bits pushed into the shift register are the byte `BusReadByte()` returns. -/

namespace Sys2Proof.Machine
open Pseudo

theorem pushBit_getLsbD (b : Bool) (v : Byte) (i : Nat) :
    (pushBit b v).getLsbD i = if i = 7 then b else (decide (i < 7) && v.getLsbD (i + 1)) := by
  unfold pushBit
  rw [BitVec.getLsbD_append]
  by_cases h7 : i = 7
  · subst h7; simp
  · by_cases h : i < 7
    · simp [h, h7, Nat.add_comm]
    · have : i - 7 ≠ 0 := by omega
      simp [h, h7]; omega

@[simp] theorem pushBit_getElem_seven (b : Bool) (v : Byte) : (pushBit b v)[7] = b := by
  simpa using pushBit_getLsbD b v 7

/-- The state a read slot leaves, the shift register aside. -/
def readNext (cfg : Config) (s : State) : State := (busReadBit cfg s).2

/-- The answer of the `i`-th read slot from a state on. -/
def readAnswer (cfg : Config) (s : State) (i : Nat) : Bool := (busReadBit cfg ((readNext cfg)^[i] s)).1

/-- `k` answers pushed into a byte, the first ending lowest. -/
def pushAnswers (f : Nat → Bool) (k : Nat) (v : Byte) : Byte := (List.range k).foldl (fun x i => pushBit (f i) x) v

theorem pushAnswers_succ (f : Nat → Bool) (k : Nat) (v : Byte) :
    pushAnswers f (k + 1) v = pushBit (f k) (pushAnswers f k v) := by
  simp [pushAnswers, List.range_succ]

theorem pushAnswers_getLsbD (f : Nat → Bool) (k : Nat) (v : Byte) (i : Nat) (hi : i < 8) (hk : k ≤ 8) :
    (pushAnswers f k v).getLsbD i = if i + k < 8 then v.getLsbD (i + k) else f (i + k - 8) := by
  induction k generalizing i with
  | zero => simp [pushAnswers, hi]
  | succ k ih =>
    rw [pushAnswers_succ, pushBit_getLsbD]
    by_cases h7 : i = 7
    · subst h7
      simp [show ¬ (7 + (k + 1) < 8) by omega, show 7 + (k + 1) - 8 = k by omega]
    · have : i < 7 := by omega
      simp only [h7, this, if_false, decide_true, Bool.true_and]
      rw [ih (i + 1) (by omega) (by omega)]
      simp [show i + 1 + k = i + (k + 1) by omega]

/-- One read slot with its bit in the shift register, the sequencer's position aside. -/
def oneRead (cfg : Config) (s : State) : State :=
  { readNext cfg s with shreg := pushBit (busReadBit cfg s).1 s.shreg }

theorem oneRead_iterate (cfg : Config) (s : State) (k : Nat) :
    (oneRead cfg)^[k] s = { (readNext cfg)^[k] s with shreg := pushAnswers (readAnswer cfg s) k s.shreg } := by
  induction k with
  | zero => rfl
  | succ k ih => 
    rw [Function.iterate_succ_apply', Function.iterate_succ_apply', ih, pushAnswers_succ]
    rfl

theorem setBit_getLsbD (v : Byte) (k : Nat) (b : Bool) (i : Nat) (hk : k < 8) :
    (setBit v k b).getLsbD i = (v.getLsbD i || (decide (i = k) && b)) := by
  have hb : ∀ j, (BitVec.ofBool b).getLsbD j = (decide (j = 0) && b) := by
    intro j; cases b <;> simp [BitVec.ofBool, BitVec.getLsbD_one]; 
  simp [setBit, hb]
  by_cases h : i = k
  · subst h; simp [hk]
  · rcases Nat.lt_or_gt_of_ne h with h' | h'
    · simp [h, h']
    · have : i - k ≠ 0 := by omega
      simp [h]; omega

theorem busReadByte_fold (cfg : Config) (s : State) (k : Nat) (hk : k ≤ 8) :
    let r := (List.range k).foldl
      (fun r i => (setBit r.1 i (busReadBit cfg r.2).1, (busReadBit cfg r.2).2)) ((0 : Byte), s)
    r.2 = (readNext cfg)^[k] s ∧ ∀ i, r.1.getLsbD i = (decide (i < k) && readAnswer cfg s i) := by
  induction k with
  | zero => simp
  | succ k ih =>
    obtain ⟨h2, h1⟩ := ih (by omega)
    simp only [List.range_succ, List.foldl_append, List.foldl_cons, List.foldl_nil]
    refine ⟨?_, fun i => ?_⟩
    · rw [h2, Function.iterate_succ_apply']; rfl
    · rw [setBit_getLsbD _ _ _ _ (by omega), h1, h2]
      by_cases h : i = k
      · subst h; simp [readAnswer]
      · have : decide (i < k + 1) = decide (i < k) := by
          congr 1; exact propext ⟨fun _ => by omega, fun _ => by omega⟩
        rw [this]; simp [h]

theorem busReadByte_eq (cfg : Config) (s : State) :
    busReadByte cfg s = (pushAnswers (readAnswer cfg s) 8 s.shreg, (readNext cfg)^[8] s) := by
  obtain ⟨h2, h1⟩ := busReadByte_fold cfg s 8 (by omega)
  refine Prod.ext ?_ h2
  apply BitVec.eq_of_getLsbD_eq
  intro i hi
  refine (h1 i).trans ?_
  rw [pushAnswers_getLsbD _ _ _ _ hi (by omega)]
  simp [hi]

theorem eight_reads (cfg : Config) (s : State) :
    (oneRead cfg)^[8] s = { (busReadByte cfg s).2 with shreg := (busReadByte cfg s).1 } := by
  rw [oneRead_iterate, busReadByte_eq]
end Sys2Proof.Machine
end

