-- ==== Sys2Proof/Laws/Run.lean ====
section
/-! SUPPORT. A turn of controller steps through the shared sequences of a body: what a run of write slots and a run of
read slots leaves, so that a body is run segment by segment. -/

namespace Sys2Proof.Machine
open Pseudo

/-! ### One controller step -/

theorem runMicroOps_cons (cfg : Config) (b : Body) (n : Nat) (op : MicroOp) (rest : List MicroOp) (s : State) :
    runMicroOps cfg b (n + 1) (op :: rest) s =
      if (stepMicroOp cfg b op rest s).busy then runMicroOps cfg b n rest (stepMicroOp cfg b op rest s)
      else stepMicroOp cfg b op rest s := rfl

theorem completeCommand_busy (cfg : Config) (b : Body) (s : State) : (completeCommand cfg b s).busy = false := rfl

theorem failCommand_busy (cfg : Config) (b : Body) (e : Err) (s : State) : (failCommand cfg b e s).busy = false :=
  rfl

/-- A micro-operation that is not the last and does not fail hands on to the next. -/
theorem runMicroOps_next (cfg : Config) (b : Body) (n : Nat) (op next : MicroOp) (r : List MicroOp) (s s' : State)
    (h : runEffects cfg op.post (recordSlot cfg op.slot (answerSlot cfg op.slot (runEffects cfg op.pre s).1))
      = (s', none)) (hb : s'.busy = true) :
    runMicroOps cfg b (n + 1) (op :: next :: r) s =
      runMicroOps cfg b n (next :: r) (loadSlot cfg next { s' with uix := s'.uix + 1 }) := by
  simp [runMicroOps_cons, stepMicroOp, endMicroOp, h, hb]

/-- The last micro-operation ends the command. -/
theorem runMicroOps_last (cfg : Config) (b : Body) (n : Nat) (op : MicroOp) (s s' : State)
    (h : runEffects cfg op.post (recordSlot cfg op.slot (answerSlot cfg op.slot (runEffects cfg op.pre s).1))
      = (s', none)) :
    runMicroOps cfg b (n + 1) [op] s = completeCommand cfg b s' := by
  simp [runMicroOps_cons, stepMicroOp, endMicroOp, h, completeCommand_busy]

/-- A failing check ends the command wherever it stands. -/
theorem runMicroOps_fail (cfg : Config) (b : Body) (n : Nat) (op : MicroOp) (r : List MicroOp) (s s' : State) (e : Err)
    (h : runEffects cfg op.post (recordSlot cfg op.slot (answerSlot cfg op.slot (runEffects cfg op.pre s).1))
      = (s', some e)) :
    runMicroOps cfg b (n + 1) (op :: r) s = failCommand cfg b e s' := by
  simp [runMicroOps_cons, stepMicroOp, endMicroOp, h, failCommand_busy]

/-! ### Segments of write slots -/

/-- What a run of write slots leaves, the sequencer's counters aside. -/
def afterWrites (ws : List Bool) (s : State) : State :=
  { s with hist := s.hist ++ ws.map .write, shreg := s.shreg >>> ws.length, uix := s.uix + ws.length }

theorem afterWrites_nil (s : State) : afterWrites [] s = s := by simp [afterWrites]

theorem afterWrites_append (ws ws' : List Bool) (s : State) :
    afterWrites ws' (afterWrites ws s) = afterWrites (ws ++ ws') s := by
  simp [afterWrites, BitVec.shiftRight_add, Nat.add_assoc]

@[simp] theorem afterWrites_busy (ws : List Bool) (s : State) : (afterWrites ws s).busy = s.busy := rfl

theorem loadSlot_afterWrites (cfg : Config) (op1 op2 : MicroOp) (ws : List Bool) (s : State) (h : op1.load = none) :
    loadSlot cfg op2 (afterWrites ws (loadSlot cfg op1 s)) = loadSlot cfg op2 (afterWrites ws s) := by
  simp [loadSlot, afterWrites, h]

theorem runMicroOps_writeBitOp (cfg : Config) (b : Body) (n : Nat) (v : Byte) (bb m : BitVec 4) (i : Nat)
    (next : MicroOp) (r : List MicroOp) (s : State) (hb : s.busy = true) :
    runMicroOps cfg b (n + 1) (writeBitOp v bb m i :: next :: r) s =
      runMicroOps cfg b n (next :: r) (loadSlot cfg next (afterWrites [v.getLsbD i] s)) := by
  simp [runMicroOps_cons, stepMicroOp, writeBitOp, answerSlot, runEffects, endMicroOp, recordSlot, hb, afterWrites]

theorem runMicroOps_writeBitOps (cfg : Config) (b : Body) (v : Byte) (bb m : BitVec 4) (next : MicroOp)
    (r : List MicroOp) (l : List Nat) (hl : 0 ∉ l) (n : Nat) (s : State) (hb : s.busy = true) :
    runMicroOps cfg b (n + l.length) (l.map (writeBitOp v bb m) ++ next :: r)
        (loadSlot cfg ((l.map (writeBitOp v bb m)).headD next) s) =
      runMicroOps cfg b n (next :: r) (loadSlot cfg next (afterWrites (l.map v.getLsbD) s)) := by
  induction l generalizing s with
  | nil => simp [afterWrites_nil]
  | cons i l ih =>
    have hi : i ≠ 0 := by rintro rfl; simp at hl
    have hload : (writeBitOp v bb m i).load = none := by simp [writeBitOp, hi]
    have key := ih (fun h => hl (List.mem_cons_of_mem _ h)) (afterWrites [v.getLsbD i] s) (by simpa using hb)
    rw [afterWrites_append] at key
    cases l with
    | nil =>
      simpa [loadSlot_afterWrites _ _ _ _ _ hload] using
        runMicroOps_writeBitOp cfg b n v bb m i next r (loadSlot cfg (writeBitOp v bb m i) s) (by simpa using hb)
    | cons j l =>
      have h1 := runMicroOps_writeBitOp cfg b (n + (j :: l).length) v bb m i (writeBitOp v bb m j)
        (l.map (writeBitOp v bb m) ++ next :: r) (loadSlot cfg (writeBitOp v bb m i) s) (by simpa using hb)
      rw [loadSlot_afterWrites _ _ _ _ _ hload] at h1
      exact h1.trans key

/-- Whole bytes written, the sequencer's counters aside. -/
def afterBytes (vs : List Byte) (s : State) : State :=
  { s with
    hist := s.hist ++ vs.flatMap writeEvents
    shreg := if vs = [] then s.shreg else 0
    uix := s.uix + 8 * vs.length }

@[simp] theorem afterBytes_busy (vs : List Byte) (s : State) : (afterBytes vs s).busy = s.busy := rfl

theorem afterBytes_cons (v : Byte) (vs : List Byte) (s : State) :
    afterBytes vs (afterBytes [v] s) = afterBytes (v :: vs) s := by
  simp only [afterBytes, List.flatMap_cons, List.flatMap_nil, List.append_nil, List.append_assoc,
    List.length_cons, List.length_nil]
  congr 1
  · omega
  · simp

theorem afterWrites_byte (v : Byte) (s : State) :
    afterWrites (bitOrder.map v.getLsbD) s = afterBytes [v] s := by
  have hz : s.shreg >>> 8 = 0 := by
    apply BitVec.eq_of_getLsbD_eq; intro i hi; simp
  simp [afterWrites, afterBytes, writeEvents, bitOrder, hz]

theorem loadSlot_afterBytes (cfg : Config) (op1 op2 : MicroOp) (v : Byte) (vs : List Byte) (s : State) :
    loadSlot cfg op2 (afterBytes (v :: vs) (loadSlot cfg op1 s)) = loadSlot cfg op2 (afterBytes (v :: vs) s) := by
  simp [loadSlot, afterBytes]

/-- `BusWriteByte(v)` in the middle of a body. -/
theorem runMicroOps_writeByteOps (cfg : Config) (b : Body) (n : Nat) (v : Byte) (bb m : BitVec 4) (next : MicroOp)
    (r : List MicroOp) (s : State) (hb : s.busy = true) :
    runMicroOps cfg b (n + 8) (writeByteOps v bb m ++ next :: r) s =
      runMicroOps cfg b n (next :: r) (loadSlot cfg next (afterBytes [v] s)) := by
  have h1 := runMicroOps_writeBitOp cfg b (n + 7) v bb m 0 (writeBitOp v bb m 1)
    ([2, 3, 4, 5, 6, 7].map (writeBitOp v bb m) ++ next :: r) s hb
  have h2 := runMicroOps_writeBitOps cfg b v bb m next r [1, 2, 3, 4, 5, 6, 7] (by simp) n
    (afterWrites [v.getLsbD 0] s) hb
  rw [afterWrites_append] at h2
  rw [← afterWrites_byte]
  exact h1.trans h2

/-- `BusWriteByte(v)` at the end of a body with no unconditional effects. -/
theorem runMicroOps_writeByteOps_last (cfg : Config) (b : Body) (ha : b.always = []) (n : Nat) (v : Byte)
    (bb m : BitVec 4) (s : State) (hb : s.busy = true) :
    runMicroOps cfg b (n + 8) (writeByteOps v bb m) s = goIdle (afterBytes [v] s) := by
  have h1 := runMicroOps_writeBitOp cfg b (n + 7) v bb m 0 (writeBitOp v bb m 1)
    ([2, 3, 4, 5, 6, 7].map (writeBitOp v bb m)) s hb
  have h2 := runMicroOps_writeBitOps cfg b v bb m (writeBitOp v bb m 7) [] [1, 2, 3, 4, 5, 6] (by simp) (n + 1)
    (afterWrites [v.getLsbD 0] s) hb
  rw [afterWrites_append] at h2
  refine (h1.trans h2).trans ?_
  have hz : s.shreg >>> 7 >>> 1 = 0 := by
    rw [← BitVec.shiftRight_add]; apply BitVec.eq_of_getLsbD_eq; intro i hi; simp
  rw [runMicroOps_last cfg b n _ _ _ rfl]
  simp [completeCommand, ha, runEffects, goIdle, sequencerRest, writeBitOp, recordSlot, answerSlot, loadSlot,
    afterWrites, afterBytes, writeEvents, bitOrder, hz]

/-! ### Sequences of whole bytes -/

/-- The write slots of bytes with their place in the group. -/
def writeBytesOps (m : BitVec 4) (vs : List (Byte × BitVec 4)) : List MicroOp :=
  vs.flatMap fun v => writeByteOps v.1 v.2 m

theorem sendMatchOps_eq (a : Addr) (m : BitVec 4) :
    sendMatchOps a m = writeBytesOps m
      ((matchRomByte, 0) :: addrOrder.map fun k => (addrByte a k, BitVec.ofNat 4 (k + 1))) := by
  simp [sendMatchOps, writeBytesOps, List.flatMap_map]

theorem runMicroOps_writeBytesOps (cfg : Config) (b : Body) (m : BitVec 4) (next : MicroOp) (r : List MicroOp)
    (v : Byte × BitVec 4) (vs : List (Byte × BitVec 4)) (n : Nat) (s : State) (hb : s.busy = true) :
    runMicroOps cfg b (n + 8 * (vs.length + 1)) (writeBytesOps m (v :: vs) ++ next :: r) s =
      runMicroOps cfg b n (next :: r) (loadSlot cfg next (afterBytes (v.1 :: vs.map Prod.fst) s)) := by
  induction vs generalizing v s with
  | nil => simpa [writeBytesOps] using runMicroOps_writeByteOps cfg b n v.1 v.2 m next r s hb
  | cons w vs ih =>
    have h1 := runMicroOps_writeByteOps cfg b (n + 8 * (vs.length + 1)) v.1 v.2 m (writeBitOp w.1 w.2 m 0)
      (([1, 2, 3, 4, 5, 6, 7].map (writeBitOp w.1 w.2 m)) ++ (writeBytesOps m vs ++ next :: r)) s hb
    have h2 := ih w (loadSlot cfg (writeBitOp w.1 w.2 m 0) (afterBytes [v.1] s)) (by simpa using hb)
    rw [loadSlot_afterBytes, afterBytes_cons] at h2
    refine Eq.trans ?_ (h1.trans (Eq.trans ?_ h2))
    · simp [writeBytesOps, writeByteOps, bitOrder]
      rfl
    · simp [writeBytesOps, writeByteOps, bitOrder]

theorem runMicroOps_writeBytesOps_last (cfg : Config) (b : Body) (ha : b.always = []) (m : BitVec 4)
    (v : Byte × BitVec 4) (vs : List (Byte × BitVec 4)) (n : Nat) (s : State) (hb : s.busy = true) :
    runMicroOps cfg b (n + 8 * (vs.length + 1)) (writeBytesOps m (v :: vs)) s =
      goIdle (afterBytes (v.1 :: vs.map Prod.fst) s) := by
  induction vs generalizing v s with
  | nil => simpa [writeBytesOps] using runMicroOps_writeByteOps_last cfg b ha n v.1 v.2 m s hb
  | cons w vs ih =>
    have h1 := runMicroOps_writeByteOps cfg b (n + 8 * (vs.length + 1)) v.1 v.2 m (writeBitOp w.1 w.2 m 0)
      (([1, 2, 3, 4, 5, 6, 7].map (writeBitOp w.1 w.2 m)) ++ writeBytesOps m vs) s hb
    have h2 := ih w (loadSlot cfg (writeBitOp w.1 w.2 m 0) (afterBytes [v.1] s)) (by simpa using hb)
    have h3 : goIdle (afterBytes (w.1 :: vs.map Prod.fst) (loadSlot cfg (writeBitOp w.1 w.2 m 0) (afterBytes [v.1] s)))
        = goIdle (afterBytes (v.1 :: w.1 :: vs.map Prod.fst) s) := by
      rw [← afterBytes_cons v.1]
      simp [goIdle, sequencerRest, loadSlot, afterBytes]
    rw [h3] at h2
    refine Eq.trans ?_ (h1.trans (Eq.trans ?_ h2))
    · simp [writeBytesOps, writeByteOps, bitOrder]
      rfl
    · simp [writeBytesOps, writeByteOps, bitOrder]

/-! ### Segments of read slots -/

theorem oneRead_loadSlot (cfg : Config) (op : MicroOp) (h : op.load = none) (u k : Nat) (s : State) :
    (oneRead cfg)^[k] (loadSlot cfg op { s with uix := u }) =
      loadSlot cfg op { (oneRead cfg)^[k] s with uix := u } := by
  induction k generalizing s with
  | zero => rfl
  | succ k ih =>
    rw [Function.iterate_succ_apply, Function.iterate_succ_apply, ← ih]
    congr 1
    simp [loadSlot, oneRead, readNext, busReadBit, h]

theorem loadSlot_loadSlot (cfg : Config) (op1 op2 : MicroOp) (u : Nat) (s : State) (h : op1.load = none) :
    loadSlot cfg op2 { loadSlot cfg op1 s with uix := u } = loadSlot cfg op2 { s with uix := u } := by
  simp [loadSlot, h]

theorem recordSlot_answerSlot_read (cfg : Config) (s : State) (h : s.sphase ≠ .recover) :
    recordSlot cfg .read (answerSlot cfg .read s) = oneRead cfg s := by
  simp [recordSlot, answerSlot, h, oneRead, readNext, busReadBit, sampleBit, pushBit_getElem_seven]

/-- Read slots that are not a byte's last, in the middle of a body. -/
theorem runMicroOps_readBitOps (cfg : Config) (b : Body) (post : List Effect) (bb m : BitVec 4) (next : MicroOp)
    (r : List MicroOp) (l : List Nat) (hl : 7 ∉ l) (n : Nat) (s : State) (hb : s.busy = true)
    (hs : s.sphase ≠ .recover) (hne : l ≠ []) :
    runMicroOps cfg b (n + l.length) (l.map (readBitOp post bb m) ++ next :: r) s =
      runMicroOps cfg b n (next :: r)
        (loadSlot cfg next { (oneRead cfg)^[l.length] s with uix := s.uix + l.length }) := by
  induction l generalizing s with
  | nil => exact absurd rfl hne
  | cons i l ih =>
    have hi : i ≠ 7 := by rintro rfl; simp at hl
    have hrun := recordSlot_answerSlot_read cfg s hs
    have hpost : (readBitOp post bb m i).post = [] := by simp [readBitOp, hi]
    cases l with
    | nil =>
      refine (runMicroOps_next cfg b n _ next r s (oneRead cfg s) ?_ (by simpa [oneRead, readNext, busReadBit])).trans rfl
      rw [hpost]
      simp [readBitOp, runEffects, hrun]
    | cons j l =>
      have h1 := runMicroOps_next cfg b (n + (j :: l).length) (readBitOp post bb m i) (readBitOp post bb m j)
        (l.map (readBitOp post bb m) ++ next :: r) s (oneRead cfg s)
        (by rw [hpost]; simp [readBitOp, runEffects, hrun]) (by simpa [oneRead, readNext, busReadBit])
      have h2 := ih (fun h => hl (List.mem_cons_of_mem _ h))
        (loadSlot cfg (readBitOp post bb m j) { oneRead cfg s with uix := s.uix + 1 })
        (by simpa [oneRead, readNext, busReadBit]) (by simp [firstPhase, readBitOp]) (by simp)
      refine h1.trans (h2.trans ?_)
      rw [oneRead_loadSlot cfg _ (by simp [readBitOp]), loadSlot_loadSlot _ _ _ _ _ (by simp [readBitOp])]
      simp [Function.iterate_succ_apply, Nat.add_comm, Nat.add_left_comm]

/-- `BusReadByte()` in the middle of a body, with the effects that follow its last slot. -/
theorem runMicroOps_readByteOps (cfg : Config) (b : Body) (post : List Effect) (bb m : BitVec 4) (next : MicroOp)
    (r : List MicroOp) (n : Nat) (v : Byte) (s t s' : State) (hb : s.busy = true) (hs : s.sphase ≠ .recover)
    (hR : busReadByte cfg s = (v, t))
    (hpost : runEffects cfg post
      (loadSlot cfg (readBitOp post bb m 7) { t with shreg := v, uix := s.uix + 7 }) = (s', none))
    (hb' : s'.busy = true) :
    runMicroOps cfg b (n + 8) (readByteOps post bb m ++ next :: r) s =
      runMicroOps cfg b n (next :: r) (loadSlot cfg next { s' with uix := s'.uix + 1 }) := by
  have h1 := runMicroOps_readBitOps cfg b post bb m (readBitOp post bb m 7) (next :: r) [0, 1, 2, 3, 4, 5, 6]
    (by simp) (n + 1) s hb hs (by simp)
  refine h1.trans (runMicroOps_next cfg b n _ next r _ s' ?_ hb')
  rw [← hpost]
  have hload : (readBitOp post bb m 7).load = none := rfl
  have h8 := eight_reads cfg s
  rw [hR] at h8
  rw [Function.iterate_succ_apply'] at h8
  have h1' := oneRead_loadSlot cfg (readBitOp post bb m 7) hload (s.uix + 7) 1 ((oneRead cfg)^[7] s)
  simp only [Function.iterate_one, h8] at h1'
  rw [← h1']
  exact congrArg (runEffects cfg post) (recordSlot_answerSlot_read cfg _
    (show Phase.low ≠ Phase.recover by decide))

/-- `BusReadByte()` as the last of a body. -/
theorem runMicroOps_readByteOps_last (cfg : Config) (b : Body) (post : List Effect) (bb m : BitVec 4) (n : Nat)
    (v : Byte) (s t : State) (hb : s.busy = true) (hs : s.sphase ≠ .recover) (hR : busReadByte cfg s = (v, t)) :
    runMicroOps cfg b (n + 8) (readByteOps post bb m) s =
      match runEffects cfg post
        (loadSlot cfg (readBitOp post bb m 7) { t with shreg := v, uix := s.uix + 7 }) with
      | (s', none) => completeCommand cfg b s'
      | (s', some e) => failCommand cfg b e s' := by
  have h1 := runMicroOps_readBitOps cfg b post bb m (readBitOp post bb m 7) [] [0, 1, 2, 3, 4, 5, 6]
    (by simp) (n + 1) s hb hs (by simp)
  have hload : (readBitOp post bb m 7).load = none := rfl
  have h8 := eight_reads cfg s
  rw [hR] at h8
  rw [Function.iterate_succ_apply'] at h8
  have h1' := oneRead_loadSlot cfg (readBitOp post bb m 7) hload (s.uix + 7) 1 ((oneRead cfg)^[7] s)
  simp only [Function.iterate_one, h8] at h1'
  have h2 := congrArg (runEffects cfg post) (recordSlot_answerSlot_read cfg
    (loadSlot cfg (readBitOp post bb m 7) { (oneRead cfg)^[7] s with uix := s.uix + 7 })
    (by simp [firstPhase, readBitOp]))
  rw [h1'] at h2
  refine h1.trans ?_
  split
  · next s' h => exact runMicroOps_last cfg b n _ _ s' (h2.trans h)
  · next s' e h => exact runMicroOps_fail cfg b n _ [] _ s' e (h2.trans h)

end Sys2Proof.Machine
end

