-- ==== Sys2Proof/Laws/Transaction.lean ====
section
/-! SUPPORT. Whole commands: the micro-operations of `SendMatch`, `ScratchRead` and `MeasureBody` against their
pseudocode,
up to the sequencer registers and the shift register. -/

namespace Sys2Proof.Machine
open Pseudo

/-- A state with its sequencer at rest and its shift register cleared: what a command's pseudocode speaks of. -/
def settled (s : State) : State := { goIdle s with shreg := 0 }

theorem settled_loadSlot (cfg : Config) (op : MicroOp) (s : State) : settled (loadSlot cfg op s) = settled s := rfl
theorem settled_uix (s : State) (u : Nat) : settled { s with uix := u } = settled s := rfl
theorem settled_goIdle (s : State) : settled (goIdle s) = settled s := rfl

/-- `BusWriteByte(v)` only appends its eight events. -/
theorem busWriteByte_eq (v : Byte) (s : State) :
    busWriteByte v s = { s with hist := s.hist ++ writeEvents v } := by
  simp [busWriteByte, busWriteBit, bitOrder, writeEvents]

/-- `SendMatch(a)` only appends its 72 events. -/
theorem sendMatch_eq (a : Addr) (s : State) : sendMatch a s = { s with hist := s.hist ++ sendMatchEvents a } := by
  simp [sendMatch, busWriteByte_eq, addrOrder, sendMatchEvents]

theorem settled_afterBytes (vs : List Byte) (s : State) :
    settled (afterBytes vs s) = settled { s with hist := s.hist ++ vs.flatMap writeEvents } := rfl

theorem busReadByte_settled (cfg : Config) (s : State) :
    busReadByte cfg (settled s) = ((busReadByte cfg s).1, settled (busReadByte cfg s).2) := by
  have : ∀ (l : List Nat) (v : Byte) (s : State), l.foldl
    (fun r i => (setBit r.1 i (busReadBit cfg r.2).1, (busReadBit cfg r.2).2)) (v, settled s) =
    (fun r : Byte × State => (r.1, settled r.2)) (l.foldl
    (fun r i => (setBit r.1 i (busReadBit cfg r.2).1, (busReadBit cfg r.2).2)) (v, s)) := by
    intro l
    induction l with
    | nil => intros; rfl
    | cons i l ih => intro v s; exact ih (setBit v i (busReadBit cfg s).1) (busReadBit cfg s).2
  exact this bitOrder 0 s

theorem readScratchByte_settled (cfg : Config) (k : Fin 9) (s : State) :
    readScratchByte cfg k (settled s) = settled (readScratchByte cfg k s) := by
  simp only [readScratchByte, busReadByte_settled]; rfl

/-- `BusReadByte()` changes only the history and the choice counter. -/
theorem busReadByte_fields (cfg : Config) (s : State) :
    (busReadByte cfg s).2 = { s with hist := (busReadByte cfg s).2.hist, choice := (busReadByte cfg s).2.choice }
        := by
  have : ∀ (l : List Nat) (v : Byte) (s : State), (l.foldl
    (fun r i => (setBit r.1 i (busReadBit cfg r.2).1, (busReadBit cfg r.2).2)) (v, s)).2 = { s with
      hist := (l.foldl (fun r i => (setBit r.1 i (busReadBit cfg r.2).1, (busReadBit cfg r.2).2)) (v, s)).2.hist,
      choice := (l.foldl (fun r i => (setBit r.1 i (busReadBit cfg r.2).1, (busReadBit cfg r.2).2)) (v,
          s)).2.choice } := by
    intro l
    induction l with
    | nil => intros; rfl
    | cons i l ih => intro v s; exact ih _ _
  exact this bitOrder 0 s

theorem runEffects_storeScratch (cfg : Config) (k : Fin 9) (s : State) :
    runEffects cfg [.storeScratch k] s = ({ s with scratch := s.scratch.set k s.shreg }, none) := rfl

/-- One scratchpad byte in the middle of a body. -/
theorem runMicroOps_scratchByte (cfg : Config) (b : Body) (bb m : BitVec 4) (next : MicroOp) (r : List MicroOp)
    (k : Fin 9) (n : Nat) (s : State) (hb : s.busy = true) (hs : s.sphase ≠ .recover) :
    ∃ s', runMicroOps cfg b (n + 8) (readByteOps [.storeScratch k] bb m ++ next :: r) s =
        runMicroOps cfg b n (next :: r) (loadSlot cfg next s') ∧
      settled s' = settled (readScratchByte cfg k s) ∧ s'.busy = true := by
  have hf := busReadByte_fields cfg s
  rcases hR : busReadByte cfg s with ⟨v, t⟩
  rw [hR] at hf
  have hbt : t.busy = true := by simpa using (congrArg State.busy hf).trans hb
  have h := runMicroOps_readByteOps cfg b [.storeScratch k] bb m next r n v s t _ hb hs hR
    (runEffects_storeScratch cfg k _) hbt
  refine ⟨_, h, ?_, hbt⟩
  unfold readScratchByte
  rw [hR]
  rfl

theorem foldl_readScratchByte_settled (cfg : Config) (l : List (Fin 9)) (s t : State) (h : settled s = settled t) :
    settled (l.foldl (fun s k => readScratchByte cfg k s) s) = settled (l.foldl (fun s k => readScratchByte cfg k
        s) t) := by
  induction l generalizing s t with
  | nil => exact h
  | cons k l ih =>
    rw [List.foldl_cons, List.foldl_cons]
    apply ih
    rw [← readScratchByte_settled, h, readScratchByte_settled]

/-- The scratchpad bytes before the last. -/
theorem runMicroOps_scratchBytes (cfg : Config) (b : Body) (m : BitVec 4) (next : MicroOp) (r : List MicroOp)
    (ks : List (Fin 9)) (n : Nat) (s : State) (hb : s.busy = true) (hs : s.sphase ≠ .recover) (hne : ks ≠ []) :
    ∃ s', runMicroOps cfg b (n + 8 * ks.length)
      ((ks.flatMap fun k => readByteOps [.storeScratch k] (BitVec.ofNat 4 k.val) m) ++ next :: r) s =
        runMicroOps cfg b n (next :: r) (loadSlot cfg next s') ∧
      settled s' = settled (ks.foldl (fun s k => readScratchByte cfg k s) s) ∧ s'.busy = true := by
  induction ks generalizing s with
  | nil => exact absurd rfl hne
  | cons k ks ih =>
    cases ks with
    | nil => simpa using runMicroOps_scratchByte cfg b (BitVec.ofNat 4 k.val) m next r k n s hb hs
    | cons j ks =>
      obtain ⟨s1, h1, hc1, hb1⟩ := runMicroOps_scratchByte cfg b (BitVec.ofNat 4 k.val) m
        (readBitOp [.storeScratch j] (BitVec.ofNat 4 j.val) m 0)
        ([1,2,3,4,5,6,7].map (readBitOp [.storeScratch j] (BitVec.ofNat 4 j.val) m) ++
          ((ks.flatMap fun k => readByteOps [.storeScratch k] (BitVec.ofNat 4 k.val) m) ++ next :: r))
        k (n + 8 * (j :: ks).length) s hb hs
      obtain ⟨s2, h2, hc2, hb2⟩ := ih (loadSlot cfg (readBitOp [.storeScratch j] (BitVec.ofNat 4 j.val) m 0) s1) hb1
        (show Phase.low ≠ Phase.recover by decide) (by simp)
      refine ⟨s2, ?_, ?_, hb2⟩
      · have e : ((j :: ks).flatMap fun k => readByteOps [.storeScratch k] (BitVec.ofNat 4 k.val) m) ++ next :: r =
            readBitOp [.storeScratch j] (BitVec.ofNat 4 j.val) m 0 ::
            ([1,2,3,4,5,6,7].map (readBitOp [.storeScratch j] (BitVec.ofNat 4 j.val) m) ++
          ((ks.flatMap fun k => readByteOps [.storeScratch k] (BitVec.ofNat 4 k.val) m) ++ next :: r)) := by
          simp [readByteOps, bitOrder]
        rw [← e] at h1
        rw [← h2, ← h1, List.flatMap_cons, List.append_assoc]
        congr 1
      · rw [hc2]
        rw [List.foldl_cons (l := j :: ks)]
        exact foldl_readScratchByte_settled cfg (j :: ks) _ _ ((settled_loadSlot cfg _ s1).trans hc1)

/-- The end of a body sees nothing of the sequencer. -/
theorem completeCommand_settled (cfg : Config) (b : Body) (hb : b.always = [] ∨ b.always = [.advanceLatched])
    (s : State) : settled (completeCommand cfg b (settled s)) = settled (completeCommand cfg b s) := by
  rcases hb with h | h <;> simp only [completeCommand, h] <;> rfl

theorem completeCommand_congr (cfg : Config) (b : Body) (hb : b.always = [] ∨ b.always = [.advanceLatched])
    {s t : State} (h : settled s = settled t) : settled (completeCommand cfg b s) = settled (completeCommand cfg
        b t) := by
  rw [← completeCommand_settled cfg b hb, h, completeCommand_settled cfg b hb]

theorem settled_withErr {s t : State} (e : Err) (h : settled s = settled t) :
    settled { s with err := e } = settled { t with err := e } := by
  have : ∀ s : State, settled { s with err := e } = { settled s with err := e } := fun _ => rfl
  rw [this, this, h]

/-- End of a body given the pseudocode's answer. -/
def endBody (cfg : Config) (b : Body) (r : State × Option Err) : State :=
  match r with
  | (s, none) => completeCommand cfg b s
  | (s, some e) => failCommand cfg b e s

theorem checkScratch_settled (s : State) : checkScratch (settled s) = (settled (checkScratch s).1, (checkScratch
    s).2) := rfl
theorem decodeScratch_settled (s : State) : decodeScratch (settled s) = (settled (decodeScratch s).1,
    (decodeScratch s).2) := by
  unfold decodeScratch
  show (if scratchOk s.scratch = true then _ else _) = _
  split <;> rfl

/-- What follows a part of a body that may fail. -/
def tailBody (r : State × Option Err) (f : State → State × Option Err) : State × Option Err :=
  match r with
  | (s, none) => f s
  | (s, some e) => (s, some e)

theorem endBody_congr (cfg : Config) (b : Body) (hb : b.always = [] ∨ b.always = [.advanceLatched])
   {r r' : State × Option Err} (h1 : settled r.1 = settled r'.1) (h2 : r.2 = r'.2) : settled (endBody cfg b r) =
       settled (endBody cfg b r') := by
  obtain ⟨s, e⟩ := r; obtain ⟨t, e'⟩ := r'
  simp only at h1 h2; subst h2
  cases e with
  | none => exact completeCommand_congr cfg b hb h1
  | some e => exact completeCommand_congr cfg b hb (settled_withErr e h1)

/-- `ScratchRead()` at the end of a body, with what follows it if the check passes. -/
theorem runMicroOps_scratchReadOps (cfg : Config) (b : Body) (hb : b.always = [] ∨ b.always = [.advanceLatched])
   (post : List Effect) (f : State → State × Option Err)
   (hf : ∀ s, runEffects cfg post s = f s) (hfc : ∀ s, f (settled s) = (settled (f s).1, (f s).2)) (m : BitVec 4)
   (n : Nat) (s : State) (hbs : s.busy = true) :
   settled (runMicroOps cfg b (n + 80) (scratchReadOps post m) s) = settled (endBody cfg b (tailBody (scratchRead
       cfg s) f)) := by
  have h1 := runMicroOps_writeByteOps cfg b (n + 72) readScratchpadByte 0 m (readBitOp [.storeScratch 0] 0 m 0)
     ([1,2,3,4,5,6,7].map (readBitOp [.storeScratch 0] 0 m) ++
      (([1,2,3,4,5,6,7] : List (Fin 9)).flatMap fun k => readByteOps [.storeScratch k] (BitVec.ofNat 4 k.val) m) ++
       readByteOps (.storeScratch 8 :: .scratchCheck :: post) 8 m) s hbs
  have h2 := runMicroOps_scratchBytes cfg b m (readBitOp (.storeScratch 8 :: .scratchCheck :: post) 8 m 0)
    ([1,2,3,4,5,6,7].map (readBitOp (.storeScratch 8 :: .scratchCheck :: post) 8 m)) scratchOrder (n + 8)
    (loadSlot cfg (readBitOp [.storeScratch 0] 0 m 0) (afterBytes [readScratchpadByte] s)) hbs
    (show Phase.low ≠ Phase.recover by decide) (by decide)
  obtain ⟨s2, h2, hc2, hb2⟩ := h2
  have h3 := runMicroOps_readByteOps_last cfg b (.storeScratch 8 :: .scratchCheck :: post) 8 m n
  rcases hR : busReadByte cfg (loadSlot cfg (readBitOp (.storeScratch 8 :: .scratchCheck :: post) 8 m 0) s2) with
      ⟨v, t⟩
  have h3 := h3 v (loadSlot cfg (readBitOp (.storeScratch 8 :: .scratchCheck :: post) 8 m 0) s2) t hb2 (show
      Phase.low ≠ Phase.recover by decide) hR
  have e : runMicroOps cfg b (n + 80) (scratchReadOps post m) s = _ := h1.trans (h2.trans h3)
  rw [e]
  have hP : settled { t with scratch := t.scratch.set 8 v } = settled (([0, 1, 2, 3, 4, 5, 6, 7, 8] : List (Fin
      9)).foldl (fun s k => readScratchByte cfg k s) (busWriteByte 0xBE s)) := by
    have : ([0, 1, 2, 3, 4, 5, 6, 7, 8] : List (Fin 9)) = scratchOrder ++ [8] := rfl
    rw [this, List.foldl_append, List.foldl_cons, List.foldl_nil]
    have hA : settled { t with scratch := t.scratch.set 8 v } = settled (readScratchByte cfg 8 (loadSlot cfg
        (readBitOp (.storeScratch 8 :: .scratchCheck :: post) 8 m 0) s2)) := by
      unfold readScratchByte; rw [hR]; rfl
    rw [hA, ← readScratchByte_settled, settled_loadSlot, hc2, ← readScratchByte_settled]
    have hW : settled (loadSlot cfg (readBitOp [.storeScratch 0] 0 m 0) (afterBytes [readScratchpadByte] s)) =
        settled (busWriteByte 0xBE s) := by
      rw [settled_loadSlot, settled_afterBytes, busWriteByte_eq]
      simp [readScratchpadByte]
    exact congrArg (readScratchByte cfg 8) (foldl_readScratchByte_settled cfg scratchOrder _ _ hW)
  set X := loadSlot cfg (readBitOp (.storeScratch 8 :: .scratchCheck :: post) 8 m 7)
      { t with shreg := v, uix := (loadSlot cfg (readBitOp (.storeScratch 8 :: .scratchCheck :: post) 8 m 0) s2).uix + 7 } with hX
  have hrun : runEffects cfg (.storeScratch 8 :: .scratchCheck :: post) X = tailBody (checkScratch
      { X with scratch := X.scratch.set 8 X.shreg }) f := by
    have : runEffects cfg (.storeScratch 8 :: .scratchCheck :: post) X =
      match checkScratch { X with scratch := X.scratch.set 8 X.shreg } with
      | (s', none) => runEffects cfg post s'
      | (s', some e) => (s', some e) := rfl
    rw [this]
    rcases checkScratch { X with scratch := X.scratch.set 8 X.shreg } with ⟨s', _ | e⟩
    · exact hf s'
    · rfl
  have hX' : settled { X with scratch := X.scratch.set 8 X.shreg } = settled
      { t with scratch := t.scratch.set 8 v } := rfl
  have hgo : ∀ s t : State, settled s = settled t → (settled (tailBody (checkScratch s) f).1 = settled (tailBody
      (checkScratch t) f).1 ∧ (tailBody (checkScratch s) f).2 = (tailBody (checkScratch t) f).2) := by
    have hc : ∀ s : State, settled (tailBody (checkScratch s) f).1 = settled (tailBody (checkScratch (settled s))
        f).1 ∧ (tailBody (checkScratch s) f).2 = (tailBody (checkScratch (settled s)) f).2 := by
      intro s
      rw [checkScratch_settled]
      rcases checkScratch s with ⟨s', _ | e⟩
      · simp only [tailBody, hfc]; exact ⟨rfl, trivial⟩
      · exact ⟨rfl, rfl⟩
    intro s t h
    exact ⟨by rw [(hc s).1, h, ← (hc t).1], by rw [(hc s).2, h, ← (hc t).2]⟩
  rw [hrun]
  obtain ⟨g1, g2⟩ := hgo _ _ (hX'.trans hP)
  exact endBody_congr cfg b hb g1 g2

theorem busReset_settled (cfg : Config) (s : State) : busReset cfg (settled s) = ((busReset cfg s).1, settled
    (busReset cfg s).2) := rfl

/-- `SendMatch(a)` in the middle of a body. -/
theorem runMicroOps_sendMatchOps (cfg : Config) (b : Body) (a : Addr) (m : BitVec 4) (next : MicroOp) (r : List
    MicroOp) (n : Nat) (s : State) (hb : s.busy = true) :
   ∃ s', runMicroOps cfg b (n + 72) (sendMatchOps a m ++ next :: r) s = runMicroOps cfg b n (next :: r) (loadSlot
       cfg next s') ∧ settled s' = settled (sendMatch a s) ∧ s'.busy = true ∧ s'.laddr = s.laddr := by
  rw [sendMatchOps_eq]
  have := runMicroOps_writeBytesOps cfg b m next r (matchRomByte, 0) (addrOrder.map fun k => (addrByte a k,
      BitVec.ofNat 4 (k + 1))) n s hb
  refine ⟨_, this, ?_, hb, rfl⟩
  rw [settled_afterBytes, sendMatch_eq]
  simp [sendMatchEvents, addrOrder, matchRomByte]

/-- A reset slot in the middle of a body. -/
theorem runMicroOps_resetOp (cfg : Config) (b : Body) (m : BitVec 4) (pre : List Effect) (g : State → State) (hg
    : ∀ s, runEffects cfg pre s = (g s, none)) (hgp : ∀ s, (g s).sphase = s.sphase) (hgb : ∀ s, (g s).busy =
    s.busy) (next : MicroOp) (r : List MicroOp) (n : Nat) (s : State) (hb : s.busy = true) (hs : s.sphase ≠
    .recover) :
   runMicroOps cfg b (n+1) (resetOp pre m :: next :: r) s =
     match busReset cfg (g s) with
     | (true, s') => runMicroOps cfg b n (next :: r) (loadSlot cfg next { s' with uix := s'.uix + 1 })
     | (false, s') => failCommand cfg b .busAbsent s' := by
  have hs' : (g s).sphase ≠ .recover := by rw [hgp]; exact hs
  rcases hp : cfg.presence (g s).hist (g s).choice with _ | _
  · have h : runEffects cfg (resetOp pre m).post (recordSlot cfg (resetOp pre m).slot (answerSlot cfg (resetOp
      pre m).slot (runEffects cfg (resetOp pre m).pre s).1))
      = ((busReset cfg (g s)).2, some .busAbsent) := by
      simp [resetOp, hg, answerSlot, hs', recordSlot, runEffects, runEffect, busReset, hp]
    rw [runMicroOps_fail cfg b n _ _ s _ _ h]
    simp [busReset, hp]
  · have h : runEffects cfg (resetOp pre m).post (recordSlot cfg (resetOp pre m).slot (answerSlot cfg (resetOp
      pre m).slot (runEffects cfg (resetOp pre m).pre s).1))
      = ((busReset cfg (g s)).2, none) := by
      simp [resetOp, hg, answerSlot, hs', recordSlot, runEffects, runEffect, busReset, hp, samplePresence]
    rw [runMicroOps_next cfg b n _ _ _ s _ h (by simpa [busReset, hgb] using hb)]
    simp [busReset, hp]

/-- The conversion wait in the middle of a body. -/
theorem runMicroOps_waitOp (cfg : Config) (b : Body) (m : BitVec 4) (next : MicroOp) (r : List MicroOp) (n : Nat)
    (s : State) (hb : s.busy = true) :
  runMicroOps cfg b (n+1) (waitOp m :: next :: r) s = runMicroOps cfg b n (next :: r) (loadSlot cfg next
      { busWait cfg s with uix := s.uix + 1 }) :=
  runMicroOps_next cfg b n _ _ _ s (busWait cfg s) rfl hb

theorem sendMatch_settled (a : Addr) (s : State) : sendMatch a (settled s) = settled (sendMatch a s) := by
  rw [sendMatch_eq, sendMatch_eq]; rfl

theorem busWriteByte_settled (v : Byte) (s : State) : busWriteByte v (settled s) = settled (busWriteByte v s) := by
  rw [busWriteByte_eq, busWriteByte_eq]; rfl

theorem scratchRead_settled (cfg : Config) (s : State) : scratchRead cfg (settled s) = (settled (scratchRead cfg
    s).1, (scratchRead cfg s).2) := by
  have : ∀ (l : List (Fin 9)) (s : State), l.foldl (fun s k => readScratchByte cfg k s) (settled s) = settled
      (l.foldl (fun s k => readScratchByte cfg k s) s) := by
    intro l
    induction l with
    | nil => intro s; rfl
    | cons k l ih =>
      intro s
      rw [List.foldl_cons, List.foldl_cons, readScratchByte_settled]
      exact ih (readScratchByte cfg k s)
  unfold scratchRead
  rw [busWriteByte_settled, this, checkScratch_settled]

/-- `MeasureBody()` from its second `SendMatch` on. -/
def afterMatch (cfg : Config) (s : State) : State × Option Err :=
  tailBody (scratchRead cfg (sendMatch s.laddr s)) decodeScratch

theorem afterMatch_settled (cfg : Config) (s : State) : afterMatch cfg (settled s) = (settled (afterMatch cfg
    s).1, (afterMatch cfg s).2) := by
  unfold afterMatch
  rw [show (settled s).laddr = s.laddr from rfl, sendMatch_settled, scratchRead_settled]
  rcases scratchRead cfg (sendMatch s.laddr s) with ⟨s', _ | e⟩
  · exact decodeScratch_settled s'
  · rfl

theorem runEffects_validated (cfg : Config) (s : State) : runEffects cfg [.validatedDecode] s = decodeScratch s
    := by
  show (match decodeScratch s with | (s', none) => (s', none) | (s', some e) => (s', some e)) = _
  rcases decodeScratch s with ⟨s', _ | e⟩ <;> rfl

/-- `MeasureBody()` from its second `BusReset` on. -/
def secondHalf (cfg : Config) (s : State) : State × Option Err :=
  match busReset cfg s with
  | (false, s') => (s', some .busAbsent)
  | (true, s') => afterMatch cfg s'

theorem secondHalf_settled (cfg : Config) (s : State) : secondHalf cfg (settled s) = (settled (secondHalf cfg
    s).1, (secondHalf cfg s).2) := by
  unfold secondHalf
  rw [busReset_settled]
  rcases busReset cfg s with ⟨_ | _, z⟩
  · rfl
  · exact afterMatch_settled cfg z

theorem settled_settled (s : State) : settled (settled s) = settled s := rfl

/-- `MeasureBody()` as micro-operations is `MeasureBody()` as pseudocode, the sequencer and the shift register
aside. -/
theorem runMicroOps_measureOps (cfg : Config) (b : Body) (hb : b.always = [] ∨ b.always = [.advanceLatched]) (n :
    Nat) (s : State)
   (hbs : s.busy = true) (hs : s.sphase ≠ .recover) :
   settled (runMicroOps cfg b (n + 235) (measureOps s.laddr) s) = settled (endBody cfg b (measureTransaction cfg
       s)) := by
  have hR2 : ∀ s2 : State, s2.busy = true → s2.sphase ≠ .recover → s2.laddr = s.laddr →
     settled (runMicroOps cfg b (n + 153) (resetOp [] 4 :: (sendMatchOps s.laddr 4 ++ scratchReadOps
         [.validatedDecode] 5)) s2) =
     settled (endBody cfg b (secondHalf cfg s2)) := by
    intro s2 hb2 hs2 hl2
    have h1 := runMicroOps_resetOp cfg b 4 [] id (fun _ => rfl) (fun _ => rfl) (fun _ => rfl) (writeBitOp 0x55 0
        4 0)
      ([1,2,3,4,5,6,7].map (writeBitOp 0x55 0 4) ++ ((addrOrder.flatMap fun k => writeByteOps (addrByte s.laddr
          k) (BitVec.ofNat 4 (k + 1)) 4) ++ scratchReadOps [.validatedDecode] 5)) (n + 152) s2 hb2 hs2
    refine (congrArg settled h1).trans ?_
    unfold secondHalf
    rcases hq : busReset cfg s2 with ⟨_ | _, s3⟩
    · simp only [id, hq]; rfl
    · simp only [id, hq]
      have hs3 : s3.busy = true ∧ s3.laddr = s.laddr := by
        have := congrArg Prod.snd hq
        simp only at this
        rw [← this]
        exact ⟨hb2, hl2⟩
      obtain ⟨s4, h4, hc4, hb4, hl4⟩ := runMicroOps_sendMatchOps cfg b s.laddr 4 (writeBitOp readScratchpadByte 0
          5 0)
         ([1,2,3,4,5,6,7].map (writeBitOp readScratchpadByte 0 5) ++ ((scratchOrder.flatMap fun k => readByteOps
             [.storeScratch k] (BitVec.ofNat 4 k.val) 5) ++ readByteOps (.storeScratch 8 :: .scratchCheck ::
             [.validatedDecode]) 8 5))
         (n + 80) (loadSlot cfg (writeBitOp 0x55 0 4 0) { s3 with uix := s3.uix + 1 }) hs3.1
      have h5 := runMicroOps_scratchReadOps cfg b hb [.validatedDecode] decodeScratch (runEffects_validated cfg)
          decodeScratch_settled 5 n (loadSlot cfg (writeBitOp readScratchpadByte 0 5 0) s4) hb4
      refine (congrArg settled h4).trans (h5.trans ?_)
      have hst : settled (loadSlot cfg (writeBitOp readScratchpadByte 0 5 0) s4) = settled (sendMatch s3.laddr
          s3) := by
        rw [settled_loadSlot, hc4, ← sendMatch_settled, settled_loadSlot, settled_uix, sendMatch_settled, hs3.2]
      have hsr : scratchRead cfg (settled (loadSlot cfg (writeBitOp readScratchpadByte 0 5 0) s4)) = scratchRead
          cfg (settled (sendMatch s3.laddr s3)) := by rw [hst]
      rw [scratchRead_settled, scratchRead_settled] at hsr
      obtain ⟨e1, e2⟩ := Prod.ext_iff.mp hsr
      simp only at e1 e2
      unfold afterMatch
      apply endBody_congr cfg b hb
      · rcases hA : scratchRead cfg (loadSlot cfg (writeBitOp readScratchpadByte 0 5 0) s4) with ⟨x, ex⟩
        rcases hB : scratchRead cfg (sendMatch s3.laddr s3) with ⟨y, ey⟩
        rw [hA, hB] at e1 e2
        simp only at e1 e2
        subst e2
        rcases ex with _ | e
        · have := decodeScratch_settled x; have h2 := decodeScratch_settled y
          rw [e1] at this
          exact (congrArg Prod.fst (this.symm.trans h2))
        · exact e1
      · rcases hA : scratchRead cfg (loadSlot cfg (writeBitOp readScratchpadByte 0 5 0) s4) with ⟨x, ex⟩
        rcases hB : scratchRead cfg (sendMatch s3.laddr s3) with ⟨y, ey⟩
        rw [hA, hB] at e1 e2
        simp only at e1 e2
        subst e2
        rcases ex with _ | e
        · have := decodeScratch_settled x; have h2 := decodeScratch_settled y
          rw [e1] at this
          show (decodeScratch x).2 = (decodeScratch y).2
          exact (congrArg Prod.snd (this.symm.trans h2) : _)
        · rfl
  have h1 := runMicroOps_resetOp cfg b 1 [.setMeasSlot] (fun s => { s with measSlot := s.lslot }) (fun _ => rfl)
      (fun _ => rfl) (fun _ => rfl) (writeBitOp 0x55 0 2 0)
      ([1,2,3,4,5,6,7].map (writeBitOp 0x55 0 2) ++ ((addrOrder.flatMap fun k => writeByteOps (addrByte s.laddr
          k) (BitVec.ofNat 4 (k + 1)) 2) ++ (writeByteOps convertByte 0 2 ++ ([waitOp 3] ++ (resetOp [] 4 ::
          (sendMatchOps s.laddr 4 ++ scratchReadOps [.validatedDecode] 5)))))) (n + 234) s hbs hs
  have e0 : measureOps s.laddr = resetOp [.setMeasSlot] 1 :: (writeBitOp 0x55 0 2 0 :: ([1,2,3,4,5,6,7].map
      (writeBitOp 0x55 0 2) ++ ((addrOrder.flatMap fun k => writeByteOps (addrByte s.laddr k) (BitVec.ofNat 4 (k
      + 1)) 2) ++ (writeByteOps convertByte 0 2 ++ ([waitOp 3] ++ (resetOp [] 4 :: (sendMatchOps s.laddr 4 ++
      scratchReadOps [.validatedDecode] 5))))))) := by
    simp only [measureOps, sendMatchOps, List.append_assoc, List.cons_append, List.nil_append]
    rfl
  rw [e0]
  refine (congrArg settled h1).trans ?_
  unfold measureTransaction
  rcases hq : busReset cfg { s with measSlot := s.lslot } with ⟨_ | _, s1⟩
  · rfl
  · simp only
    have hs1 : s1.busy = true ∧ s1.laddr = s.laddr := by
      have := congrArg Prod.snd hq
      simp only at this
      rw [← this]
      exact ⟨hbs, rfl⟩
    obtain ⟨s2, h2, hc2, hb2, hl2⟩ := runMicroOps_sendMatchOps cfg b s.laddr 2 (writeBitOp convertByte 0 2 0)
      ([1,2,3,4,5,6,7].map (writeBitOp convertByte 0 2) ++ ([waitOp 3] ++ (resetOp [] 4 :: (sendMatchOps s.laddr
          4 ++ scratchReadOps [.validatedDecode] 5))))
      (n + 162) (loadSlot cfg (writeBitOp 0x55 0 2 0) { s1 with uix := s1.uix + 1 }) hs1.1
    have h3 := runMicroOps_writeByteOps cfg b (n + 154) convertByte 0 2 (waitOp 3) (resetOp [] 4 :: (sendMatchOps
        s.laddr 4 ++ scratchReadOps [.validatedDecode] 5))
       (loadSlot cfg (writeBitOp convertByte 0 2 0) s2) hb2
    have e3 : writeByteOps convertByte 0 2 ++ waitOp 3 :: (resetOp [] 4 :: (sendMatchOps s.laddr 4 ++
        scratchReadOps [.validatedDecode] 5)) = writeBitOp convertByte 0 2 0 :: ([1,2,3,4,5,6,7].map (writeBitOp
        convertByte 0 2) ++ ([waitOp 3] ++ (resetOp [] 4 :: (sendMatchOps s.laddr 4 ++ scratchReadOps
        [.validatedDecode] 5)))) := by
      simp only [writeByteOps, bitOrder, List.map, List.cons_append, List.nil_append]
    rw [e3, Nat.add_assoc n 154 8] at h3
    have hl : s2.laddr = s.laddr := by rw [hl2, loadSlot_laddr]; exact hs1.2
    obtain ⟨Z, hZ⟩ : ∃ Z, Z = loadSlot cfg (waitOp 3) (afterBytes [convertByte] (loadSlot cfg (writeBitOp
        convertByte 0 2 0) s2)) := ⟨_, rfl⟩
    rw [← hZ] at h3
    have hZb : Z.busy = true := by rw [hZ]; simpa using hb2
    have hZl : Z.laddr = s.laddr := by rw [hZ]; simpa [afterBytes] using hl
    have hZc : settled Z = busWriteByte 0x44 (settled s2) := by
        rw [hZ, busWriteByte_eq]
        simp [settled, afterBytes, goIdle, sequencerRest, loadSlot, convertByte]
    have h4 := runMicroOps_waitOp cfg b 3 (resetOp [] 4) (sendMatchOps s.laddr 4 ++ scratchReadOps
        [.validatedDecode] 5) (n + 153) Z hZb
    obtain ⟨Y, hY⟩ : ∃ Y, Y = loadSlot cfg (resetOp [] 4) { busWait cfg Z with uix := Z.uix + 1 } := ⟨_, rfl⟩
    rw [← hY] at h4
    have hYb : Y.busy = true := by rw [hY]; exact hZb
    have hYl : Y.laddr = s.laddr := by rw [hY]; exact hZl
    have hYs : Y.sphase ≠ .recover := by rw [hY]; exact (show Phase.low ≠ Phase.recover by decide)
    have hYc : settled Y = settled (busWait cfg (busWriteByte 0x44 (sendMatch s1.laddr s1))) := by
      have e1 : settled Y = busWait cfg (settled Z) := by rw [hY]; rfl
      rw [e1, hZc, hc2, ← sendMatch_settled, settled_loadSlot, settled_uix, hs1.2, sendMatch_settled,
          busWriteByte_settled]
      rfl
    have h5 := hR2 Y hYb hYs hYl
    have h6 := (congrArg settled h4).trans h5
    have h7 := (congrArg settled h3).trans h6
    have h8 := (congrArg settled h2).trans h7
    refine Eq.trans ?_ (h8.trans ?_)
    · rw [Nat.add_assoc n 162 72]
      congr 1
    have hgo : ∀ x : State, settled (endBody cfg b (secondHalf cfg x)) = settled (endBody cfg b (secondHalf cfg
        (settled x))) := by
      intro x
      rw [secondHalf_settled]
      exact endBody_congr cfg b hb (settled_settled _).symm rfl
    rw [hgo, hYc, ← hgo]
    apply congrArg
    apply congrArg
    unfold secondHalf
    rcases busReset cfg (busWait cfg (busWriteByte 0x44 (sendMatch s1.laddr s1))) with ⟨_ | _, z⟩
    · rfl
    · simp only [afterMatch, tailBody]
      generalize scratchRead cfg (sendMatch z.laddr z) = R
      rcases R with ⟨w, _ | e⟩
      · simp only
      · rfl
end Sys2Proof.Machine
end

