-- ==== Sys2Proof/Laws/Answers.lean ====
section
/-! SUPPORT. The bus environment's answers in what read slots return: a byte's bits and a scratchpad's, each the
answer to the history the earlier reads have left. -/

namespace Sys2Proof.Machine
open Pseudo

/-! ### A byte -/

theorem readNext_iterate (cfg : Config) (s : State) (k : Nat) :
    (readNext cfg)^[k] s =
      { s with
        hist := s.hist ++ (List.range k).map fun i => BusEvent.read (readAnswer cfg s i)
        choice := s.choice + k } := by
  induction k with
  | zero => simp
  | succ k ih =>
    have h : readAnswer cfg s k = (busReadBit cfg ((readNext cfg)^[k] s)).1 := rfl
    rw [Function.iterate_succ_apply', List.range_succ, List.map_append, ← List.append_assoc]
    rw [ih] at h ⊢
    simp [readNext, h, busReadBit, Nat.add_assoc]

theorem readAnswer_eq (cfg : Config) (s : State) (k : Nat) :
    readAnswer cfg s k =
      cfg.readBit (s.hist ++ (List.range k).map fun i => BusEvent.read (readAnswer cfg s i)) (s.choice + k) := by
  conv_lhs => rw [readAnswer, readNext_iterate]
  rfl

theorem readEvents_eq (v : Byte) : readEvents v = (List.range 8).map fun i => BusEvent.read (v.getLsbD i) := rfl

theorem readEvents_length (v : Byte) : (readEvents v).length = 8 := rfl

/-- `BusReadByte()` is the byte the bus environment answers, and eight more events (40_bus_primitives.md R104). -/
theorem busReadByte_answers (cfg : Config) (s : State) :
    ∃ v, ByteAnswers cfg s.hist s.choice v ∧
      busReadByte cfg s = (v, { s with hist := s.hist ++ readEvents v, choice := s.choice + 8 }) := by
  have hbits : ∀ i, i < 8 → (busReadByte cfg s).1.getLsbD i = readAnswer cfg s i := by
    intro i hi
    exact ((busReadByte_fold cfg s 8 (by omega)).2 i).trans (by simp [hi])
  have htake : ∀ i, i ≤ 8 → (readEvents (busReadByte cfg s).1).take i =
      (List.range i).map fun j => BusEvent.read (readAnswer cfg s j) := by
    intro i hi
    rw [readEvents_eq, ← List.map_take, List.take_range, Nat.min_eq_left hi]
    apply List.map_congr_left
    intro j hj
    rw [hbits j (by have := List.mem_range.mp hj; omega)]
  refine ⟨(busReadByte cfg s).1, ?_, ?_⟩
  · intro i hi
    rw [hbits i hi, htake i (by omega)]
    exact readAnswer_eq cfg s i
  · refine Prod.ext rfl ?_
    have h := htake 8 (by omega)
    rw [List.take_of_length_le (by rw [readEvents_length])] at h
    rw [h, busReadByte_eq]
    exact readNext_iterate cfg s 8

/-! ### A scratchpad -/

/-- Bytes read one after the other, each answered after the ones before it. -/
def BytesAnswer (cfg : Config) : List BusEvent → Nat → List Byte → Prop
  | _, _, [] => True
  | h, c, v :: vs => ByteAnswers cfg h c v ∧ BytesAnswer cfg (h ++ readEvents v) (c + 8) vs

theorem foldl_readScratchByte_answers (cfg : Config) (ks : List (Fin 9)) (s : State) :
    ∃ vs : List Byte, vs.length = ks.length ∧ BytesAnswer cfg s.hist s.choice vs ∧
      ks.foldl (fun s k => readScratchByte cfg k s) s =
        { s with
          scratch := (ks.zip vs).foldl (fun sp kv => sp.set kv.1 kv.2) s.scratch
          hist := s.hist ++ vs.flatMap readEvents
          choice := s.choice + 8 * vs.length } := by
  induction ks generalizing s with
  | nil => exact ⟨[], rfl, trivial, by simp⟩
  | cons k ks ih =>
    obtain ⟨v, hv, h⟩ := busReadByte_answers cfg s
    obtain ⟨vs, hl, hvs, hf⟩ := ih (readScratchByte cfg k s)
    have hr : readScratchByte cfg k s =
        { s with scratch := s.scratch.set k v, hist := s.hist ++ readEvents v, choice := s.choice + 8 } := by
      simp [readScratchByte, h]
    refine ⟨v :: vs, by simp [hl], ⟨hv, ?_⟩, ?_⟩
    · rw [hr] at hvs
      exact hvs
    · rw [List.foldl_cons, hf, hr]
      simp [List.append_assoc, Nat.add_assoc, Nat.mul_add, Nat.add_comm 8]

theorem bytesAnswer_bit (cfg : Config) (vs : List Byte) (h : List BusEvent) (c : Nat) (hvs : BytesAnswer cfg h c vs)
    (j : Nat) (hj : j < 8 * vs.length) :
    (vs.getD (j / 8) 0).getLsbD (j % 8) = cfg.readBit (h ++ (vs.flatMap readEvents).take j) (c + j) := by
  induction vs generalizing h c j with
  | nil => simp at hj
  | cons v vs ih =>
    obtain ⟨hv, hvs⟩ := hvs
    by_cases h8 : j < 8
    · have h0 : j / 8 = 0 := by omega
      have hm : j % 8 = j := by omega
      rw [h0, hm, List.flatMap_cons, List.take_append_of_le_length (by rw [readEvents_length]; omega)]
      exact hv j h8
    · obtain ⟨m, rfl⟩ : ∃ m, j = (readEvents v).length + m := ⟨j - 8, by rw [readEvents_length]; omega⟩
      have h3 := ih _ _ hvs m (by simp only [List.length_cons, readEvents_length] at hj; omega)
      rw [List.flatMap_cons, List.take_length_add_append, ← List.append_assoc, readEvents_length]
      rw [show (8 + m) / 8 = m / 8 + 1 by omega, show (8 + m) % 8 = m % 8 by omega, List.getD_cons_succ, h3,
        Nat.add_assoc]

/-- Nine bytes into a scratchpad. -/
theorem vector_of_nine (vs : List Byte) (hl : vs.length = 9) (sp0 : Vector Byte 9) :
    ((([0, 1, 2, 3, 4, 5, 6, 7, 8] : List (Fin 9)).zip vs).foldl (fun sp kv => sp.set kv.1 kv.2) sp0).toList =
      vs := by
  obtain ⟨⟨a⟩, ha⟩ := sp0
  match vs, hl with
  | [_, _, _, _, _, _, _, _, _], _ =>
    match a, ha with
    | [_, _, _, _, _, _, _, _, _], _ => rfl

/-- `ScratchRead()` in full: the bytes the bus environment answers, then the check (41_rom_function.md R135). -/
theorem scratchRead_answers (cfg : Config) (s : State) :
    ∃ sp, ScratchAnswers cfg (s.hist ++ writeEvents 0xBE) s.choice sp ∧
      scratchRead cfg s = checkScratch
        { s with
          scratch := sp
          hist := s.hist ++ writeEvents 0xBE ++ scratchEvents sp
          choice := s.choice + 72 } := by
  obtain ⟨vs, hl, hvs, hf⟩ := foldl_readScratchByte_answers cfg [0, 1, 2, 3, 4, 5, 6, 7, 8] (busWriteByte 0xBE s)
  have hl9 : vs.length = 9 := hl
  have hto := vector_of_nine vs hl9 s.scratch
  rw [busWriteByte_eq] at hf hvs
  obtain ⟨sp, hsp⟩ : ∃ sp, sp = (([0, 1, 2, 3, 4, 5, 6, 7, 8] : List (Fin 9)).zip vs).foldl
    (fun sp kv => sp.set kv.1 kv.2) s.scratch := ⟨_, rfl⟩
  rw [← hsp] at hto
  refine ⟨sp, ?_, ?_⟩
  · intro j hj
    unfold scratchBit scratchEvents
    rw [hto]
    exact bytesAnswer_bit cfg vs _ _ hvs j (by omega)
  · unfold scratchRead
    rw [busWriteByte_eq, hf, hsp.symm]
    unfold scratchEvents
    rw [hto, hl9]

end Sys2Proof.Machine
end

