-- ==== Sys2Proof/Laws/Ops.lean ====
section
/-! SUPPORT. What each shared operation can do, said once: the fields it leaves, where a command ends, and the three
arms of an offered word. Later proofs cite these instead of unfolding the operations. -/

namespace Sys2Proof.Machine

/-! ### What the controller never writes -/

/-- The fields no effect, slot or command end writes: they belong to the host's accesses and to acceptance. -/
structure Kept (s t : State) : Prop where
  ovr : t.ovr = s.ovr
  addr0 : t.addr0 = s.addr0
  addr1 : t.addr1 = s.addr1
  lop : t.lop = s.lop
  limm : t.limm = s.limm
  laddr : t.laddr = s.laddr
  lslot : t.lslot = s.lslot
  dqSync : t.dqSync = s.dqSync
  devLow : t.devLow = s.devLow
  rdata : t.rdata = s.rdata
  agenda : t.agenda = s.agenda
  turn : t.turn = s.turn

theorem Kept.refl (s : State) : Kept s s := by constructor <;> rfl

theorem Kept.trans {s t u : State} (h : Kept s t) (k : Kept t u) : Kept s u where
  ovr := k.ovr.trans h.ovr
  addr0 := k.addr0.trans h.addr0
  addr1 := k.addr1.trans h.addr1
  lop := k.lop.trans h.lop
  limm := k.limm.trans h.limm
  laddr := k.laddr.trans h.laddr
  lslot := k.lslot.trans h.lslot
  dqSync := k.dqSync.trans h.dqSync
  devLow := k.devLow.trans h.devLow
  rdata := k.rdata.trans h.rdata
  agenda := k.agenda.trans h.agenda
  turn := k.turn.trans h.turn

theorem checkScratch_kept (s : State) : Kept s (checkScratch s).1 := by constructor <;> rfl

theorem decodeScratch_kept (s : State) : Kept s (decodeScratch s).1 := by
  unfold decodeScratch
  split <;> constructor <;> rfl

theorem runEffect_kept (cfg : Config) (e : Effect) (s : State) : Kept s (runEffect cfg e s).1 := by
  cases e
  case scratchCheck => exact checkScratch_kept s
  case validatedDecode => exact decodeScratch_kept s
  all_goals constructor <;> rfl

theorem runEffects_kept (cfg : Config) (es : List Effect) (s : State) : Kept s (runEffects cfg es s).1 := by
  induction es generalizing s with
  | nil => exact Kept.refl s
  | cons e es ih =>
    have h := runEffect_kept cfg e s
    unfold runEffects
    split <;> rename_i s' hq <;> rw [hq] at h
    · exact h.trans (ih s')
    · exact h

theorem answerSlot_kept (cfg : Config) (op : SlotOp) (s : State) : Kept s (answerSlot cfg op s) := by
  cases op <;> simp only [answerSlot] <;> first | exact Kept.refl s | (split <;> constructor <;> rfl)

theorem recordSlot_kept (cfg : Config) (op : SlotOp) (s : State) : Kept s (recordSlot cfg op s) := by
  cases op <;> constructor <;> rfl

theorem loadSlot_kept (cfg : Config) (op : MicroOp) (s : State) : Kept s (loadSlot cfg op s) := by
  constructor <;> rfl

theorem goIdle_kept (s : State) : Kept s (goIdle s) := by constructor <;> rfl

theorem completeCommand_kept (cfg : Config) (b : Body) (s : State) : Kept s (completeCommand cfg b s) :=
  (runEffects_kept cfg b.always s).trans (goIdle_kept _)

theorem failCommand_kept (cfg : Config) (b : Body) (e : Err) (s : State) : Kept s (failCommand cfg b e s) := by
  have h : Kept s { s with err := e } := by constructor <;> rfl
  exact h.trans (completeCommand_kept cfg b _)

theorem endMicroOp_kept (cfg : Config) (b : Body) (op : MicroOp) (rest : List MicroOp) (s : State) :
    Kept s (endMicroOp cfg b op rest s) := by
  have h := (recordSlot_kept cfg op.slot s).trans (runEffects_kept cfg op.post _)
  unfold endMicroOp
  split <;> rename_i s' hq <;> rw [hq] at h
  · exact h.trans (failCommand_kept cfg b _ _)
  · have hu : Kept s' { s' with uix := s'.uix + 1 } := by constructor <;> rfl
    split
    · exact h.trans (completeCommand_kept cfg b s')
    · exact h.trans (hu.trans (loadSlot_kept cfg _ _))

theorem stepMicroOp_kept (cfg : Config) (b : Body) (op : MicroOp) (rest : List MicroOp) (s : State) :
    Kept s (stepMicroOp cfg b op rest s) :=
  ((runEffects_kept cfg op.pre s).trans (answerSlot_kept cfg op.slot _)).trans (endMicroOp_kept cfg b op rest _)

theorem runMicroOps_kept (cfg : Config) (b : Body) (n : Nat) (ops : List MicroOp) (s : State) :
    Kept s (runMicroOps cfg b n ops s) := by
  induction n generalizing ops s with
  | zero => exact Kept.refl s
  | succ n ih =>
    cases ops with
    | nil => exact completeCommand_kept cfg b s
    | cons op rest =>
      simp only [runMicroOps]
      split
      · exact (stepMicroOp_kept cfg b op rest s).trans (ih rest _)
      · exact stepMicroOp_kept cfg b op rest s

/-- A turn on a command writes none of the fields of the host's side. -/
theorem runBody_kept (cfg : Config) (b : Body) (s : State) : Kept s (runBody cfg b s) := by
  unfold runBody
  split
  · exact runMicroOps_kept cfg b _ _ s
  · exact Kept.refl s

/-! ### BUSY -/

theorem runEffect_busy (cfg : Config) (e : Effect) (s : State) : (runEffect cfg e s).1.busy = s.busy := by
  cases e
  case validatedDecode => simp only [runEffect, decodeScratch]; split <;> rfl
  all_goals rfl

theorem runEffects_busy (cfg : Config) (es : List Effect) (s : State) : (runEffects cfg es s).1.busy = s.busy := by
  induction es generalizing s with
  | nil => rfl
  | cons e es ih =>
    have h := runEffect_busy cfg e s
    unfold runEffects
    split <;> rename_i hq
    · rw [ih, ← h, hq]
    · rw [← h, hq]

theorem answerSlot_busy (cfg : Config) (op : SlotOp) (s : State) : (answerSlot cfg op s).busy = s.busy := by
  cases op <;> simp only [answerSlot] <;> split <;> rfl

theorem recordSlot_busy (cfg : Config) (op : SlotOp) (s : State) : (recordSlot cfg op s).busy = s.busy := by
  cases op <;> rfl

/-- A micro-operation of a command in flight either goes on to the next, or leaves the controller idle. -/
theorem stepMicroOp_cases (cfg : Config) (b : Body) (op : MicroOp) (rest : List MicroOp) (s : State)
    (hb : s.busy = true) :
    (∃ next r t, rest = next :: r ∧ t.busy = true ∧ stepMicroOp cfg b op rest s = loadSlot cfg next t) ∨
      ∃ t, stepMicroOp cfg b op rest s = goIdle t := by
  unfold stepMicroOp endMicroOp
  split
  · exact .inr ⟨_, rfl⟩
  · rename_i s' hq
    have hs' : s'.busy = true := by
      have h := congrArg (fun r => r.1.busy) hq
      simpa only [runEffects_busy, recordSlot_busy, answerSlot_busy, hb] using h.symm
    cases rest with
    | nil => exact .inr ⟨_, rfl⟩
    | cons next r => exact .inl ⟨next, r, { s' with uix := s'.uix + 1 }, rfl, hs', rfl⟩

/-- Enough controller steps end a command, and the controller is then idle. -/
theorem runMicroOps_ends (cfg : Config) (b : Body) (n : Nat) (ops : List MicroOp) (s : State)
    (hb : s.busy = true) (hn : ops.length < n) : ∃ t, runMicroOps cfg b n ops s = goIdle t := by
  induction n generalizing ops s with
  | zero => simp at hn
  | succ n ih =>
    cases ops with
    | nil => exact ⟨_, rfl⟩
    | cons op rest =>
      simp only [runMicroOps]
      rcases stepMicroOp_cases cfg b op rest s hb with ⟨next, r, t, -, ht, h⟩ | ⟨t, h⟩
      · rw [if_pos (by rw [h]; exact ht)]
        exact ih rest _ (by rw [h]; exact ht) (by simpa using hn)
      · rw [if_neg (by simp [h])]
        exact ⟨t, h⟩

/-- A turn of a command that has just started runs its whole body. -/
theorem runBody_started (cfg : Config) (b : Body) (s : State) (h : Started s) :
    runBody cfg b s = runMicroOps cfg b (b.ops.length + 1) b.ops s := by
  obtain ⟨h1, h2, h3, -⟩ := h
  simp [runBody, h1, turnSteps, h3, opsLeft, h2]

theorem runBody_idle (cfg : Config) (b : Body) (s : State) (h : s.busy = false) : runBody cfg b s = s := by
  simp [runBody, h]

/-- A body of effects that cannot fail, with no slot, is one controller step (60_exceptions.md R222). -/
theorem runBody_instant (cfg : Config) (es : List Effect) (s s' : State) (h : Started s)
    (he : runEffects cfg es s = (s', none)) :
    runBody cfg { ops := instantOps es } s = goIdle s' := by
  rw [runBody_started _ _ _ h]
  simp [instantOps, runMicroOps, stepMicroOp, endMicroOp, runEffects, answerSlot, recordSlot, he, completeCommand]

/-- The same for one that fails. -/
theorem runBody_instant_fail (cfg : Config) (es : List Effect) (e : Err) (s s' : State) (h : Started s)
    (he : runEffects cfg es s = (s', some e)) :
    runBody cfg { ops := instantOps es } s = goIdle { s' with err := e } := by
  rw [runBody_started _ _ _ h]
  simp [instantOps, runMicroOps, stepMicroOp, endMicroOp, runEffects, answerSlot, recordSlot, he, completeCommand,
    failCommand]

/-! ### Slots -/

theorem firstPhase_ne_recover (t : Timing) (op : SlotOp) : (firstPhase t op).1 ≠ .recover := by
  cases op <;> simp [firstPhase]

theorem loadSlot_ne_recover (cfg : Config) (op : MicroOp) (s : State) : (loadSlot cfg op s).sphase ≠ .recover :=
  firstPhase_ne_recover cfg.timing op.slot

/-! ### The host's port -/

theorem offerCommand_busy (cfg : Config) (w : Word) (s : State) :
    offerCommand cfg true w s = { s with ovr := true } := rfl

theorem offerCommand_accept (cfg : Config) (w : Word) (i : Instr) (s : State) (h : decodeCmd w = .ok i) :
    offerCommand cfg false w s = acceptCommand cfg i s := by
  simp [offerCommand, h]

theorem offerCommand_refuse (cfg : Config) (w : Word) (e : DecodeError) (s : State) (h : decodeCmd w = .error e) :
    offerCommand cfg false w s = refuseCommand s := by
  simp [offerCommand, h]

theorem loadFirst_busy (cfg : Config) (b : Body) (s : State) : (loadFirst cfg b s).busy = s.busy := by
  unfold loadFirst
  split <;> rfl

theorem loadFirst_kept (cfg : Config) (b : Body) (s : State) : Kept s (loadFirst cfg b s) := by
  unfold loadFirst
  split
  · exact Kept.refl s
  · exact loadSlot_kept cfg _ s

theorem acceptCommand_busy (cfg : Config) (i : Instr) (s : State) : (acceptCommand cfg i s).busy = true :=
  loadFirst_busy cfg _ _

/-- A host read changes `rdata` and the choice counter only. -/
theorem hostRead_eq (cfg : Config) (a : Nat) (s t : State) :
    ∃ v n, hostRead cfg a s t = { t with rdata := v, choice := n } := ⟨_, _, rfl⟩

end Sys2Proof.Machine
end

