-- ==== Sys2Proof/Laws/PerInstr.lean ====
section
/-! SUPPORT. Laws per instruction: the family EncodingTable says that an instruction's code is its row of
opcode_table.json. -/

namespace Sys2Proof.Laws.EncodingTable

/-- The code of an instruction is its row's: a command word under the mask 0xFFFF00FF is its opcode, with IMM in bits
[15:8] (30_encoding.md R83), and a bus byte is the one R86 gives. -/
def Statement (i : Instr) : Prop :=
  match encode i with
  | .cmd w => w &&& 0xFFFF00FF = (Machine.opOf i).setWidth 32 ∧ w.extractLsb' 8 8 = Machine.immOf i
  | .bus v => decodeBusByte v = .ok i

/-- The word of any opcode and immediate under the mask. -/
theorem encodeCmd_mask (op : BitVec 4) (imm : Byte) : encodeCmd op imm &&& 0xFFFF00FF = op.setWidth 32 := by
  unfold encodeCmd
  apply BitVec.eq_of_getLsbD_eq
  intro i hi
  interval_cases i <;> simp

/-- The immediate of any opcode's word. -/
theorem encodeCmd_imm (op : BitVec 4) (imm : Byte) : (encodeCmd op imm).extractLsb' 8 8 = imm := by
  unfold encodeCmd
  apply BitVec.eq_of_getLsbD_eq
  intro i hi
  interval_cases i <;> simp

theorem nop (imm : Byte) : Statement (.nop imm) := ⟨encodeCmd_mask _ imm, encodeCmd_imm _ imm⟩

theorem reset (imm : Byte) : Statement (.reset imm) := ⟨encodeCmd_mask _ imm, encodeCmd_imm _ imm⟩

theorem writeBit (imm : Byte) : Statement (.writeBit imm) := ⟨encodeCmd_mask _ imm, encodeCmd_imm _ imm⟩

theorem readBit (imm : Byte) : Statement (.readBit imm) := ⟨encodeCmd_mask _ imm, encodeCmd_imm _ imm⟩

theorem writeByte (imm : Byte) : Statement (.writeByte imm) := ⟨encodeCmd_mask _ imm, encodeCmd_imm _ imm⟩

theorem readByte (imm : Byte) : Statement (.readByte imm) := ⟨encodeCmd_mask _ imm, encodeCmd_imm _ imm⟩

theorem select (imm : Byte) : Statement (.select imm) := ⟨encodeCmd_mask _ imm, encodeCmd_imm _ imm⟩

theorem convert (imm : Byte) : Statement (.convert imm) := ⟨encodeCmd_mask _ imm, encodeCmd_imm _ imm⟩

theorem readScratchpad (imm : Byte) : Statement (.readScratchpad imm) := ⟨encodeCmd_mask _ imm, encodeCmd_imm _ imm⟩

theorem crcInit (imm : Byte) : Statement (.crcInit imm) := ⟨encodeCmd_mask _ imm, encodeCmd_imm _ imm⟩

theorem crcByte (imm : Byte) : Statement (.crcByte imm) := ⟨encodeCmd_mask _ imm, encodeCmd_imm _ imm⟩

theorem decode (imm : Byte) : Statement (.decode imm) := ⟨encodeCmd_mask _ imm, encodeCmd_imm _ imm⟩

theorem waitConv (imm : Byte) : Statement (.waitConv imm) := ⟨encodeCmd_mask _ imm, encodeCmd_imm _ imm⟩

theorem measure (imm : Byte) : Statement (.measure imm) := ⟨encodeCmd_mask _ imm, encodeCmd_imm _ imm⟩

theorem advance (imm : Byte) : Statement (.advance imm) := ⟨encodeCmd_mask _ imm, encodeCmd_imm _ imm⟩

theorem cycle (imm : Byte) : Statement (.cycle imm) := ⟨encodeCmd_mask _ imm, encodeCmd_imm _ imm⟩

theorem matchRom : Statement .matchRom := rfl

theorem convertT : Statement .convertT := rfl

theorem readScratchpadFn : Statement .readScratchpadFn := rfl

end Sys2Proof.Laws.EncodingTable
end

