-- ==== Sys2Proof/Tests/Slice0.lean ====
section
/-! SUPPORT. Tests with expected values from the spec (95_test_vectors.md, named by their ids) and witnesses for the
hypotheses of the statements. -/

namespace Sys2Proof.Tests
open Machine

/-! ### Helpers -/

/-- Short slot times. -/
def shortTiming : Timing := ⟨4, 3, 2, 1, 3, 3, 1, 1, 2, 2, 5⟩

/-- The addresses A0 and A1 (95_test_vectors.md section 1). -/
def addrA0 : Addr := 0x3400000F1E64FF28
def addrA1 : Addr := 0xA70504030201AA28

/-- A configuration whose bus answers from two scripts, one answer for each reset and each read slot so far. -/
def scripted (n : BitVec 8) (presences bits : List Bool) : Config where
  lastSlot := n
  sensorTable := fun i => if i = 0 then addrA0 else addrA1
  clkHz := 1
  timing := shortTiming
  presence := fun h _ => presences.getD (slotCounts h).1 false
  readBit := fun h _ => bits.getD (slotCounts h).2.2.1 true
  freeRead := fun n => BitVec.ofNat 32 n

/-- The bits of bytes in bus order. -/
def busBits (bytes : List Byte) : List Bool := bytes.flatMap fun v => bitOrder.map v.getLsbD

/-- A scratchpad from its bytes. -/
def pad (b0 b1 b2 b3 b4 b5 b6 b7 b8 : Byte) : Vector Byte 9 := #v[b0, b1, b2, b3, b4, b5, b6, b7, b8]

/-- A command word written to CMD, and the command's whole turn. -/
def runWord (cfg : Config) (w : Word) (s : State) : State :=
  let t := doAct cfg (.access (.write 4 0x00 w)) s
  runBody cfg t.body t

/-- The state right after a command word has been written to CMD from reset, the bus being any. -/
def accepted (w : Word) : State := hostAccess Config.owtc (.write 4 0x00 w) State.reset State.reset

/-! ### Well-formedness: each check refuses -/

theorem test_rsv0_ill_formed : Code.wellFormed (.cmd 0x00000010) = false := by decide
theorem test_rsv1_ill_formed : Code.wellFormed (.cmd 0x00010001) = false := by decide
theorem test_bus_byte_ill_formed : Code.wellFormed (.bus 0x33) = false := by decide
theorem test_halfword_ill_formed : Access.wellFormed (.read 2 0x04) = false := by decide
theorem test_misaligned_ill_formed : Access.wellFormed (.write 4 0x06 0) = false := by decide
theorem test_outside_window_ill_formed : Access.wellFormed (.read 4 0x100) = false := by decide
theorem test_last_word_well_formed : Access.wellFormed (.writeRead 4 0xFC 0) = true := by decide
theorem test_cycle_access_ill_formed :
    Act.wellFormed (.cycle ⟨false, false, some (.read 1 0)⟩) = false := by decide
theorem test_rst_access_ill_formed : Act.wellFormed (.rst (some (.read 4 0x101))) = false := by decide

/-! ### Decoding: words written out from the encoding (R83; E1 to E8, section 3.2) -/

theorem test_decode_primitives :
    decode (.cmd 0b00000000000000001010101100000000) = .ok (.nop 0xAB) ∧
    decode (.cmd 0b00000000000000000000000000000001) = .ok (.reset 0) ∧
    decode (.cmd 0b00000000000000000000000100000010) = .ok (.writeBit 1) ∧
    decode (.cmd 0b00000000000000000000000000000011) = .ok (.readBit 0) ∧
    decode (.cmd 0b00000000000000000100010000000100) = .ok (.writeByte 0x44) ∧
    decode (.cmd 0b00000000000000000000000000000101) = .ok (.readByte 0) := by decide

theorem test_decode_rom_function :
    decode (.cmd 0b00000000000000000000000100000110) = .ok (.select 1) ∧
    decode (.cmd 0b00000000000000000000000000000111) = .ok (.convert 0) ∧
    decode (.cmd 0b00000000000000000000000000001000) = .ok (.readScratchpad 0) ∧
    decode (.cmd 0b00000000000000000000000000001100) = .ok (.waitConv 0) := by decide

theorem test_decode_crc_decoder_scheduler :
    decode (.cmd 0b00000000000000000101101000001001) = .ok (.crcInit 0x5A) ∧
    decode (.cmd 0b00000000000000000000001000001010) = .ok (.crcByte 2) ∧
    decode (.cmd 0b00000000000000000000000000001011) = .ok (.decode 0) ∧
    decode (.cmd 0b00000000000000000000000000001101) = .ok (.measure 0) ∧
    decode (.cmd 0b00000000000000000000000000001110) = .ok (.advance 0) ∧
    decode (.cmd 0b00000000000000000000000000001111) = .ok (.cycle 0) := by decide

theorem test_decode_bus_bytes :
    decode (.bus 0b01010101) = .ok .matchRom ∧ decode (.bus 0b01000100) = .ok .convertT ∧
    decode (.bus 0b10111110) = .ok .readScratchpadFn := by decide

theorem test_decode_refuses :
    decode (.cmd 0x80000000) = .error .rsv1 ∧ decode (.cmd 0x00000080) = .error .rsv0 ∧
    decode (.bus 0xCC) = .error .noBusCommand := by decide

theorem test_decode_table_word :
    decodeTableWord 32 0x00000106 = some (.select 1) ∧ decodeTableWord 8 0xBE = some .readScratchpadFn := by decide

/-- 30_encoding.md R87: `SELECT TABLE` is 0x00000106, `LOADADDR` two writes. -/
theorem test_assembler :
    hostTurns none [.command (.select true), .loadAddr addrA0] =
      [⟨.access (.write 4 0x00 0x00000106), none⟩, ⟨.access (.write 4 0x10 0x1E64FF28), none⟩,
        ⟨.access (.write 4 0x14 0x3400000F), none⟩] := by decide

/-- 30_encoding.md R87: `CRC8 0x02` is `CRC_CLEAR!` then `CRC_BYTE! 0x02`, here with one read of the second POLL that
finds BUSY = 1. -/
theorem test_assembler_crc8 :
    hostTurns (some 0) [.crc8 [] [(0x02, [0])]] =
      [⟨.access (.write 4 0x00 0x00000009), some 0⟩, ⟨.idle, none⟩, ⟨.access (.read 4 0x04), some 0⟩,
        ⟨.access (.write 4 0x00 0x0000020A), some 0⟩, ⟨.access (.read 4 0x04), some 0⟩, ⟨.idle, none⟩,
        ⟨.access (.read 4 0x04), some 0⟩] := by decide

/-! ### Acceptance and the port (E6, E9 to E12, P5's order of checks) -/

theorem test_refused_word : (accepted 0x00000010).err = .illegalCmd ∧ (accepted 0x00000010).busy = false := by decide

theorem test_busy_drops_even_a_bad_word :
    let t := hostAccess Config.owtc (.write 4 0x00 0x00000010) (accepted 0x0000000E) (accepted 0x0000000E)
    t.ovr = true ∧ t.err = .ok := by decide

theorem test_ovr_clears :
    (hostAccess Config.owtc (.write 4 0x04 0x000000FF) { State.reset with ovr := true, presence := true }
      { State.reset with ovr := true, presence := true }) = { State.reset with presence := true } := by decide

theorem test_status_word :
    statusWord { State.reset with presence := true, crcOk := true, resValid := true } = 0x0000001A ∧
    statusWord { State.reset with err := .crcMismatch, presence := true } = 0x00000202 := by decide

theorem test_sched_word :
    schedWord (scripted 2 [] []) { State.reset with cursor := 2, measSlot := 1 } = 0x00030102 := by decide

/-! ### Commands, one step each -/

theorem test_nop_B13 :
    runWord (scripted 0 [] []) 0x0000AB00 { State.reset with err := .busAbsent } =
      { State.reset with limm := 0xAB } := by decide

theorem test_reset_B1_B2 :
    (runWord (scripted 0 [true] []) 0x00000001 State.reset).hist = [.reset true] ∧
    (runWord (scripted 0 [false] []) 0x00000001 State.reset).err = .busAbsent := by decide

theorem test_write_bit_E3_E4 :
    (runWord (scripted 0 [] []) 0x0000FF02 State.reset).hist = [.write true] ∧
    (runWord (scripted 0 [] []) 0x0000FE02 State.reset).hist = [.write false] := by decide

theorem test_read_bit_B5_B6 :
    (runWord (scripted 0 [] [false]) 0x00000003 { State.reset with rxbit := true }).rxbit = false ∧
    (runWord (scripted 0 [] [true]) 0x00000003 State.reset).rxbit = true := by decide

theorem test_write_byte_B8 :
    (runWord (scripted 0 [] []) 0x0000BE04 State.reset).hist =
      [.write false, .write true, .write true, .write true, .write true, .write true, .write false,
        .write true] := by decide

theorem test_read_byte_B10 :
    let t := runWord (scripted 0 [] [true, false, false, true, false, false, false, false]) 0x00000005 State.reset
    t.rxbyte = 0x09 ∧ t.rxbit = false := by decide

theorem test_read_byte_B12 :
    (runWord (scripted 0 [] [false, false, false, false, false, false, false, true]) 0x00000005
      State.reset).rxbyte = 0x80 := by decide

set_option maxRecDepth 100000 in
/-- F1 with F3: ADDR0 is rewritten while BUSY, and the bytes sent are still those of A0. -/
theorem test_select_F1_F3 :
    let cfg := scripted 0 [] []
    let t := doAct cfg (.access (.write 4 0x00 0x00000006))
      { State.reset with addr0 := 0x1E64FF28, addr1 := 0x3400000F }
    let u := doAct cfg (.access (.write 4 0x10 0)) t
    (runBody cfg u.body u).hist =
      writeEvents 0x55 ++ writeEvents 0x28 ++ writeEvents 0xFF ++ writeEvents 0x64 ++ writeEvents 0x1E
        ++ writeEvents 0x0F ++ writeEvents 0x00 ++ writeEvents 0x00 ++ writeEvents 0x34 := by decide

set_option maxRecDepth 100000 in
theorem test_select_table_F2 :
    (runWord (scripted 1 [] []) 0x00000106 { State.reset with cursor := 1 }).laddr = addrA1 := by decide

theorem test_convert_F4 :
    (runWord (scripted 0 [] []) 0x00000007 State.reset).hist = writeEvents 0x44 := by decide

theorem test_wait_conv_F5 :
    runWord (scripted 0 [] []) 0x0000000C State.reset =
      { State.reset with lop := 0xC, hist := [.wait 5] } := by decide

set_option maxRecDepth 100000 in
/-- SP25, read by READ_SCRATCHPAD. -/
theorem test_read_scratchpad_F6 :
    let t := runWord (scripted 0 [] (busBits [0x90, 0x01, 0x4B, 0x46, 0x7F, 0xFF, 0x0C, 0x10, 0x33])) 0x00000008
      State.reset
    scratch0Word t = 0x464B0190 ∧ scratch1Word t = 0x100CFF7F ∧ scratch2Word t = 0x33 ∧ t.crc = 0x33 ∧
      t.crcOk = true ∧ t.err = .ok ∧ t.tempQ4 = 0 := by decide

set_option maxRecDepth 100000 in
/-- SPBAD: the checksum of its first eight bytes is 0x70. -/
theorem test_read_scratchpad_F7 :
    let t := runWord (scripted 0 [] (busBits [0x91, 0x01, 0x4B, 0x46, 0x7F, 0xFF, 0x0C, 0x10, 0x33])) 0x00000008
      State.reset
    scratch0Word t = 0x464B0191 ∧ t.crc = 0x70 ∧ t.crcOk = false ∧ t.err = .crcMismatch := by decide

theorem test_crc_init_C15 : (runWord (scripted 0 [] []) 0x00005A09 State.reset).crc = 0x5A := by decide

theorem test_crc_byte_C16 : (runWord (scripted 0 [] []) 0x0000020A State.reset).crc = 0xBC := by decide

set_option maxRecDepth 100000 in
theorem test_crc_C9_C11_C13 :
    crc8 [0x02, 0x1C, 0xB8, 0x01, 0x00, 0x00, 0x00] = 0xA2 ∧
    crc8 [0x50, 0x05, 0x4B, 0x46, 0x7F, 0xFF, 0x0C, 0x10] = 0x1C ∧
    crc8 [0xFF, 0xFF, 0xFF, 0xFF, 0xFF, 0xFF, 0xFF, 0xFF, 0xFF] = 0x63 := by decide

set_option maxRecDepth 100000 in
theorem test_decode_D8 :
    let t := runWord (scripted 0 [] []) 0x0000000B
      { State.reset with scratch := pad 0x5E 0xFF 0x4B 0x46 0x1F 0xFF 0x0C 0x10 0xFA }
    t.tempQ4 = 0xFF58 ∧ t.res = 0 ∧ t.resValid = true ∧ t.crcOk = true := by decide

set_option maxRecDepth 100000 in
/-- A failed check keeps TEMP and clears RES_VALID. -/
theorem test_decode_D19 :
    let t := runWord (scripted 0 [] []) 0x0000000B
      { State.reset with
        scratch := pad 0x91 0x01 0x4B 0x46 0x7F 0xFF 0x0C 0x10 0x33
        tempQ4 := 0x0190
        resValid := true }
    t.tempQ4 = 0x0190 ∧ t.resValid = false ∧ t.crcOk = false ∧ t.err = .crcMismatch := by decide

theorem test_decoder_D2_D7_D17 :
    maskRaw 0x0191 2 = 0x0190 ∧ maskRaw 0xFF5E 1 = 0xFF5C ∧
    decodeTemp (pad 0x97 0x01 0x4B 0x46 0x9F 0xFF 0x0C 0x10 0xAA) = (0x0190, 0) := by decide

theorem test_advance_K1_K2 :
    (runWord (scripted 2 [] []) 0x0000000E State.reset).cursor = 1 ∧
    (runWord (scripted 2 [] []) 0x0000000E { State.reset with cursor := 2 }).cursor = 0 := by decide

theorem test_advance_K3_K4 :
    (runWord (scripted 0 [] []) 0x0000000E State.reset).cursor = 0 ∧
    (runWord (scripted 255 [] []) 0x0000000E { State.reset with cursor := 255 }).cursor = 0 := by decide

set_option maxRecDepth 100000 in
theorem test_measure_K5 :
    let t := runWord (scripted 0 [true, true] (busBits [0x90, 0x01, 0x4B, 0x46, 0x7F, 0xFF, 0x0C, 0x10, 0x33]))
      0x0000000D State.reset
    statusWord t = 0x0000001A ∧ tempWord t = 0x00030190 ∧ t.crc = 0x33 ∧ t.cursor = 0 ∧
      slotCounts t.hist = (2, 160, 72, 1) := by decide

set_option maxRecDepth 100000 in
theorem test_measure_K6 :
    let t := runWord (scripted 0 [false] []) 0x0000000D State.reset
    statusWord t = 0x00000100 ∧ t.hist = [.reset false] := by decide

set_option maxRecDepth 100000 in
theorem test_cycle_K10 :
    let t := runWord (scripted 2 [false] []) 0x0000000F { State.reset with cursor := 1 }
    t.err = .busAbsent ∧ t.measSlot = 1 ∧ t.cursor = 2 := by decide

/-- The bits of 0x44 on the bus (30_encoding.md R86). -/
theorem test_bus_byte_sent :
    (sendByteAlone (scripted 0 [] []) convertByte State.reset).hist =
      [.write false, .write false, .write true, .write false, .write false, .write false, .write true,
        .write false] := by decide

/-- X1: `rst` in the middle of MEASURE. -/
theorem test_rst_X1 :
    let t := doAct Config.owtc (.rst none)
      { State.reset with busy := true, lop := 0xD, uix := 7, hist := [.reset true], err := .busAbsent }
    t.busy = false ∧ t.err = .ok ∧ t.hist = [] ∧ t.dqOe = false := by decide

/-! ### Clock cycles -/

set_option maxRecDepth 100000 in
/-- Section 3.2: the default times at 1 MHz. -/
theorem test_default_timing :
    slotLength (Timing.default 1000000) .reset = 960 ∧ slotLength (Timing.default 1000000) (.write true) = 65 ∧
    slotLength (Timing.default 1000000) (.write false) = 70 ∧ slotLength (Timing.default 1000000) .read = 66 := by
  decide

/-- R101: a write-1 slot of one low and three released cycles after its acceptance. -/
theorem test_write_slot_waveform :
    let cfg := scripted 0 [] []
    let s := clock cfg { access := some (.write 4 0x00 0x00000102) } State.reset
    [0, 1, 2, 3, 4].map (fun k => ((clocks cfg (List.replicate k {}) s).dqOe,
      (clocks cfg (List.replicate k {}) s).busy)) =
      [(true, true), (false, true), (false, true), (false, true), (false, false)] := by decide

/-- R267: a read slot samples the pin two cycles before cycle `T_RL + T_MSR`, which is cycle 1 here. -/
theorem test_read_slot_sample :
    let cfg := scripted 0 [] []
    let s := clock cfg { access := some (.write 4 0x00 0x00000003) } State.reset
    (clocks cfg [{}, { devLow := true }, {}, {}, {}] s).rxbit = false ∧
    (clocks cfg [{}, {}, { devLow := true }, {}, {}] s).rxbit = true := by decide

/-- R270: a STATUS read two cycles after an accepted NOP returns BUSY = 0. -/
theorem test_nop_in_one_cycle :
    let cfg := scripted 0 [] []
    (clocks cfg [{ access := some (.write 4 0x00 0x00000000) }, {}, { access := some (.read 4 0x04) }]
      State.reset).rdata = 0 := by decide

/-! ### Steps -/

/-- The first instruction after reset, by step. -/
theorem test_step_runs_write_bit :
    step (State.reset.withFetchWord 32 0x00000102) =
      .next { State.reset with lop := 2, limm := 1, hist := [.write true] } := by rfl

theorem test_step_refuses_a_halfword :
    step { State.reset with agenda := [⟨.access (.read 2 0x04), none⟩] } =
      .refused (.accessNotExpressible 2 0x04) := by rfl

/-- A turn that ends the command's run after three slots: five are left. -/
theorem test_turn_limit :
    let cfg := scripted 0 [] []
    let t := runBody cfg (writeByteBody 0x55)
      { doAct cfg (.access (.write 4 0x00 0x00005504)) State.reset with turn := some 3 }
    t.busy = true ∧ t.uix = 3 ∧ t.hist = [.write true, .write false, .write true] := by decide

/-! ### Witnesses: states and operands that meet the hypotheses of each statement that has any -/

/-- `Started`, for one accepted word of each command (the hypothesis of the statements of their results). -/
theorem witness_started :
    Started (accepted 0x0000AB00) ∧ Started (accepted 0x00000001) ∧ Started (accepted 0x00000102) ∧
    Started (accepted 0x00000003) ∧ Started (accepted 0x00004404) ∧ Started (accepted 0x00000005) ∧
    Started (accepted 0x00000006) ∧ Started (accepted 0x00000007) ∧ Started (accepted 0x00000008) ∧
    Started (accepted 0x00005A09) ∧ Started (accepted 0x0000020A) ∧ Started (accepted 0x0000000B) ∧
    Started (accepted 0x0000000C) ∧ Started (accepted 0x0000000D) ∧ Started (accepted 0x0000000E) ∧
    Started (accepted 0x0000000F) := by
  refine ⟨?_, ?_, ?_, ?_, ?_, ?_, ?_, ?_, ?_, ?_, ?_, ?_, ?_, ?_, ?_, ?_⟩ <;>
    exact ⟨rfl, rfl, rfl, by decide⟩

theorem witness_DecodeOfEncodeIsIdentity : (Instr.select 0xFF).wellFormed = true := by decide

theorem witness_DecodableCodesAreTheWellFormedOnes :
    decode (.cmd 0x0000FF0F) = .ok (.cycle 0xFF) ∧ Code.wellFormed (.bus 0xBE) = true := by decide

/-- One word under each of the sixteen rows of the table. -/
theorem witness_MatchAndMaskSelectTheCommand :
    (0x0000AB00 : Word) &&& 0xFFFF00FF = 0x00000000 ∧ (0x00000001 : Word) &&& 0xFFFF00FF = 0x00000001 ∧
    (0x0000FF02 : Word) &&& 0xFFFF00FF = 0x00000002 ∧ (0x00000003 : Word) &&& 0xFFFF00FF = 0x00000003 ∧
    (0x00004404 : Word) &&& 0xFFFF00FF = 0x00000004 ∧ (0x00000005 : Word) &&& 0xFFFF00FF = 0x00000005 ∧
    (0x00000106 : Word) &&& 0xFFFF00FF = 0x00000006 ∧ (0x00000007 : Word) &&& 0xFFFF00FF = 0x00000007 ∧
    (0x00000008 : Word) &&& 0xFFFF00FF = 0x00000008 ∧ (0x00005A09 : Word) &&& 0xFFFF00FF = 0x00000009 ∧
    (0x0000020A : Word) &&& 0xFFFF00FF = 0x0000000A ∧ (0x0000000B : Word) &&& 0xFFFF00FF = 0x0000000B ∧
    (0x0000000C : Word) &&& 0xFFFF00FF = 0x0000000C ∧ (0x0000000D : Word) &&& 0xFFFF00FF = 0x0000000D ∧
    (0x0000000E : Word) &&& 0xFFFF00FF = 0x0000000E ∧ (0x0000FF0F : Word) &&& 0xFFFF00FF = 0x0000000F := by decide

theorem witness_StepRunsTheDecodedInstruction :
    decode (.cmd 0x0000000F) = .ok (.cycle 0) ∧ decode (.bus 0x55) = .ok .matchRom := by decide

/-- A silent host with a command in flight, a host turn with one, and one with none. -/
theorem witness_StepIsAHostActThenTheController :
    ((accepted 0x0000000D).agenda = [] ∧ (accepted 0x0000000D).busy = true) ∧
    ({ accepted 0x0000000D with agenda := [⟨.access (.read 4 0x04), some 3⟩] }.agenda =
        ⟨.access (.read 4 0x04), some 3⟩ :: [] ∧
      Act.wellFormed (.access (.read 4 0x04)) = true ∧
      (doAct Config.owtc (.access (.read 4 0x04)) { accepted 0x0000000D with turn := some 3 }).busy = true) ∧
    (State.reset.busy = false ∧ State.reset.slot ≠ .write) := by
  exact ⟨⟨rfl, rfl⟩, ⟨rfl, by decide, rfl⟩, rfl, by decide⟩

/-- The first and last offsets of the window are expressible; just outside it, between words, or with another size, an
access is not. -/
theorem witness_StepStopsOnlyOnInexpressibleAccesses :
    actPort (.access (.read 4 0x100)) = some (4, 0x100) ∧ ¬ (4 = 4 ∧ 0x100 % 4 = 0 ∧ 0x100 < 0x100) ∧
    actPort (.rst (some (.write 4 0x02 0))) = some (4, 0x02) ∧ ¬ (4 = 4 ∧ 0x02 % 4 = 0 ∧ 0x02 < 0x100) ∧
    actPort (.cycle ⟨false, false, some (.writeRead 2 0x00 0)⟩) = some (2, 0x00) ∧
    actPort (.access (.read 4 0x00)) = some (4, 0x00) ∧ (4 = 4 ∧ 0x00 % 4 = 0 ∧ 0x00 < 0x100) ∧
    actPort (.access (.write 4 0xFC 0)) = some (4, 0xFC) ∧ (4 = 4 ∧ 0xFC % 4 = 0 ∧ 0xFC < 0x100) := by decide

/-- The three arms of an offered word (also for RefusalSetsOnlyErr). -/
theorem witness_AcceptanceLatchesTheCommand :
    (accepted 0x0000000E).busy = true ∧
    (State.reset.busy = false ∧
      ((0x00000010 : Word).extractLsb' 4 4 ≠ 0 ∨ (0x00000010 : Word).extractLsb' 16 16 ≠ 0)) ∧
    ((0x80000000 : Word).extractLsb' 4 4 ≠ 0 ∨ (0x80000000 : Word).extractLsb' 16 16 ≠ 0) ∧
    (¬ ((0x0000FF06 : Word).extractLsb' 4 4 ≠ 0 ∨ (0x0000FF06 : Word).extractLsb' 16 16 ≠ 0)) ∧
    State.reset.turn = none := by
  refine ⟨rfl, ?_, ?_, ?_, rfl⟩ <;> decide

/-- Reads with BUSY = 0 and BUSY = 1 (for HostReadReturnsTheRegister and BusyReadsDrawOnlyTheUnspecifiedFields); every
clause on the offset has that offset as its value, 0x2C and 0xFC being the ends of the last. -/
theorem witness_reads :
    (hostAccess Config.owtc (.read 4 0x28) State.reset State.reset).busy = false ∧
    (hostAccess Config.owtc (.read 4 0x04) (accepted 0x0000000D) (accepted 0x0000000D)).busy = true ∧
    portAccessOk 4 0x2C = true ∧ portAccessOk 4 0xFC = true := ⟨rfl, rfl, by decide, by decide⟩

/-- An access while busy, and one to an idle OWTC that is no command word. -/
theorem witness_HostAccessesLeaveTheController :
    (accepted 0x0000000D).busy = true ∧
    ∀ (n : Nat) (v : Word),
      Access.write 4 0x10 7 ≠ .write n 0x00 v ∧ Access.write 4 0x10 7 ≠ .writeRead n 0x00 v :=
  ⟨rfl, fun _ _ => ⟨by simp, by simp⟩⟩

/-- MEASURE keeps the cursor, CYCLE moves it. -/
theorem witness_MeasureAndCycleOutcomes :
    Started (accepted 0x0000000D) ∧
    ((∃ imm, Instr.measure 0 = .measure imm) ∧ (accepted 0x0000000D).cursor = (accepted 0x0000000D).cursor) ∧
    ((∃ imm, Instr.cycle 0 = .cycle imm) ∧
      nextSlot Config.owtc (accepted 0x0000000F).lslot = nextSlot Config.owtc (accepted 0x0000000F).lslot) :=
  ⟨witness_started.2.2.2.2.2.2.2.2.2.2.2.2.2.1, ⟨⟨0, rfl⟩, rfl⟩, ⟨0, rfl⟩, rfl⟩

/-- A command with its outcome (for WritersOfEachRegister, ErrorCodesOfEachCommand, EveryCommandRunsItsPseudocode,
EveryCommandEnds, TurnSplittingChangesNothing and SlotCountsOfEachCommand). -/
theorem witness_command_outcome :
    isCommand (.writeByte 0x44) = true ∧ (accepted 0x00004404).err = .ok ∧ (accepted 0x00004404).busy = true ∧
    (accepted 0x00004404).turn = none ∧
    ∃ t, exec (.writeByte 0x44) (accepted 0x00004404) = .next t := ⟨rfl, rfl, rfl, rfl, _, rfl⟩

/-- CYCLE and MEASURE in the middle of the body. -/
theorem witness_CycleAlwaysAdvances :
    ({ accepted 0x0000000F with uix := 100 }).busy = true ∧ ({ accepted 0x0000000F with uix := 100 }).turn = none :=
  ⟨rfl, rfl⟩

/-- A line held low, and a bus with presence whose reads are all 1 (for LineHeldLowGoesUndetected and
UnmatchedDeviceIsACrcMismatch). -/
theorem witness_constant_buses :
    let low : Config := { scripted 0 [] [] with presence := fun _ _ => true, readBit := fun _ _ => false }
    let high : Config := { scripted 0 [] [] with presence := fun _ _ => true, readBit := fun _ _ => true }
    (∀ h c, low.presence h c = true) ∧ (∀ h c, low.readBit h c = false) ∧ (∀ h c, high.presence h c = true) ∧
    (∀ h c, high.readBit h c = true) ∧ Started (accepted 0x0000000D) ∧ (accepted 0x0000000D).err = .ok ∧
    (accepted 0x0000000D).resValid = false :=
  ⟨fun _ _ => rfl, fun _ _ => rfl, fun _ _ => rfl, fun _ _ => rfl,
    witness_started.2.2.2.2.2.2.2.2.2.2.2.2.2.1, rfl, rfl⟩

/-- The first and the last byte of a block of eight, changed. -/
theorem witness_CrcDetectsOneTamperedByte :
    let b : List Byte := [0x90, 0x01, 0x4B, 0x46, 0x7F, 0xFF, 0x0C, 0x10]
    (0 < b.length ∧ b[0]? ≠ some 0x91) ∧ (7 < b.length ∧ b[7]? ≠ some 0x00) := by decide

/-- One scratchpad for each resolution code (D1 to D4). -/
theorem witness_DecoderBitByBit :
    decodeTemp (pad 0x91 0x01 0x4B 0x46 0x1F 0xFF 0x0F 0x10 0xB5) = (0x0190, 0) ∧
    decodeTemp (pad 0x91 0x01 0x4B 0x46 0x3F 0xFF 0x0F 0x10 0xC5) = (0x0190, 1) ∧
    decodeTemp (pad 0x91 0x01 0x4B 0x46 0x5F 0xFF 0x0F 0x10 0x55) = (0x0190, 2) ∧
    decodeTemp (pad 0x91 0x01 0x4B 0x46 0x7F 0xFF 0x0F 0x10 0x25) = (0x0191, 3) := by decide

/-- The spec's negative example, and an aligned value. -/
theorem witness_MaskingIsAFloor :
    (3 = 3 - (0 : BitVec 2).toNat ∧ maskRaw 0xFF5E 0 = 0xFF58) ∧ (2 ^ 3 : Int) ∣ (0x0190 : BitVec 16).toInt := by
  decide

theorem witness_NextSlotArithmetic :
    (scripted 255 [] []).nSensors = 256 ∧ (scripted 0 [] []).nSensors = 1 := ⟨rfl, rfl⟩

/-- The least and the greatest slot of the largest and of the smallest configuration. -/
theorem witness_RoundRobinVisitsEverySlotOnce :
    (0 : BitVec 8).toNat < (scripted 255 [] []).nSensors ∧ (255 : BitVec 8).toNat < (scripted 255 [] []).nSensors ∧
    (0 : BitVec 8).toNat < (scripted 0 [] []).nSensors := by decide

/-- A state that meets the invariant and is not the reset state, with a next state. -/
theorem witness_EveryStepKeepsInv :
    Inv Config.owtc { State.reset with ovr := true, addr0 := 1 } ∧
    ∃ s', step { State.reset with ovr := true, addr0 := 1 } = .next s' := by
  refine ⟨⟨?_, ?_, ?_, fun _ => ⟨rfl, rfl, rfl, rfl, rfl⟩, ?_, by decide, ?_, ?_⟩, _, rfl⟩
  · exact Nat.succ_pos _
  · exact Nat.succ_pos _
  · exact Nat.succ_pos _
  · intro h; exact absurd h (by decide)
  · intro h; exact absurd h (by decide)
  · intro h; exact absurd h (by decide)

/-- The reset slot of an accepted RESET, with the devices silent for exactly its length. -/
theorem witness_ClockedSlotIsOneControllerStep :
    let s := accepted 0x00000001
    let op := resetOp [] 0
    s.busy = true ∧ opsLeft s.body s = op :: [] ∧ op.slot ≠ .none ∧ SlotLoaded Config.owtc.timing op.slot s ∧
    (∀ c ∈ List.replicate (slotLength Config.owtc.timing op.slot) ({} : ClockIn), Quiet c) ∧
    (List.replicate (slotLength Config.owtc.timing op.slot) ({} : ClockIn)).length =
      slotLength Config.owtc.timing op.slot := by
  refine ⟨rfl, rfl, by decide, ⟨rfl, rfl, ?_⟩, ?_, List.length_replicate⟩
  · exact (decide_eq_true (Config.owtc.timing.tRstl.pos)).symm
  · intro c hc
    rw [List.eq_of_mem_replicate hc]
    exact ⟨rfl, rfl⟩

/-- One word of each slotless command. -/
theorem witness_SlotlessCommandsTakeOneCycle :
    State.reset.busy = false ∧ State.reset.turn = none ∧
    (decodeCmd 0x0000AB00 = .ok (.nop 0xAB) ∧ decodeCmd 0x00005A09 = .ok (.crcInit 0x5A) ∧
      decodeCmd 0x0000020A = .ok (.crcByte 2) ∧ decodeCmd 0x0000000B = .ok (.decode 0) ∧
      decodeCmd 0x0000000E = .ok (.advance 0)) ∧
    (0x0000000E : Word).extractLsb' 0 4 ∈ ([0x0, 0x9, 0xA, 0xB, 0xE] : List (BitVec 4)) := by decide

theorem witness_WriteInTheCompletionCycleIsDropped : (accepted 0x00000000).busy = true := rfl

end Sys2Proof.Tests
end

section
/-! PROOFS. Which registers the controller writes: the registers each effect, slot and body writes, in order, one
invariant principle for a turn on a command, and the writers of each register (10_state.md R24 to R37). -/

namespace Sys2Proof.Machine

/-! ### The registers that bodies write -/

/-- The registers a command body can write, BUSY and STATUS.ERR aside (10_state.md R24 to R27, R30 to R35); `temp`
is TEMP together with the RES_VALID that vouches for it. -/
inductive Reg where
  | presence
  | rxbit
  | rxbyte
  | crc
  | crcOk
  | scratch
  | temp
  | cursor
  | measSlot
deriving DecidableEq

/-- The register holds the same value in both states. -/
def Reg.Same (s t : State) : Reg → Prop
  | .presence => t.presence = s.presence
  | .rxbit => t.rxbit = s.rxbit
  | .rxbyte => t.rxbyte = s.rxbyte
  | .crc => t.crc = s.crc
  | .crcOk => t.crcOk = s.crcOk
  | .scratch => t.scratch = s.scratch
  | .temp => (t.tempQ4, t.res, t.resValid) = (s.tempQ4, s.res, s.resValid)
  | .cursor => t.cursor = s.cursor
  | .measSlot => t.measSlot = s.measSlot

theorem Reg.Same.refl (r : Reg) (s : State) : r.Same s s := by
  cases r <;> rfl

theorem Reg.Same.trans {r : Reg} {s t u : State} (h : r.Same s t) (k : r.Same t u) : r.Same s u := by
  cases r <;> exact Eq.trans k h

/-- The registers an effect may write. -/
def Effect.writes : Effect → List Reg
  | .setMeasSlot => [.measSlot]
  | .failIfAbsent => []
  | .storeRxBit => [.rxbit]
  | .storeRxByte => [.rxbyte]
  | .storeScratch _ => [.scratch]
  | .scratchCheck => [.crc, .crcOk]
  | .validatedDecode => [.crcOk, .temp]
  | .crcInit _ | .crcByte _ => [.crc]
  | .advance | .advanceLatched => [.cursor]

/-- The registers a slot writes: a reset slot reports PRESENCE (10_state.md R24). -/
def SlotOp.writes : SlotOp → List Reg
  | .reset => [.presence]
  | .none | .write _ | .read | .wait => []

/-- The registers a micro-operation may write, in the order of the writes. -/
def MicroOp.writes (op : MicroOp) : List Reg :=
  op.pre.flatMap Effect.writes ++ op.slot.writes ++ op.post.flatMap Effect.writes

/-- The registers a body may write, in the order of the writes. -/
def Body.writes (b : Body) : List Reg := b.ops.flatMap MicroOp.writes ++ b.always.flatMap Effect.writes

/-- The registers `MeasureBody()` may write (44_scheduler.md R194). -/
def measureWrites : List Reg :=
  [.measSlot, .presence, .presence] ++ List.replicate 9 .scratch ++ [.crc, .crcOk, .crcOk, .temp]

/-- The registers each command may write, in the order of the writes. -/
def commandWrites : Instr → List Reg
  | .reset _ => [.presence]
  | .readBit _ => [.rxbit]
  | .readByte _ => [.rxbyte]
  | .readScratchpad _ => List.replicate 9 .scratch ++ [.crc, .crcOk]
  | .crcInit _ | .crcByte _ => [.crc]
  | .decode _ => [.crcOk, .temp]
  | .measure _ => measureWrites
  | .advance _ => [.cursor]
  | .cycle _ => measureWrites ++ [.cursor]
  | .nop _ | .writeBit _ | .writeByte _ | .select _ | .convert _ | .waitConv _
  | .matchRom | .convertT | .readScratchpadFn => []

theorem writeByteOps_writes (v : Byte) (byte mstep : BitVec 4) :
    (writeByteOps v byte mstep).flatMap MicroOp.writes = [] := rfl

theorem readByteOps_writes (post : List Effect) (byte mstep : BitVec 4) :
    (readByteOps post byte mstep).flatMap MicroOp.writes = post.flatMap Effect.writes :=
  List.append_nil _

theorem sendMatchOps_writes (a : Addr) (mstep : BitVec 4) : (sendMatchOps a mstep).flatMap MicroOp.writes = [] := by
  simp [sendMatchOps, writeByteOps_writes, List.flatMap_assoc]

theorem scratchReadOps_writes (post : List Effect) (mstep : BitVec 4) :
    (scratchReadOps post mstep).flatMap MicroOp.writes =
      List.replicate 9 .scratch ++ [.crc, .crcOk] ++ post.flatMap Effect.writes := by
  simp [scratchReadOps, writeByteOps_writes, readByteOps_writes, scratchOrder, Effect.writes]

theorem measureOps_writes (a : Addr) : (measureOps a).flatMap MicroOp.writes = measureWrites := by
  simp [measureOps, measureWrites, writeByteOps_writes, sendMatchOps_writes, scratchReadOps_writes, resetOp, waitOp,
    MicroOp.writes, SlotOp.writes, Effect.writes]

theorem bodyOf_writes (i : Instr) (a : Addr) : (bodyOf i a).writes = commandWrites i := by
  cases i
  case select imm => simp [bodyOf, selectBody, Body.writes, sendMatchOps_writes, commandWrites]
  case readScratchpad imm =>
    simp [bodyOf, readScratchpadBody, Body.writes, scratchReadOps_writes, commandWrites]
  case measure imm => simp [bodyOf, measureBody, Body.writes, measureOps_writes, commandWrites]
  case cycle imm => simp [bodyOf, cycleBody, Body.writes, measureOps_writes, commandWrites, Effect.writes]
  all_goals rfl

/-! ### What an operation changes -/

/-- From `s` to `t` only registers of `ws` may change, and the history only grows. -/
structure Changes (ws : List Reg) (s t : State) : Prop where
  kept : Kept s t
  same : ∀ r, r ∉ ws → r.Same s t
  hist : s.hist <+: t.hist

theorem Changes.refl (ws : List Reg) (s : State) : Changes ws s s :=
  ⟨Kept.refl s, fun r _ => Reg.Same.refl r s, List.prefix_refl _⟩

theorem Changes.trans {ws : List Reg} {s t u : State} (h : Changes ws s t) (k : Changes ws t u) : Changes ws s u :=
  ⟨h.kept.trans k.kept, fun r hr => (h.same r hr).trans (k.same r hr), h.hist.trans k.hist⟩

theorem Changes.mono {ws ws' : List Reg} {s t : State} (h : Changes ws s t) (hw : ws ⊆ ws') : Changes ws' s t :=
  ⟨h.kept, fun r hr => h.same r (fun hm => hr (hw hm)), h.hist⟩

theorem decodeScratch_changes (s : State) : Changes [.crcOk, .temp] s (decodeScratch s).1 := by
  refine ⟨decodeScratch_kept s, fun r hr => ?_, ?_⟩
  · cases r
    case crcOk | temp => simp at hr
    all_goals simp only [decodeScratch]; split <;> rfl
  · unfold decodeScratch
    split <;> exact List.prefix_refl _

/-- Each register is the effect's own, which `hr` excludes, or is not touched. -/
theorem runEffect_changes (cfg : Config) (e : Effect) (s : State) : Changes e.writes s (runEffect cfg e s).1 := by
  cases e
  case validatedDecode => exact decodeScratch_changes s
  all_goals
    refine ⟨runEffect_kept cfg _ s, fun r hr => ?_, List.prefix_refl _⟩
    cases r <;> first | rfl | simp [Effect.writes] at hr

theorem samplePresence_changes (p : Bool) (s : State) : Changes [.presence] s (samplePresence p s) := by
  refine ⟨by constructor <;> rfl, fun r hr => ?_, List.prefix_refl _⟩
  cases r
  case presence => simp at hr
  all_goals rfl

/-- An operation that writes no register and leaves the history. -/
theorem changes_of_fields {s t : State} (kept : Kept s t) (same : ∀ r : Reg, r.Same s t) (hist : t.hist = s.hist) :
    Changes [] s t :=
  ⟨kept, fun r _ => same r, hist ▸ List.prefix_refl _⟩

theorem loadSlot_changes (cfg : Config) (op : MicroOp) (s : State) : Changes [] s (loadSlot cfg op s) :=
  changes_of_fields (loadSlot_kept cfg op s) (fun r => by cases r <;> rfl) rfl

theorem goIdle_changes (s : State) : Changes [] s (goIdle s) :=
  changes_of_fields (goIdle_kept s) (fun r => by cases r <;> rfl) rfl

theorem withErr_changes (e : Err) (s : State) : Changes [] s { s with err := e } :=
  changes_of_fields (by constructor <;> rfl) (fun r => by cases r <;> rfl) rfl

theorem withUix_changes (u : Nat) (s : State) : Changes [] s { s with uix := u } :=
  changes_of_fields (by constructor <;> rfl) (fun r => by cases r <;> rfl) rfl

theorem withChoice_changes (n : Nat) (s : State) : Changes [] s { s with choice := n } :=
  changes_of_fields (by constructor <;> rfl) (fun r => by cases r <;> rfl) rfl

theorem sampleBit_changes (b : Bool) (s : State) : Changes [] s (sampleBit b s) :=
  changes_of_fields (by constructor <;> rfl) (fun r => by cases r <;> rfl) rfl

theorem recordSlot_changes (cfg : Config) (op : SlotOp) (s : State) : Changes [] s (recordSlot cfg op s) := by
  refine ⟨recordSlot_kept cfg op s, fun r _ => by cases op <;> cases r <;> rfl, ?_⟩
  cases op
  case none => exact List.prefix_refl _
  all_goals exact List.prefix_append _ _

/-! ### One invariant principle for a turn on a command -/

/-- A property `P rs s` of a state `s` and of the registers `rs` still to be written is kept by everything a command's
turn does. -/
structure KeptByTurn (cfg : Config) (P : List Reg → State → Prop) : Prop where
  /-- Writes may be left out: a failing check skips the rest of its body. -/
  skip : ∀ {rs rs' s}, rs'.Sublist rs → P rs s → P rs' s
  /-- The sequencer's moves write no register. -/
  quiet : ∀ {rs s t}, Changes [] s t → P rs s → P rs t
  effect : ∀ {rs s} (e : Effect), P (e.writes ++ rs) s → P rs (runEffect cfg e s).1
  presence : ∀ {rs s} (p : Bool), P (.presence :: rs) s → P rs (samplePresence p s)

section
variable {cfg : Config} {P : List Reg → State → Prop} (hP : KeptByTurn cfg P)
include hP

theorem KeptByTurn.after_runEffects (es : List Effect) {rs : List Reg} {s : State}
    (h : P (es.flatMap Effect.writes ++ rs) s) : P rs (runEffects cfg es s).1 := by
  induction es generalizing s with
  | nil => exact h
  | cons e es ih =>
    have he : P (es.flatMap Effect.writes ++ rs) (runEffect cfg e s).1 := hP.effect e (by simpa using h)
    unfold runEffects
    split <;> rename_i hq <;> rw [hq] at he
    · exact ih he
    · exact hP.skip (List.sublist_append_right _ _) he

theorem KeptByTurn.after_answerSlot (op : SlotOp) {rs : List Reg} {s : State} (h : P (op.writes ++ rs) s) :
    P rs (answerSlot cfg op s) := by
  cases op
  case reset =>
    simp only [answerSlot]
    split
    · exact hP.skip (List.sublist_append_right _ _) h
    · exact hP.quiet (withChoice_changes _ _) (hP.presence _ h)
  case read =>
    simp only [answerSlot]
    split
    · exact h
    · exact hP.quiet ((sampleBit_changes _ _).trans (withChoice_changes _ _)) h
  all_goals exact h

theorem KeptByTurn.after_completeCommand (b : Body) {rs : List Reg} {s : State}
    (h : P (b.always.flatMap Effect.writes ++ rs) s) : P rs (completeCommand cfg b s) :=
  hP.quiet (goIdle_changes _) (hP.after_runEffects b.always h)

/-- A micro-operation ends its command, with the unconditional effects, or goes on to the next. -/
theorem KeptByTurn.after_stepMicroOp (b : Body) (op : MicroOp) (rest : List MicroOp) {rs : List Reg} {s : State}
    (h : P (op.writes ++ (rs ++ b.always.flatMap Effect.writes)) s) :
    (stepMicroOp cfg b op rest s).busy = false ∧ P [] (stepMicroOp cfg b op rest s) ∨
      P (rs ++ b.always.flatMap Effect.writes) (stepMicroOp cfg b op rest s) := by
  have hpost := hP.after_runEffects op.post (hP.quiet (recordSlot_changes cfg op.slot _)
    (hP.after_answerSlot op.slot (hP.after_runEffects op.pre (by simpa [MicroOp.writes] using h))))
  have hend {t : State} (ht : P (rs ++ b.always.flatMap Effect.writes) t) : P [] (completeCommand cfg b t) :=
    hP.after_completeCommand b (hP.skip (by simp) ht)
  unfold stepMicroOp endMicroOp
  split <;> rename_i hq <;> rw [hq] at hpost
  · exact .inl ⟨rfl, hend (hP.quiet (withErr_changes _ _) hpost)⟩
  · split
    · exact .inl ⟨rfl, hend hpost⟩
    · exact .inr (hP.quiet ((withUix_changes _ _).trans (loadSlot_changes cfg _ _)) hpost)

theorem KeptByTurn.after_runMicroOps (b : Body) (n : Nat) (ops : List MicroOp) {s : State}
    (h : P (ops.flatMap MicroOp.writes ++ b.always.flatMap Effect.writes) s) : P [] (runMicroOps cfg b n ops s) := by
  induction n generalizing ops s with
  | zero => exact hP.skip (List.nil_sublist _) h
  | succ n ih =>
    cases ops with
    | nil => exact hP.after_completeCommand b (by simpa using h)
    | cons op rest =>
      rw [runMicroOps_cons]
      rcases hP.after_stepMicroOp b op rest (rs := rest.flatMap MicroOp.writes) (by simpa using h) with ⟨hb, ht⟩ | ht
      · simpa [hb] using ht
      · split
        · exact ih rest ht
        · exact hP.skip (List.nil_sublist _) ht

/-- From any position in the body, with any limit of the turn. -/
theorem KeptByTurn.after_runBody (b : Body) {s : State} (h : P b.writes s) : P [] (runBody cfg b s) := by
  unfold runBody
  split
  · have hleft : (opsLeft b s).Sublist b.ops := List.drop_sublist _ _
    exact hP.after_runMicroOps b _ _ (hP.skip ((hleft.flatMap _).append_right _) h)
  · exact hP.skip (List.nil_sublist _) h

end

/-! ### What a whole turn changes -/

/-- Only registers of `ws` have changed since `s`, and only those are still to be written. -/
def ChangedOnly (ws : List Reg) (s : State) (rs : List Reg) (t : State) : Prop := rs ⊆ ws ∧ Changes ws s t

theorem changedOnly_keptByTurn (cfg : Config) (ws : List Reg) (s : State) : KeptByTurn cfg (ChangedOnly ws s) where
  skip hs h := ⟨fun _ hm => h.1 (hs.subset hm), h.2⟩
  quiet hc h := ⟨h.1, h.2.trans (hc.mono (List.nil_subset _))⟩
  effect e h := by
    obtain ⟨hw, hc⟩ := h
    obtain ⟨he, hrs⟩ := List.append_subset.mp hw
    exact ⟨hrs, hc.trans ((runEffect_changes cfg e _).mono he)⟩
  presence p h := by
    obtain ⟨hw, hc⟩ := h
    obtain ⟨hp, hrs⟩ := List.cons_subset.mp hw
    exact ⟨hrs, hc.trans ((samplePresence_changes p _).mono (by simpa using hp))⟩

/-- A turn changes only the registers its body writes. -/
theorem runBody_changes (cfg : Config) (b : Body) (s : State) : Changes b.writes s (runBody cfg b s) :=
  ((changedOnly_keptByTurn cfg b.writes s).after_runBody b ⟨List.Subset.refl _, Changes.refl _ s⟩).2

/-! ### What a written register holds -/

/-- `V` is what every effect that writes `r` leaves true of it; besides `r` it reads the registers `ds`. -/
structure HoldsWhenWritten (cfg : Config) (r : Reg) (ds : List Reg) (V : State → Prop) : Prop where
  stable : ∀ {s t}, Kept s t → r.Same s t → (∀ d ∈ ds, d.Same s t) → V s → V t
  written : ∀ (e : Effect) (s), r ∈ e.writes → r.Same s (runEffect cfg e s).1 ∨ V (runEffect cfg e s).1

/-- `r` is as it was in `s`, or `V` holds of it and what `V` reads is written no more. -/
def WrittenOnlyAs (r : Reg) (ds : List Reg) (V : State → Prop) (s : State) (rs : List Reg) (t : State) : Prop :=
  rs.Pairwise (fun x y => x = r → y ∉ ds) ∧ (r.Same s t ∨ V t ∧ ∀ d ∈ ds, d ∉ rs)

theorem WrittenOnlyAs.of_same {cfg : Config} {r : Reg} {ds : List Reg} {V : State → Prop}
    (hV : HoldsWhenWritten cfg r ds V) {ws rs : List Reg} {s t u : State} (hr : r.Same t u) (hc : Changes ws t u)
    (h : WrittenOnlyAs r ds V s (ws ++ rs) t) : WrittenOnlyAs r ds V s rs u := by
  obtain ⟨horder, hst⟩ := h
  refine ⟨(List.pairwise_append.mp horder).2.1, hst.imp (fun hs => hs.trans hr) fun ⟨hv, hd⟩ => ?_⟩
  simp only [List.mem_append, not_or] at hd
  exact ⟨hV.stable hc.kept hr (fun d hm => hc.same d (hd d hm).1) hv, fun d hm => (hd d hm).2⟩

theorem writtenOnlyAs_keptByTurn {cfg : Config} {r : Reg} {ds : List Reg} {V : State → Prop}
    (hV : HoldsWhenWritten cfg r ds V) (hp : r ≠ .presence) (s : State) :
    KeptByTurn cfg (WrittenOnlyAs r ds V s) where
  skip hs h := ⟨h.1.sublist hs, h.2.imp_right fun ⟨hv, hd⟩ => ⟨hv, fun d hm hrs => hd d hm (hs.subset hrs)⟩⟩
  quiet hc h := WrittenOnlyAs.of_same hV (ws := []) (hc.same r (by simp)) hc h
  presence p h :=
    have hc := samplePresence_changes p _
    WrittenOnlyAs.of_same hV (hc.same r (by simpa using hp)) hc h
  effect {rs t} e h := by
    have hc := runEffect_changes cfg e t
    by_cases hr : r ∈ e.writes
    · rcases hV.written e t hr with hs | hv
      · exact WrittenOnlyAs.of_same hV hs hc h
      · obtain ⟨-, hrs, hlater⟩ := List.pairwise_append.mp h.1
        exact ⟨hrs, .inr ⟨hv, fun d hm hd => hlater r hr d hd rfl hm⟩⟩
    · exact WrittenOnlyAs.of_same hV (hc.same r hr) hc h

/-- In a body that writes none of `ds` after `r`, a turn leaves `r` or makes it hold `V`. -/
theorem runBody_written {cfg : Config} {r : Reg} {ds : List Reg} {V : State → Prop}
    (hV : HoldsWhenWritten cfg r ds V) (hp : r ≠ .presence) (b : Body) (s : State)
    (horder : b.writes.Pairwise fun x y => x = r → y ∉ ds) : r.Same s (runBody cfg b s) ∨ V (runBody cfg b s) :=
  ((writtenOnlyAs_keptByTurn hV hp s).after_runBody b ⟨horder, .inl (Reg.Same.refl r s)⟩).2.imp_right And.left

/-- CRC_OK is the check of SCRATCH (10_state.md R26). -/
def CrcOkIsTheCheck (t : State) : Prop := t.crcOk = scratchOk t.scratch

/-- TEMP and RES are decoded from a SCRATCH that passes its check (10_state.md R27, R34). -/
def TempIsDecoded (t : State) : Prop :=
  t.resValid = true ∧ scratchOk t.scratch = true ∧ decodeTemp t.scratch = (t.tempQ4, t.res)

/-- MEAS_SLOT is the latched slot (10_state.md R35). -/
def MeasSlotIsLatched (t : State) : Prop := t.measSlot = t.lslot

theorem crcOk_holdsWhenWritten (cfg : Config) : HoldsWhenWritten cfg .crcOk [.scratch] CrcOkIsTheCheck where
  stable _ hr hd hv := by
    have hscratch := hd .scratch (by simp)
    simp_all [CrcOkIsTheCheck, Reg.Same]
  written e s hr := by
    right
    cases e
    case scratchCheck => rfl
    case validatedDecode =>
      simp only [CrcOkIsTheCheck, runEffect, decodeScratch]
      split <;> simp_all
    all_goals simp [Effect.writes] at hr

theorem temp_holdsWhenWritten (cfg : Config) : HoldsWhenWritten cfg .temp [.scratch] TempIsDecoded where
  stable _ hr hd hv := by
    have hscratch := hd .scratch (by simp)
    simp_all [TempIsDecoded, Reg.Same]
  written e s hr := by
    cases e
    case validatedDecode =>
      simp only [TempIsDecoded, runEffect, decodeScratch]
      split
      · next hok => exact .inr ⟨rfl, hok, rfl⟩
      · exact .inl rfl
    all_goals simp [Effect.writes] at hr

theorem measSlot_holdsWhenWritten (cfg : Config) : HoldsWhenWritten cfg .measSlot [] MeasSlotIsLatched where
  stable hk hr _ hv := Eq.trans hr (Eq.trans hv hk.lslot.symm)
  written e s hr := by
    right
    cases e
    case setMeasSlot => rfl
    all_goals simp [Effect.writes] at hr

/-! ### Commands -/

/-- A command's meaning is the controller's turn on its body. -/
theorem exec_command (i : Instr) (s : State) (h : isCommand i = true) :
    exec i s = .next (runBody Config.owtc (bodyOf i s.laddr) s) := by
  cases i
  case matchRom | convertT | readScratchpadFn => simp [isCommand] at h
  all_goals rfl

/-- A command changes only the registers it writes, from any position in its body. -/
theorem exec_changes {i : Instr} {s t : State} (hi : isCommand i = true) (h : exec i s = .next t) :
    Changes (commandWrites i) s t := by
  rw [exec_command i s hi] at h
  obtain rfl := Host.Outcome.next.inj h
  exact bodyOf_writes i s.laddr ▸ runBody_changes Config.owtc (bodyOf i s.laddr) s

/-- A register with a verdict is left, or holds it, when nothing that the verdict reads is written after it. -/
theorem exec_written {r : Reg} {ds : List Reg} {V : State → Prop} (hV : HoldsWhenWritten Config.owtc r ds V)
    (hp : r ≠ .presence) {i : Instr} {s t : State} (hi : isCommand i = true) (h : exec i s = .next t)
    (horder : (commandWrites i).Pairwise fun x y => x = r → y ∉ ds) : r.Same s t ∨ V t := by
  rw [exec_command i s hi] at h
  obtain rfl := Host.Outcome.next.inj h
  exact runBody_written hV hp (bodyOf i s.laddr) s (bodyOf_writes i s.laddr ▸ horder)

/-- No command writes SCRATCH after a check or a decode of it. -/
theorem commandWrites_scratch_first (i : Instr) :
    (commandWrites i).Pairwise fun x y => x = .crcOk ∨ x = .temp → y ∉ [Reg.scratch] := by
  cases i <;> simp only [commandWrites] <;> decide

/-- Settles O35: a command changes only the registers it writes, and CRC_OK, TEMP and MEAS_SLOT hold their verdicts
once written. -/
theorem writersOfEachRegister : Obligations.WritersOfEachRegister := by
  unfold Obligations.WritersOfEachRegister
  intro i s t hi ht
  obtain ⟨kept, same, hist⟩ := exec_changes hi ht
  have hcrcOk : t.crcOk = s.crcOk ∨ t.crcOk = scratchOk t.scratch :=
    exec_written (crcOk_holdsWhenWritten _) (by simp) hi ht
      ((commandWrites_scratch_first i).imp fun h hx => h (.inl hx))
  have htemp : Reg.temp.Same s t ∨ TempIsDecoded t :=
    exec_written (temp_holdsWhenWritten _) (by simp) hi ht
      ((commandWrites_scratch_first i).imp fun h hx => h (.inr hx))
  have hmeas : t.measSlot = s.measSlot ∨ t.measSlot = t.lslot :=
    exec_written (measSlot_holdsWhenWritten _) (by simp) hi ht (List.pairwise_of_forall fun _ _ _ => List.not_mem_nil)
  refine ⟨⟨kept.ovr, kept.addr0, kept.addr1, kept.lop, kept.limm, kept.laddr, kept.lslot, kept.rdata, kept.dqSync⟩,
    ?_, ?_, ?_, ?_, ?_, ?_, ?_, ?_, ?_, hist⟩
  · have h := same .presence
    cases i
    case reset | measure | cycle => exact True.intro
    all_goals exact h (by simp [commandWrites])
  · have h := same .rxbit
    cases i
    case readBit => exact True.intro
    all_goals exact h (by simp [commandWrites, measureWrites])
  · have h := same .rxbyte
    cases i
    case readByte => exact True.intro
    all_goals exact h (by simp [commandWrites, measureWrites])
  · have h := same .crc
    cases i
    case crcInit | crcByte | readScratchpad | measure | cycle => exact True.intro
    all_goals exact h (by simp [commandWrites])
  · have h := same .crcOk
    cases i
    case readScratchpad | decode | measure | cycle => exact hcrcOk
    all_goals exact h (by simp [commandWrites])
  · have h := same .scratch
    cases i
    case readScratchpad | measure | cycle => exact True.intro
    all_goals exact h (by simp [commandWrites])
  · have h := same .temp
    simp only [Reg.Same, Prod.mk.injEq] at h htemp
    cases i
    case decode | measure | cycle => exact htemp
    all_goals exact h (by simp [commandWrites])
  · have h := same .cursor
    cases i
    case advance | cycle => exact True.intro
    all_goals exact h (by simp [commandWrites, measureWrites])
  · have h := same .measSlot
    rw [kept.lslot] at hmeas
    cases i
    case measure | cycle => exact hmeas
    all_goals exact h (by simp [commandWrites])

end Sys2Proof.Machine
end

section
/-! PROOFS. The host's side of the port: each register's fields at their bits (10_state.md R21 to R36), and what an
access leaves alone (10_state.md R40, 20_memory.md R72). -/

namespace Sys2Proof.Machine

/-! ### The layout of the registers -/

theorem nSensors_lt (cfg : Config) : cfg.nSensors < 2 ^ 9 := by
  have h := cfg.lastSlot.isLt
  unfold Config.nSensors
  omega

theorem flagBit_getLsbD (b : Bool) : (flagBit b).getLsbD 0 = b := by
  cases b <;> rfl

/-- A byte register shows its byte at [7:0] under RES0 bits (10_state.md R30, R31, R33). -/
theorem setWidth_byte_layout (v : Byte) :
    (v.setWidth 32 : Word).extractLsb' 0 8 = v ∧ (v.setWidth 32 : Word).extractLsb' 8 24 = 0 := by
  refine ⟨?_, BitVec.eq_of_getLsbD_eq fun i hi => ?_⟩
  · rw [BitVec.extractLsb'_setWidth_of_le (by decide), BitVec.extractLsb'_eq_self]
  · simp [BitVec.getLsbD_extractLsb', BitVec.getLsbD_setWidth]

/-- Four bytes of SCRATCH in a register, byte k at [8k+7:8k] (10_state.md R33). -/
theorem fourBytes_layout (b3 b2 b1 b0 : Byte) {w : Word} (h : w = b3 ++ b2 ++ b1 ++ b0) :
    w.extractLsb' 0 8 = b0 ∧ w.extractLsb' 8 8 = b1 ∧ w.extractLsb' 16 8 = b2 ∧ w.extractLsb' 24 8 = b3 := by
  subst h
  refine ⟨BitVec.extractLsb'_append_eq_right, ?_, ?_, ?_⟩ <;>
    simp (disch := decide) only [BitVec.extractLsb'_append_eq_of_le]
  · exact BitVec.extractLsb'_append_eq_right
  · exact BitVec.extractLsb'_append_eq_right
  · exact BitVec.extractLsb'_eq_self

/-- The flags of STATUS and its RES0 bits (10_state.md R22). -/
theorem statusWord_flags (s : State) :
    (statusWord s).getLsbD 0 = s.busy ∧ (statusWord s).getLsbD 1 = s.presence ∧ (statusWord s).getLsbD 2 = s.rxbit ∧
      (statusWord s).getLsbD 3 = s.crcOk ∧ (statusWord s).getLsbD 4 = s.resValid ∧ (statusWord s).getLsbD 5 = s.ovr ∧
      (statusWord s).extractLsb' 6 2 = 0 ∧ (statusWord s).extractLsb' 11 21 = 0 := by
  simp only [statusWord, BitVec.getLsbD_append]
  refine ⟨flagBit_getLsbD _, flagBit_getLsbD _, flagBit_getLsbD _, flagBit_getLsbD _, flagBit_getLsbD _,
    flagBit_getLsbD _, ?_, ?_⟩ <;> simp (disch := decide) only [BitVec.extractLsb'_append_eq_of_le]
  · exact BitVec.extractLsb'_append_eq_right
  · exact BitVec.extractLsb'_eq_self

/-- STATUS.ERR stands at [10:8] (10_state.md R22, R29). -/
theorem statusWord_err (s : State) : (statusWord s).extractLsb' 8 3 = s.err.code := by
  simp (disch := decide) only [statusWord, BitVec.extractLsb'_append_eq_of_le]
  exact BitVec.extractLsb'_append_eq_right

/-- The fields of TEMP (10_state.md R34). -/
theorem tempWord_layout (s : State) :
    (tempWord s).extractLsb' 0 16 = s.tempQ4 ∧ (tempWord s).extractLsb' 16 2 = s.res ∧
      (tempWord s).extractLsb' 18 14 = 0 := by
  refine ⟨BitVec.extractLsb'_append_eq_right, ?_, ?_⟩ <;>
    simp (disch := decide) only [tempWord, BitVec.extractLsb'_append_eq_of_le]
  · exact BitVec.extractLsb'_append_eq_right
  · exact BitVec.extractLsb'_eq_self

/-- The fields of SCHED (10_state.md R35). -/
theorem schedWord_layout (cfg : Config) (s : State) :
    (schedWord cfg s).extractLsb' 0 8 = s.cursor ∧ (schedWord cfg s).extractLsb' 8 8 = s.measSlot ∧
      (schedWord cfg s).extractLsb' 16 9 = BitVec.ofNat 9 cfg.nSensors ∧ (schedWord cfg s).extractLsb' 25 7 = 0 := by
  refine ⟨BitVec.extractLsb'_append_eq_right, ?_, ?_, ?_⟩ <;>
    simp (disch := decide) only [schedWord, BitVec.extractLsb'_append_eq_of_le]
  · exact BitVec.extractLsb'_append_eq_right
  · exact BitVec.extractLsb'_append_eq_right
  · exact BitVec.extractLsb'_eq_self

/-- The bytes of SCRATCH in SCRATCH0 to SCRATCH2 (10_state.md R33). -/
theorem scratchWords_layout (cfg : Config) (s : State) (k : Fin 9) :
    (regWord cfg (0x18 + 4 * (k.val / 4)) s).extractLsb' (8 * (k.val % 4)) 8 = s.scratch[k] := by
  obtain ⟨h0, h1, h2, h3⟩ := fourBytes_layout s.scratch[3] s.scratch[2] s.scratch[1] s.scratch[0] rfl
  obtain ⟨h4, h5, h6, h7⟩ := fourBytes_layout s.scratch[7] s.scratch[6] s.scratch[5] s.scratch[4] rfl
  match k with
  | 0 => exact h0
  | 1 => exact h1
  | 2 => exact h2
  | 3 => exact h3
  | 4 => exact h4
  | 5 => exact h5
  | 6 => exact h6
  | 7 => exact h7
  | 8 => exact (setWidth_byte_layout s.scratch[8]).1

/-- CMD and every offset above SCHED read 0 (10_state.md R21, R36). -/
theorem regWord_empty (cfg : Config) (s : State) (a : Nat) (h : a = 0x00 ∨ 0x2C ≤ a) : regWord cfg a s = 0 := by
  unfold regWord
  split
  case h_11 => rfl
  all_goals omega

/-- Settles O12, register by register. -/
theorem registerLayouts : Obligations.RegisterLayouts := by
  unfold Obligations.RegisterLayouts
  rintro s _ _ _ _ _ _ rfl rfl rfl rfl rfl rfl
  obtain ⟨hcursor, hmeas, hcount, hres0⟩ := schedWord_layout Config.owtc s
  refine ⟨statusWord_flags s, ?_, setWidth_byte_layout s.rxbyte, setWidth_byte_layout s.crc, rfl, rfl,
    scratchWords_layout _ s, (setWidth_byte_layout s.scratch[8]).2, tempWord_layout s,
    ⟨hcursor, hmeas, ?_, hres0⟩, regWord_empty _ s⟩
  · have herr := statusWord_err s
    split <;> rename_i he <;> rw [he] at herr <;> exact herr
  · change ((schedWord Config.owtc s).extractLsb' 16 9).toNat = _
    rw [hcount, BitVec.toNat_ofNat, Nat.mod_eq_of_lt (nSensors_lt _)]

/-! ### What an access leaves alone -/

/-- From `s` to `t` only the host's own registers, `reg_rdata` and the choice counter change. -/
def ControllerUntouched (s t : State) : Prop :=
  t = { s with ovr := t.ovr, addr0 := t.addr0, addr1 := t.addr1, rdata := t.rdata, choice := t.choice }

theorem ControllerUntouched.trans {s t u : State} (h : ControllerUntouched s t) (k : ControllerUntouched t u) :
    ControllerUntouched s u := by
  unfold ControllerUntouched at h k ⊢
  rw [h] at k
  exact k

theorem hostRead_controllerUntouched (cfg : Config) (a : Nat) (s : State) :
    ControllerUntouched s (hostRead cfg a s s) := rfl

/-- A write that offers no command word to an idle OWTC leaves the controller. -/
theorem hostWrite_controllerUntouched (cfg : Config) (seenBusy : Bool) (a : Nat) (v : Word) (s : State)
    (h : seenBusy = true ∨ a ≠ 0x00) : ControllerUntouched s (hostWrite cfg seenBusy a v s) := by
  unfold hostWrite
  split
  · obtain rfl : seenBusy = true := by simpa using h
    rfl
  · split <;> rfl
  all_goals rfl

/-- Settles O15, access by access: a write together with a read is the write after the read. -/
theorem hostAccessesLeaveTheController : Obligations.HostAccessesLeaveTheController := by
  unfold Obligations.HostAccessesLeaveTheController
  rintro s _ x h rfl
  change ControllerUntouched s _
  cases x with
  | write n a v =>
    exact hostWrite_controllerUntouched _ _ a v s (h.imp_right fun hx ha => (hx n v).1 (ha ▸ rfl))
  | read n a => exact hostRead_controllerUntouched _ a s
  | writeRead n a v =>
    have hwrite := hostWrite_controllerUntouched Config.owtc s.busy a v (hostRead Config.owtc a s s)
      (h.imp_right fun hx ha => (hx n v).2 (ha ▸ rfl))
    exact (hostRead_controllerUntouched _ a s).trans hwrite

end Sys2Proof.Machine
end

section
/-! PROOFS. A step (20_memory.md R65, R69, R72): the host's act, then the controller's part. -/

namespace Sys2Proof.Machine

/-! ### The two parts of a step -/

/-- With no turn left a step is the controller's turn, without a limit. -/
theorem step_silent {s : State} (h : s.agenda = []) : step s = controllerTurn { s with turn := none } := by
  simp only [step, h]

theorem step_turn {s : State} {t : Turn} {rest : List Turn} (h : s.agenda = t :: rest) (hw : t.act.wellFormed = true) :
    step s = controllerTurn (doAct Config.owtc t.act { s with agenda := rest, turn := t.ctl }) := by
  simp only [step, h, hw, if_true]

theorem step_refuses {s : State} {t : Turn} {rest : List Turn} (h : s.agenda = t :: rest)
    (hw : t.act.wellFormed = false) : step s = .refused (refuseAct t.act) := by
  simp [step, h, hw]

/-- The command in flight runs, named by its latches (10_state.md R41). -/
theorem controllerTurn_busy {s : State} (h : s.busy = true) : controllerTurn s = exec s.current s := by
  simp only [controllerTurn, h, if_true]

theorem controllerTurn_quiescent {s : State} (h : s.busy = false) (hs : s.slot ≠ .write) :
    controllerTurn s = .next s := by
  simp [controllerTurn, h, hs]

/-- A bus byte that stands in the shift register with no command in flight is sent (log 3). -/
theorem controllerTurn_busByte {s : State} {i : Instr} (h : s.busy = false) (hs : s.slot = .write)
    (hd : decodeBusByte s.shreg = .ok i) : controllerTurn s = exec i s := by
  simp [controllerTurn, h, hs, hd]

/-! ### Where a step stops -/

/-- Every instruction has its meaning: none faults and none is refused. -/
theorem exec_next (i : Instr) (s : State) : ∃ t, exec i s = .next t := by
  cases i <;> exact ⟨_, rfl⟩

theorem controllerTurn_next (s : State) : ∃ t, controllerTurn s = .next t := by
  unfold controllerTurn
  split
  · exact exec_next _ s
  · split
    · split
      · exact exec_next _ s
      · exact ⟨_, rfl⟩
    · exact ⟨s, rfl⟩

/-- 20_memory.md R65. -/
theorem portAccessOk_iff (n a : Nat) : portAccessOk n a = true ↔ n = 4 ∧ a % 4 = 0 ∧ a < 0x100 := by
  simp [portAccessOk, and_assoc]

/-- An act is well-formed when the port can express its access, if it makes one. -/
theorem act_wellFormed_eq (x : Act) : x.wellFormed = (actPort x).all fun p => portAccessOk p.1 p.2 := by
  rcases x with _ | (_ | _ | _) | (_ | _ | _ | _) | ⟨_, _, _ | _ | _ | _⟩ <;> rfl

theorem refuseAct_of_port {x : Act} {n a : Nat} (h : actPort x = some (n, a)) :
    refuseAct x = .accessNotExpressible n a := by
  have hport : refuseAct x = (actPort x).elim (.accessNotExpressible 0 0) fun p => .accessNotExpressible p.1 p.2 := by
    rcases x with _ | (_ | _ | _) | (_ | _ | _ | _) | ⟨_, _, _ | _ | _ | _⟩ <;> rfl
  rw [hport, h, Option.elim_some]

/-- Settles O7: a step refuses an act that is not well-formed, and both parts of any other step answer a next
state. -/
theorem stepStopsOnlyOnInexpressibleAccesses : Obligations.StepStopsOnlyOnInexpressibleAccesses := by
  unfold Obligations.StepStopsOnlyOnInexpressibleAccesses
  refine fun s => ⟨fun t rest n a hs hp hbad => ?_, fun hok => ?_⟩
  · have hw : t.act.wellFormed = false := by
      rw [← portAccessOk_iff, Bool.not_eq_true] at hbad
      rw [act_wellFormed_eq, hp, Option.all_some, hbad]
    rw [step_refuses hs hw, refuseAct_of_port hp]
  · cases hs : s.agenda with
    | nil => exact step_silent hs ▸ controllerTurn_next _
    | cons t rest =>
      have hw : t.act.wellFormed = true := by
        rw [act_wellFormed_eq, Option.all_eq_true]
        exact fun p hp => (portAccessOk_iff p.1 p.2).mpr (hok t rest p.1 p.2 hs hp)
      exact step_turn hs hw ▸ controllerTurn_next _

/-- Settles O6, from the two parts of a step. -/
theorem stepIsAHostActThenTheController : Obligations.StepIsAHostActThenTheController := by
  unfold Obligations.StepIsAHostActThenTheController
  intro s u hsilent hturn
  have hstep : step s = controllerTurn u := by
    cases hs : s.agenda with
    | nil => rw [hsilent hs, step_silent hs]
    | cons t rest =>
      obtain ⟨hw, hu⟩ := hturn t rest hs
      rw [hu, step_turn hs hw]
  exact ⟨fun hb => hstep.trans (controllerTurn_busy hb),
    fun hb hslot => hstep.trans (controllerTurn_quiescent hb hslot)⟩

/-! ### A step that fetches an instruction -/

theorem tableCode_cmd (w : Word) : tableCode 32 w.toNat = .cmd w := by
  have hw : w.toNat % 2 ^ 32 = w.toNat := Nat.mod_eq_of_lt w.isLt
  rw [tableCode, if_neg (by decide), hw, BitVec.ofNat_toNat, BitVec.setWidth_eq]

theorem tableCode_bus (v : Byte) : tableCode 8 v.toNat = .bus v := by
  have hv : v.toNat % 2 ^ 8 = v.toNat := Nat.mod_eq_of_lt v.isLt
  rw [tableCode, if_pos (by decide), hv, BitVec.ofNat_toNat, BitVec.setWidth_eq]

theorem isCommand_instrOf (op : BitVec 4) (imm : Byte) : isCommand (instrOf op imm) = true := by
  unfold instrOf
  split <;> rfl

theorem isCommand_of_decodeCmd {w : Word} {i : Instr} (h : decodeCmd w = .ok i) : isCommand i = true := by
  unfold decodeCmd at h
  split at h
  · cases h
  · split at h
    · cases h
    · cases h
      exact isCommand_instrOf _ _

/-- A command is named by its opcode and its immediate (30_encoding.md R83). -/
theorem instrOf_opOf_immOf {i : Instr} (h : isCommand i = true) : instrOf (opOf i) (immOf i) = i := by
  cases i
  case matchRom | convertT | readScratchpadFn => simp [isCommand] at h
  all_goals rfl

/-- An accepted command is the one in flight. -/
theorem acceptCommand_current (cfg : Config) {i : Instr} (s : State) (h : isCommand i = true) :
    (acceptCommand cfg i s).current = i := by
  have hk : Kept (latchCommand cfg i s) (acceptCommand cfg i s) := loadFirst_kept cfg _ _
  rw [State.current, hk.lop, hk.limm]
  exact instrOf_opOf_immOf h

/-- Settles O5: the word reaches CMD and is accepted, and a bus byte stands in the shift register. -/
theorem stepRunsTheDecodedInstruction : Obligations.StepRunsTheDecodedInstruction := by
  unfold Obligations.StepRunsTheDecodedInstruction
  refine ⟨fun s w i hd => ?_, fun s v i hd => ?_⟩
  · have hacc : hostAccess Config.owtc (.write 4 0x00 w) { s with busy := false, turn := none }
        { s with busy := false, turn := none } = acceptCommand Config.owtc i { s with busy := false, turn := none } :=
      offerCommand_accept Config.owtc w i _ hd
    rw [State.withFetchWord, tableCode_cmd, step_turn rfl rfl]
    change controllerTurn (hostAccess _ _ _ _) = _
    rw [hacc, controllerTurn_busy (acceptCommand_busy _ _ _), acceptCommand_current _ _ (isCommand_of_decodeCmd hd)]
  · rw [State.withFetchWord, tableCode_bus, step_turn rfl rfl]
    exact controllerTurn_busByte rfl rfl hd

end Sys2Proof.Machine
end

section
/-! PROOFS. The register port (20_memory.md R60, R63, R64). -/

namespace Sys2Proof.Machine

/-- CMD, STATUS, ADDR0 and ADDR1 are the registers a write can reach. -/
theorem hostWrite_other (cfg : Config) (seenBusy : Bool) {a : Nat} (v : Word) (s : State) (h0 : a ≠ 0x00)
    (h4 : a ≠ 0x04) (h10 : a ≠ 0x10) (h14 : a ≠ 0x14) : hostWrite cfg seenBusy a v s = s := by
  unfold hostWrite
  split
  case h_5 => rfl
  all_goals contradiction

/-- Settles O10, register by register. -/
theorem hostWriteTable : Obligations.HostWriteTable := by
  unfold Obligations.HostWriteTable
  refine fun s v => ⟨rfl, ?_, rfl, rfl, fun a h0 h4 h10 h14 => hostWrite_other _ _ v s h0 h4 h10 h14⟩
  change (if v.getLsbD 5 then { s with ovr := false } else s) = _
  split <;> rfl

theorem readValue_idle (cfg : Config) (a : Nat) {s : State} (h : s.busy = false) :
    readValue cfg a s = regWord cfg a s := by
  simp [readValue, h]

theorem readChoices_idle {s : State} (h : s.busy = false) : readChoices s = 0 := by
  simp [readChoices, h]

/-- Settles O11: a read is what `hostRead` returns, and with BUSY = 0 it draws nothing. -/
theorem hostReadReturnsTheRegister : Obligations.HostReadReturnsTheRegister := by
  unfold Obligations.HostReadReturnsTheRegister
  rintro s _ a rfl
  refine ⟨rfl, fun hb => ⟨readValue_idle _ a hb, ?_⟩⟩
  change s.choice + readChoices s = s.choice
  rw [readChoices_idle hb, Nat.add_zero]

theorem acceptCommand_afterRead (cfg : Config) (i : Instr) (r : Word) (c : Nat) (s : State) :
    acceptCommand cfg i { s with rdata := r, choice := c } =
      { acceptCommand cfg i s with rdata := r, choice := c } := by
  cases i <;> rfl

/-- A write neither sees nor touches what a read leaves: the port's output and the count of choices. -/
theorem hostWrite_afterRead (cfg : Config) (seenBusy : Bool) (a : Nat) (v r : Word) (c : Nat) (s : State) :
    hostWrite cfg seenBusy a v { s with rdata := r, choice := c } =
      { hostWrite cfg seenBusy a v s with rdata := r, choice := c } := by
  unfold hostWrite
  split
  · unfold offerCommand
    split
    · rfl
    · split
      · rfl
      · exact acceptCommand_afterRead cfg _ r c s
  · split <;> rfl
  all_goals rfl

/-- Settles O14: the read comes first, and the write keeps its value. -/
theorem writeAndReadTogether : Obligations.WriteAndReadTogether := by
  unfold Obligations.WriteAndReadTogether
  rintro s _ a v rfl
  have hboth : hostAccess Config.owtc (.writeRead 4 a v) s s =
      { hostAccess Config.owtc (.write 4 a v) s s with
        rdata := readValue Config.owtc a s, choice := s.choice + readChoices s } :=
    hostWrite_afterRead Config.owtc s.busy a v _ _ s
  rw [hboth]
  exact ⟨rfl, rfl⟩

end Sys2Proof.Machine
end

section
/-! PROOFS. Turns of a command: any cut of its controller steps into two turns (20_memory.md R69, 40_bus_primitives.md
R109) is the same run, because a state holds the position from which its command goes on. -/

namespace Sys2Proof.Machine

/-! ### The position and the turn's limit -/

/-- A state at another position in the body, with another limit of its turn. -/
def placed (u : Nat) (x : Option Nat) (s : State) : State := { s with uix := u, turn := x }

theorem decodeScratch_placed (u : Nat) (x : Option Nat) (s : State) :
    decodeScratch (placed u x s) = (decodeScratch s).map (placed u x) id := by
  unfold decodeScratch
  simp only [show (placed u x s).scratch = s.scratch from rfl]
  split <;> rfl

theorem runEffect_placed (cfg : Config) (e : Effect) (u : Nat) (x : Option Nat) (s : State) :
    runEffect cfg e (placed u x s) = (runEffect cfg e s).map (placed u x) id := by
  cases e
  case validatedDecode => exact decodeScratch_placed u x s
  all_goals rfl

/-- No effect reads or writes the position or the turn's limit. -/
theorem runEffects_placed (cfg : Config) (es : List Effect) (u : Nat) (x : Option Nat) (s : State) :
    runEffects cfg es (placed u x s) = (runEffects cfg es s).map (placed u x) id := by
  induction es generalizing s with
  | nil => rfl
  | cons e es ih =>
    simp only [runEffects, runEffect_placed]
    rcases runEffect cfg e s with ⟨s', _ | err⟩
    · exact ih s'
    · rfl

theorem answerSlot_placed (cfg : Config) (op : SlotOp) (u : Nat) (x : Option Nat) (s : State) :
    answerSlot cfg op (placed u x s) = placed u x (answerSlot cfg op s) := by
  cases op
  case reset | read =>
    simp only [answerSlot, show (placed u x s).sphase = s.sphase from rfl]
    split <;> rfl
  all_goals rfl

theorem recordSlot_placed (cfg : Config) (op : SlotOp) (u : Nat) (x : Option Nat) (s : State) :
    recordSlot cfg op (placed u x s) = placed u x (recordSlot cfg op s) := by
  cases op <;> rfl

/-- All that a micro-operation does before the controller moves on. -/
def slotResult (cfg : Config) (op : MicroOp) (s : State) : State × Option Err :=
  runEffects cfg op.post (recordSlot cfg op.slot (answerSlot cfg op.slot (runEffects cfg op.pre s).1))

theorem slotResult_placed (cfg : Config) (op : MicroOp) (u : Nat) (x : Option Nat) (s : State) :
    slotResult cfg op (placed u x s) = (slotResult cfg op s).map (placed u x) id := by
  simp only [slotResult, runEffects_placed, Prod.map_fst, answerSlot_placed, recordSlot_placed]

theorem slotResult_uix (cfg : Config) (op : MicroOp) (s : State) : (slotResult cfg op s).1.uix = s.uix :=
  congrArg (fun r => r.1.uix) (slotResult_placed cfg op s.uix s.turn s)

/-! ### Moving on -/

theorem completeCommand_placed (cfg : Config) (b : Body) (u : Nat) (x : Option Nat) (s : State) :
    completeCommand cfg b (placed u x s) = { completeCommand cfg b s with turn := x } := by
  rw [completeCommand, runEffects_placed]
  rfl

/-- Where the controller goes after a micro-operation, by what its slot and effects have left. -/
def moveOn (cfg : Config) (b : Body) : List MicroOp → State × Option Err → State
  | _, (s, some e) => failCommand cfg b e s
  | [], (s, none) => completeCommand cfg b s
  | next :: _, (s, none) => loadSlot cfg next { s with uix := s.uix + 1 }

theorem stepMicroOp_eq (cfg : Config) (b : Body) (op : MicroOp) (rest : List MicroOp) (s : State) :
    stepMicroOp cfg b op rest s = moveOn cfg b rest (slotResult cfg op s) := by
  unfold stepMicroOp endMicroOp slotResult
  split <;> rename_i h <;> rw [h]
  · cases rest <;> rfl
  · cases rest <;> rfl

/-- A controller step that does not end its command moves to the next position. -/
theorem stepMicroOp_uix {cfg : Config} {b : Body} {op : MicroOp} {rest : List MicroOp} {s : State}
    (h : (stepMicroOp cfg b op rest s).busy = true) : (stepMicroOp cfg b op rest s).uix = s.uix + 1 := by
  rw [stepMicroOp_eq] at h ⊢
  rw [← slotResult_uix cfg op s]
  generalize slotResult cfg op s = r at h ⊢
  rcases r with ⟨s', _ | e⟩ <;> cases rest
  case some.nil | some.cons | none.nil => cases h
  case none.cons => rfl

theorem moveOn_withTurn (cfg : Config) (b : Body) (rest : List MicroOp) (x : Option Nat) (r : State × Option Err) :
    moveOn cfg b rest (r.map (placed r.1.uix x) id) = { moveOn cfg b rest r with turn := x } := by
  rcases r with ⟨s, _ | e⟩ <;> cases rest
  case some.nil | some.cons => exact completeCommand_placed cfg b s.uix x { s with err := e }
  case none.nil => exact completeCommand_placed cfg b s.uix x s
  case none.cons => rfl

theorem stepMicroOp_withTurn (cfg : Config) (b : Body) (op : MicroOp) (rest : List MicroOp) (x : Option Nat)
    (s : State) :
    stepMicroOp cfg b op rest { s with turn := x } = { stepMicroOp cfg b op rest s with turn := x } := by
  have hslot := slotResult_placed cfg op s.uix x s
  rw [← slotResult_uix cfg op s] at hslot
  rw [stepMicroOp_eq, stepMicroOp_eq, ← moveOn_withTurn, ← hslot, slotResult_uix]
  rfl

theorem runMicroOps_withTurn (cfg : Config) (b : Body) (n : Nat) (ops : List MicroOp) (x : Option Nat) (s : State) :
    runMicroOps cfg b n ops { s with turn := x } = { runMicroOps cfg b n ops s with turn := x } := by
  induction n generalizing ops s with
  | zero => rfl
  | succ n ih =>
    cases ops with
    | nil => exact completeCommand_placed cfg b s.uix x s
    | cons op rest =>
      rw [runMicroOps_cons, runMicroOps_cons, stepMicroOp_withTurn]
      split
      · exact ih rest _
      · rfl

/-! ### Controller steps from where a command stands -/

/-- At most `n` controller steps of the command in flight, from its position. -/
def runSteps (cfg : Config) (b : Body) (n : Nat) (s : State) : State :=
  if s.busy then runMicroOps cfg b n (opsLeft b s) s else s

theorem runBody_withTurn (cfg : Config) (b : Body) (x : Option Nat) (s : State) :
    runBody cfg b { s with turn := x } =
      { runSteps cfg b (turnSteps b { s with turn := x }) s with turn := x } := by
  unfold runBody runSteps
  split
  · exact runMicroOps_withTurn cfg b _ _ x s
  · rfl

section
variable (cfg : Config) (b : Body) {s : State}

theorem runSteps_idle (n : Nat) (h : s.busy = false) : runSteps cfg b n s = s := by
  simp [runSteps, h]

theorem runSteps_zero (s : State) : runSteps cfg b 0 s = s := by
  simp [runSteps, runMicroOps]

theorem runSteps_nil (n : Nat) (h : s.busy = true) (ho : opsLeft b s = []) :
    runSteps cfg b (n + 1) s = completeCommand cfg b s := by
  simp [runSteps, h, ho, runMicroOps]

/-- The next controller step, then the rest from the position it leaves. -/
theorem runSteps_cons (n : Nat) {op : MicroOp} {rest : List MicroOp} (h : s.busy = true)
    (ho : opsLeft b s = op :: rest) : runSteps cfg b (n + 1) s = runSteps cfg b n (stepMicroOp cfg b op rest s) := by
  rw [runSteps, if_pos h, ho, runMicroOps_cons, runSteps]
  split
  · next hb =>
    have hrest : opsLeft b (stepMicroOp cfg b op rest s) = rest := by
      rw [opsLeft, stepMicroOp_uix hb, List.drop_add_one_eq_tail_drop]
      exact congrArg List.tail ho
    rw [hrest]
  · rfl

/-- `m` controller steps and then `k` more are `m + k`. -/
theorem runSteps_add (m k : Nat) (s : State) : runSteps cfg b (m + k) s = runSteps cfg b k (runSteps cfg b m s) := by
  induction m generalizing s with
  | zero => rw [runSteps_zero, Nat.zero_add]
  | succ m ih =>
    rw [Nat.succ_add]
    cases hb : s.busy with
    | false => simp only [runSteps_idle cfg b _ hb]
    | true =>
      cases ho : opsLeft b s with
      | nil => rw [runSteps_nil cfg b _ hb ho, runSteps_nil cfg b _ hb ho, runSteps_idle cfg b _ rfl]
      | cons op rest => rw [runSteps_cons cfg b _ hb ho, runSteps_cons cfg b _ hb ho, ih]

/-- One controller step more than a command has left ends it. -/
theorem runSteps_ends (n : Nat) (h : (opsLeft b s).length < n) : (runSteps cfg b n s).busy = false := by
  cases hb : s.busy with
  | false => rw [runSteps_idle cfg b n hb, hb]
  | true =>
    obtain ⟨t, ht⟩ := runMicroOps_ends cfg b n _ s hb h
    rw [runSteps, if_pos hb, ht, goIdle_busy]

/-- Steps beyond a command's end change nothing. -/
theorem runSteps_of_le {m n : Nat} (h : (opsLeft b s).length < m) (hmn : m ≤ n) :
    runSteps cfg b n s = runSteps cfg b m s := by
  obtain ⟨k, rfl⟩ := Nat.exists_eq_add_of_le hmn
  rw [runSteps_add, runSteps_idle cfg b k (runSteps_ends cfg b m h)]

/-- `m` steps and then those of the turn `k` are those of the one turn of both. -/
theorem runSteps_split (m : Nat) (k : Option Nat) (s : State) :
    runSteps cfg b (turnSteps b { s with turn := k.map (m + ·) }) s =
      runSteps cfg b (turnSteps b { runSteps cfg b m s with turn := k }) (runSteps cfg b m s) := by
  cases k with
  | some k => exact runSteps_add cfg b m k s
  | none =>
    let t := runSteps cfg b m s
    let n := (opsLeft b s).length + (opsLeft b t).length + 1
    calc runSteps cfg b ((opsLeft b s).length + 1) s
      _ = runSteps cfg b (m + n) s := (runSteps_of_le cfg b (by omega) (by omega)).symm
      _ = runSteps cfg b n t := runSteps_add cfg b m n s
      _ = runSteps cfg b ((opsLeft b t).length + 1) t := runSteps_of_le cfg b (by omega) (by omega)

/-- The turn of `m` steps and then the turn `k` are one turn, its limit aside. -/
theorem runBody_split (m : Nat) (k : Option Nat) (s : State) :
    { runBody cfg b { s with turn := k.map (m + ·) } with turn := none } =
      { runBody cfg b { runBody cfg b { s with turn := some m } with turn := k } with turn := none } := by
  have hm : runBody cfg b { s with turn := some m } = { runSteps cfg b m s with turn := some m } :=
    runBody_withTurn cfg b (some m) s
  rw [hm, runBody_withTurn, runBody_withTurn cfg b k (runSteps cfg b m s)]
  exact congrArg (fun t : State => { t with turn := none }) (runSteps_split cfg b m k s)

end

/-- Settles O34: the first turn keeps the latched address, so the second goes on in the same body. -/
theorem turnSplittingChangesNothing : Obligations.TurnSplittingChangesNothing := by
  unfold Obligations.TurnSplittingChangesNothing
  intro i s m k hi
  let b := bodyOf i s.laddr
  let t1 := runBody Config.owtc b { s with turn := some m }
  have hladdr : t1.laddr = s.laddr := (runBody_kept Config.owtc b { s with turn := some m }).laddr
  have hsecond : exec i { t1 with turn := k } = .next (runBody Config.owtc b { t1 with turn := k }) := by
    rw [exec_command i _ hi, hladdr]
  exact ⟨t1, _, _, exec_command i _ hi, hsecond, exec_command i _ hi, runBody_split Config.owtc b m k s⟩

end Sys2Proof.Machine
end

section
/-! PROOFS. The encoding of command words (30_encoding.md R80 to R86): a word is its four fields, the mask of the
opcode map picks out OP and the reserved bits, and the decoder reads back what the encoder writes. -/

namespace Sys2Proof.Machine
open Laws.EncodingTable (encodeCmd_mask encodeCmd_imm)

/-! ### The fields of a word -/

/-- The four fields of R80 make up the word. -/
theorem wordFields_append (w : Word) : wordRsv1 w ++ (wordImm w ++ (wordRsv0 w ++ wordOp w)) = w := by
  have hlow : wordRsv0 w ++ wordOp w = w.extractLsb' 0 8 := BitVec.extractLsb'_append_extractLsb'_eq_extractLsb' rfl
  have hmid : wordImm w ++ w.extractLsb' 0 8 = w.extractLsb' 0 16 :=
    BitVec.extractLsb'_append_extractLsb'_eq_extractLsb' rfl
  have hall : wordRsv1 w ++ w.extractLsb' 0 16 = w.extractLsb' 0 32 :=
    BitVec.extractLsb'_append_extractLsb'_eq_extractLsb' rfl
  rw [hlow, hmid, hall, BitVec.extractLsb'_eq_self]

theorem word_eq_of_fields {w v : Word} (hop : wordOp w = wordOp v) (hrsv0 : wordRsv0 w = wordRsv0 v)
    (himm : wordImm w = wordImm v) (hrsv1 : wordRsv1 w = wordRsv1 v) : w = v := by
  rw [← wordFields_append w, ← wordFields_append v, hop, hrsv0, himm, hrsv1]

/-- The mask of the opcode map keeps every field but IMM (30_encoding.md R83). -/
theorem maskedWord_fields (w : Word) :
    wordOp (w &&& 0xFFFF00FF) = wordOp w ∧ wordRsv0 (w &&& 0xFFFF00FF) = wordRsv0 w ∧
      wordRsv1 (w &&& 0xFFFF00FF) = wordRsv1 w := by
  refine ⟨?_, ?_, ?_⟩ <;> exact BitVec.extractLsb'_and.trans BitVec.and_allOnes

theorem matchWord_fields (op : BitVec 4) :
    wordOp (op.setWidth 32) = op ∧ wordRsv0 (op.setWidth 32) = 0 ∧ wordRsv1 (op.setWidth 32) = 0 := by
  have habove (start len : Nat) (h : 4 ≤ start) : (op.setWidth 32).extractLsb' start len = 0 := by
    apply BitVec.eq_of_getLsbD_eq
    intro i _
    have hbit : op.getLsbD (start + i) = false := BitVec.getLsbD_of_ge op _ (by omega)
    simp [BitVec.getLsbD_extractLsb', BitVec.getLsbD_setWidth, hbit]
  have hop : (op.setWidth 32).extractLsb' 0 4 = op :=
    (BitVec.extractLsb'_setWidth_of_le (by decide)).trans BitVec.extractLsb'_eq_self
  exact ⟨hop, habove 4 4 (by decide), habove 16 16 (by decide)⟩

/-- A word that matches a row of the opcode map has the row's OP and zero reserved bits. -/
theorem fields_of_match {w : Word} {op : BitVec 4} (h : w &&& 0xFFFF00FF = op.setWidth 32) :
    wordOp w = op ∧ wordRsv0 w = 0 ∧ wordRsv1 w = 0 := by
  obtain ⟨hop, hrsv0, hrsv1⟩ := maskedWord_fields w
  rw [← hop, ← hrsv0, ← hrsv1, h]
  exact matchWord_fields op

/-! ### The decoder -/

theorem decodeCmd_eq_ok_iff {w : Word} {i : Instr} :
    decodeCmd w = .ok i ↔ wordRsv0 w = 0 ∧ wordRsv1 w = 0 ∧ instrOf (wordOp w) (wordImm w) = i := by
  unfold decodeCmd
  split
  · next h0 => exact iff_of_false nofun fun ⟨hrsv0, _, _⟩ => h0 hrsv0
  · split
    · next h1 => exact iff_of_false nofun fun ⟨_, hrsv1, _⟩ => h1 hrsv1
    · next h0 h1 => simp [not_not.mp h0, not_not.mp h1]

/-- A word with a nonzero reserved bit is no command (30_encoding.md R82). -/
theorem decodeCmd_error_of_reserved {w : Word} (h : wordRsv0 w ≠ 0 ∨ wordRsv1 w ≠ 0) :
    ∃ e, decodeCmd w = .error e := by
  cases hd : decodeCmd w with
  | error e => exact ⟨e, rfl⟩
  | ok i =>
    obtain ⟨hrsv0, hrsv1, -⟩ := decodeCmd_eq_ok_iff.mp hd
    exact absurd h (by simp [hrsv0, hrsv1])

theorem decodeCmd_of_match {w : Word} {op : BitVec 4} (h : w &&& 0xFFFF00FF = op.setWidth 32) :
    decodeCmd w = .ok (instrOf op (w.extractLsb' 8 8)) := by
  obtain ⟨hop, hrsv0, hrsv1⟩ := fields_of_match h
  exact decodeCmd_eq_ok_iff.mpr ⟨hrsv0, hrsv1, by rw [hop, wordImm]⟩

/-- Every OP with every IMM is a command (30_encoding.md R83, R84). -/
theorem decodeCmd_encodeCmd (op : BitVec 4) (imm : Byte) : decodeCmd (encodeCmd op imm) = .ok (instrOf op imm) := by
  rw [decodeCmd_of_match (encodeCmd_mask op imm), encodeCmd_imm]

/-! ### The encoder -/

theorem opOf_instrOf (op : BitVec 4) (imm : Byte) : opOf (instrOf op imm) = op := by
  obtain ⟨n⟩ := op
  fin_cases n <;> rfl

theorem immOf_instrOf (op : BitVec 4) (imm : Byte) : immOf (instrOf op imm) = imm := by
  unfold instrOf
  split <;> rfl

/-- A command is encoded by its opcode and its immediate (30_encoding.md R83). -/
theorem encode_command {i : Instr} (h : isCommand i = true) : encode i = .cmd (encodeCmd (opOf i) (immOf i)) := by
  cases i
  case matchRom | convertT | readScratchpadFn => simp [isCommand] at h
  all_goals rfl

/-- The word of a decoded command is the word it was decoded from: OP, IMM and zero reserved bits are all of it. -/
theorem encode_of_decodeCmd {w : Word} {i : Instr} (h : decodeCmd w = .ok i) : encode i = .cmd w := by
  obtain ⟨hrsv0, hrsv1, rfl⟩ := decodeCmd_eq_ok_iff.mp h
  obtain ⟨hop', hrsv0', hrsv1'⟩ := fields_of_match (encodeCmd_mask (wordOp w) (wordImm w))
  rw [encode_command (isCommand_instrOf _ _), opOf_instrOf, immOf_instrOf]
  congr 1
  exact word_eq_of_fields hop' (hrsv0'.trans hrsv0.symm) (encodeCmd_imm _ _) (hrsv1'.trans hrsv1.symm)

/-- Settles O1: a command by its opcode and immediate, a bus byte by its value. -/
theorem decodeOfEncodeIsIdentity : Obligations.DecodeOfEncodeIsIdentity := by
  unfold Obligations.DecodeOfEncodeIsIdentity
  intro i _
  by_cases hi : isCommand i = true
  · rw [encode_command hi, decode, decodeCmd_encodeCmd, instrOf_opOf_immOf hi]
  · cases i
    case matchRom | convertT | readScratchpadFn => rfl
    all_goals exact absurd rfl hi

/-! ### Well-formed codes -/

theorem wellFormed_cmd_iff (w : Word) : (Code.cmd w).wellFormed = true ↔ wordRsv0 w = 0 ∧ wordRsv1 w = 0 := by
  simp [Code.wellFormed, wordRsv0, wordRsv1]

theorem wellFormed_bus_iff (v : Byte) : (Code.bus v).wellFormed = true ↔ v = 0x55 ∨ v = 0x44 ∨ v = 0xBE := by
  simp [Code.wellFormed, or_assoc]

/-- The three bus bytes and what each stands for (30_encoding.md R86). -/
theorem decodeBusByte_eq_ok_iff {v : Byte} {i : Instr} :
    decodeBusByte v = .ok i ↔
      v = 0x55 ∧ i = .matchRom ∨ v = 0x44 ∧ i = .convertT ∨ v = 0xBE ∧ i = .readScratchpadFn := by
  unfold decodeBusByte
  split
  · next h => simp [h, eq_comm]
  · split
    · next h => simp [h, eq_comm]
    · split
      · next h => simp [h, eq_comm]
      · refine iff_of_false nofun ?_
        rintro (⟨hv, -⟩ | ⟨hv, -⟩ | ⟨hv, -⟩) <;> contradiction

/-- Settles O2: a word decodes when its reserved bits are zero, a byte when it is one of the three. -/
theorem decodableCodesAreTheWellFormedOnes : Obligations.DecodableCodesAreTheWellFormedOnes := by
  unfold Obligations.DecodableCodesAreTheWellFormedOnes
  intro c
  cases c with
  | cmd w =>
    refine ⟨?_, fun i h => encode_of_decodeCmd h⟩
    simp [wellFormed_cmd_iff, decode, decodeCmd_eq_ok_iff]
  | bus v =>
    refine ⟨?_, fun i h => ?_⟩
    · simp [wellFormed_bus_iff, decode, decodeBusByte_eq_ok_iff, exists_or]
    · rcases decodeBusByte_eq_ok_iff.mp h with ⟨rfl, rfl⟩ | ⟨rfl, rfl⟩ | ⟨rfl, rfl⟩ <;> rfl

/-- Settles O3, row by row: the match and the mask fix every field but IMM. -/
theorem matchAndMaskSelectTheCommand : Obligations.MatchAndMaskSelectTheCommand := by
  unfold Obligations.MatchAndMaskSelectTheCommand
  intro w
  exact ⟨decodeCmd_of_match (op := 0x0), decodeCmd_of_match (op := 0x1), decodeCmd_of_match (op := 0x2),
    decodeCmd_of_match (op := 0x3), decodeCmd_of_match (op := 0x4), decodeCmd_of_match (op := 0x5),
    decodeCmd_of_match (op := 0x6), decodeCmd_of_match (op := 0x7), decodeCmd_of_match (op := 0x8),
    decodeCmd_of_match (op := 0x9), decodeCmd_of_match (op := 0xA), decodeCmd_of_match (op := 0xB),
    decodeCmd_of_match (op := 0xC), decodeCmd_of_match (op := 0xD), decodeCmd_of_match (op := 0xE),
    decodeCmd_of_match (op := 0xF)⟩

/-- Settles O4: fixed words, decoded. -/
theorem specWordsDecode : Obligations.SpecWordsDecode := by
  unfold Obligations.SpecWordsDecode
  decide

end Sys2Proof.Machine
end

section
/-! PROOFS. A word offered to CMD (30_encoding.md R81, R82): dropped, refused or accepted, what acceptance latches, and
that the accepted command runs to its end. -/

namespace Sys2Proof.Machine

/-! ### The three arms of an offered word -/

section
variable (cfg : Config) (n : Nat) {s : State} {w : Word}

theorem hostAccess_cmd {b : Bool} (hb : s.busy = b) :
    hostAccess cfg (.write n 0x00 w) s s = offerCommand cfg b w s := by
  subst hb
  rfl

theorem hostAccess_cmd_busy (hb : s.busy = true) :
    hostAccess cfg (.write n 0x00 w) s s = { s with ovr := true } := by
  rw [hostAccess_cmd cfg n hb, offerCommand_busy]

theorem hostAccess_cmd_reserved (hb : s.busy = false) (h : wordRsv0 w ≠ 0 ∨ wordRsv1 w ≠ 0) :
    hostAccess cfg (.write n 0x00 w) s s = { s with err := .illegalCmd } := by
  obtain ⟨e, he⟩ := decodeCmd_error_of_reserved h
  rw [hostAccess_cmd cfg n hb, offerCommand_refuse cfg w e s he, refuseCommand]

theorem hostAccess_cmd_accepted (hb : s.busy = false) (h : ¬ (wordRsv0 w ≠ 0 ∨ wordRsv1 w ≠ 0)) :
    hostAccess cfg (.write n 0x00 w) s s = acceptCommand cfg (instrOf (wordOp w) (wordImm w)) s := by
  simp only [ne_eq, not_or, not_not] at h
  obtain ⟨hrsv0, hrsv1⟩ := h
  have hd : decodeCmd w = .ok (instrOf (wordOp w) (wordImm w)) := decodeCmd_eq_ok_iff.mpr ⟨hrsv0, hrsv1, rfl⟩
  rw [hostAccess_cmd cfg n hb, offerCommand_accept cfg w _ s hd]

end

/-- Settles O9: the refused and the busy arm of an offered word, and that the decoder takes every OP. -/
theorem refusalSetsOnlyErr : Obligations.RefusalSetsOnlyErr := by
  unfold Obligations.RefusalSetsOnlyErr
  exact ⟨fun _ _ hb hr => hostAccess_cmd_reserved _ 4 hb hr, fun op imm => ⟨_, decodeCmd_encodeCmd op imm⟩,
    fun _ _ hb _ => hostAccess_cmd_busy _ 4 hb⟩

/-! ### What acceptance latches -/

/-- LADDR by OP: SELECT by its source bit, MEASURE and CYCLE from the table (30_encoding.md R81). -/
theorem acceptLaddr_eq (cfg : Config) (i : Instr) (s : State) :
    acceptLaddr cfg i s =
      if opOf i = 0x6 then if immBit (immOf i) = false then s.addr else tableOut cfg s
      else if opOf i = 0xD ∨ opOf i = 0xF then tableOut cfg s
      else s.laddr := by
  cases i
  case select imm => cases h : immBit imm <;> simp [acceptLaddr, selectAddr, opOf, immOf, h]
  all_goals rfl

/-- LSLOT by OP: MEASURE and CYCLE latch the cursor (30_encoding.md R81). -/
theorem acceptLslot_eq (i : Instr) (s : State) :
    acceptLslot i s = if opOf i = 0xD ∨ opOf i = 0xF then s.cursor else s.lslot := by
  cases i <;> rfl

/-- RES_VALID by OP: DECODE, MEASURE and CYCLE clear it (30_encoding.md R81). -/
theorem acceptResValid_eq (i : Instr) (s : State) :
    acceptResValid i s = if opOf i = 0xB ∨ opOf i = 0xD ∨ opOf i = 0xF then false else s.resValid := by
  cases i <;> rfl

theorem immBit_wordImm (w : Word) : immBit (wordImm w) = w.getLsbD 8 := by
  simp [immBit, wordImm]

/-- From `s` to `t` only the fields of the current time slot change (10_state.md R42, R43). -/
def OnlySlotMoved (s t : State) : Prop :=
  t = { s with
    slot := t.slot, sphase := t.sphase, tcnt := t.tcnt, bitcnt := t.bitcnt, bytecnt := t.bytecnt, shreg := t.shreg,
    mstep := t.mstep, dqOe := t.dqOe }

theorem loadFirst_onlySlotMoved (cfg : Config) (b : Body) (s : State) : OnlySlotMoved s (loadFirst cfg b s) := by
  unfold loadFirst
  split <;> rfl

theorem acceptCommand_onlySlotMoved (cfg : Config) (i : Instr) (s : State) :
    OnlySlotMoved (latchCommand cfg i s) (acceptCommand cfg i s) :=
  loadFirst_onlySlotMoved cfg _ _

/-! ### An accepted command runs to its end -/

/-- With no limit of its turn a command ends, from any position in its body (60_exceptions.md R222). -/
theorem runBody_ends (cfg : Config) (b : Body) {s : State} (h : s.turn = none) : (runBody cfg b s).busy = false := by
  have hsteps : turnSteps b s = (opsLeft b s).length + 1 := by simp only [turnSteps, h]
  change (runSteps cfg b (turnSteps b s) s).busy = false
  exact runSteps_ends cfg b _ (by omega)

theorem acceptCommand_ends {i : Instr} {s : State} (hi : isCommand i = true) (h : s.turn = none) :
    ∃ u, exec (acceptCommand Config.owtc i s).current (acceptCommand Config.owtc i s) = .next u ∧ u.busy = false := by
  have hturn : (acceptCommand Config.owtc i s).turn = none := by
    have hk : Kept (latchCommand Config.owtc i s) (acceptCommand Config.owtc i s) := loadFirst_kept _ _ _
    exact hk.turn.trans h
  rw [acceptCommand_current _ s hi]
  exact ⟨_, exec_command i _ hi, runBody_ends _ _ hturn⟩

/-- Settles O8, arm by arm: an accepted word latches by its OP and IMM, and only the slot fields move besides. -/
theorem acceptanceLatchesTheCommand : Obligations.AcceptanceLatchesTheCommand := by
  unfold Obligations.AcceptanceLatchesTheCommand
  rintro s _ w rfl
  split
  · next hb => exact hostAccess_cmd_busy _ 4 hb
  · next hb =>
    rw [Bool.not_eq_true] at hb
    split
    · next hr => exact hostAccess_cmd_reserved _ 4 hb hr
    · next hr =>
      rw [hostAccess_cmd_accepted _ 4 hb hr]
      refine ⟨(acceptCommand_onlySlotMoved _ _ s).trans ?_, acceptCommand_ends (isCommand_instrOf _ _)⟩
      simp only [latchCommand, opOf_instrOf, immOf_instrOf, acceptLaddr_eq, acceptLslot_eq, acceptResValid_eq,
        immBit_wordImm]
      rfl

end Sys2Proof.Machine
end

section
/-! PROOFS. A bus byte sent by itself (30_encoding.md R86, 40_bus_primitives.md R103). -/

namespace Sys2Proof.Machine

/-- Write slots one after the other append their bits to the history and shift the shift register once each. -/
theorem foldl_recordSlot_writeBitOp (cfg : Config) (v : Byte) (byte mstep : BitVec 4) (l : List Nat) (s : State) :
    (l.map (writeBitOp v byte mstep)).foldl (fun s op => recordSlot cfg op.slot s) s =
      { s with hist := s.hist ++ l.map fun i => .write (v.getLsbD i), shreg := s.shreg >>> l.length } := by
  induction l generalizing s with
  | nil => simp
  | cons i l ih =>
    rw [List.map_cons, List.foldl_cons, ih]
    simp [recordSlot, writeBitOp, ← BitVec.shiftRight_add, Nat.add_comm]

/-- A byte sent by itself is its eight write events, bit 0 first, and leaves the shift register empty. -/
theorem sendByteAlone_eq (cfg : Config) (v : Byte) (s : State) :
    sendByteAlone cfg v s = sequencerRest { s with hist := s.hist ++ writeEvents v, shreg := 0 } := by
  have hempty : v >>> bitOrder.length = 0 := BitVec.ushiftRight_eq_zero (by decide)
  rw [sendByteAlone, writeByteOps, foldl_recordSlot_writeBitOp, hempty, writeEvents]

/-- Settles O31: each row sends its byte, and the bytes' bits are those of R86. -/
theorem busBytesAreSentLowBitFirst : Obligations.BusBytesAreSentLowBitFirst := by
  unfold Obligations.BusBytesAreSentLowBitFirst
  intro s
  exact ⟨congrArg Host.Outcome.next (sendByteAlone_eq _ matchRomByte s),
    congrArg Host.Outcome.next (sendByteAlone_eq _ convertByte s),
    congrArg Host.Outcome.next (sendByteAlone_eq _ readScratchpadByte s)⟩

end Sys2Proof.Machine
end

section
/-! PROOFS. The bus primitives (40_bus_primitives.md R106 to R112): a command of one slot is what the slot and its
effects leave, and a byte's command is the shared run of its eight slots. -/

namespace Sys2Proof.Machine
open Pseudo

/-! ### Commands of one slot -/

/-- A body of one micro-operation ends after it, whether it fails or not (60_exceptions.md R222). -/
theorem runBody_oneOp (cfg : Config) (op : MicroOp) {s : State} (h : Started s) :
    runBody cfg { ops := [op] } s = moveOn cfg { ops := [op] } [] (slotResult cfg op s) := by
  have hend (r : State × Option Err) : (moveOn cfg { ops := [op] } [] r).busy = false := by
    rcases r with ⟨t, _ | e⟩ <;> rfl
  rw [runBody_started _ _ _ h]
  change runMicroOps cfg { ops := [op] } 2 [op] s = _
  simp [runMicroOps_cons, stepMicroOp_eq, hend]

/-- A reset slot not sampled yet takes its answer from the bus environment (40_bus_primitives.md R100). -/
theorem recordSlot_answerSlot_reset (cfg : Config) {s : State} (h : s.sphase ≠ .recover) :
    recordSlot cfg .reset (answerSlot cfg .reset s) = (busReset cfg s).2 := by
  simp [recordSlot, answerSlot, h, busReset, samplePresence]

/-- `if not p: fail BUS_ABSENT` (40_bus_primitives.md R107). -/
theorem runEffects_failIfAbsent (cfg : Config) (s : State) :
    runEffects cfg [.failIfAbsent] s = (s, if s.presence then none else some .busAbsent) := by
  simp only [runEffects, runEffect]
  cases s.presence <;> rfl

/-- A reset slot whose command fails on no presence (40_bus_primitives.md R107). -/
theorem slotResult_resetOp (cfg : Config) (mstep : BitVec 4) {s : State} (h : s.sphase ≠ .recover) :
    slotResult cfg (resetOp [] mstep) s =
      ((busReset cfg s).2, if cfg.presence s.hist s.choice then none else some .busAbsent) := by
  change runEffects cfg [.failIfAbsent] (recordSlot cfg .reset (answerSlot cfg .reset s)) = _
  rw [recordSlot_answerSlot_reset cfg h, runEffects_failIfAbsent]
  rfl

/-- A read slot with its bit stored in RXBIT (40_bus_primitives.md R110). -/
theorem slotResult_storeRxBit (cfg : Config) {s : State} (h : s.sphase ≠ .recover) :
    slotResult cfg { slot := .read, post := [.storeRxBit] } s =
      ({ oneRead cfg s with rxbit := (busReadBit cfg s).1 }, none) := by
  change runEffects cfg [.storeRxBit] (recordSlot cfg .read (answerSlot cfg .read s)) = _
  rw [recordSlot_answerSlot_read cfg s h]
  simp [runEffects, runEffect, oneRead]

/-- Settles O16: a body without effects only ends. -/
theorem nopOnlyEnds : Obligations.NopOnlyEnds := by
  unfold Obligations.NopOnlyEnds
  intro s imm h
  rw [exec_command _ s rfl]
  exact congrArg Host.Outcome.next (runBody_instant _ [] s s h rfl)

/-- Settles O17: with presence the reset slot's state is the command's, without it ERR is set besides. -/
theorem resetReportsPresence : Obligations.ResetReportsPresence := by
  unfold Obligations.ResetReportsPresence
  rintro s imm p h rfl
  have ⟨_, _, _, hphase⟩ := h
  have hrun := runBody_oneOp Config.owtc (resetOp [] 0) h
  rw [slotResult_resetOp _ _ hphase] at hrun
  rw [exec_command _ s rfl]
  refine congrArg Host.Outcome.next (hrun.trans ?_)
  simp only [busReset]
  cases Config.owtc.presence s.hist s.choice <;> rfl

/-- Settles O18: the one write slot appends IMM[0] and shifts once. -/
theorem writeBitSendsTheLowBit : Obligations.WriteBitSendsTheLowBit := by
  unfold Obligations.WriteBitSendsTheLowBit
  intro s imm h
  rw [exec_command _ s rfl]
  exact congrArg Host.Outcome.next (runBody_oneOp _ { slot := .write (immBit imm), load := some imm } h)

/-- Settles O19: the one read slot pushes its answer, and RXBIT takes it from there. -/
theorem readBitReturnsTheSlotsBit : Obligations.ReadBitReturnsTheSlotsBit := by
  unfold Obligations.ReadBitReturnsTheSlotsBit
  rintro s imm b h rfl
  have ⟨_, _, _, hphase⟩ := h
  have hrun := runBody_oneOp Config.owtc { slot := .read, post := [.storeRxBit] } h
  rw [slotResult_storeRxBit _ hphase] at hrun
  rw [exec_command _ s rfl]
  exact congrArg Host.Outcome.next hrun

/-! ### Commands of one byte -/

/-- Settles O20: the body is `BusWriteByte(IMM)`, whose eight slots empty the shift register. -/
theorem writeByteSendsEightBits : Obligations.WriteByteSendsEightBits := by
  unfold Obligations.WriteByteSendsEightBits
  intro s imm h
  have ⟨hbusy, _⟩ := h
  rw [exec_command _ s rfl]
  refine congrArg Host.Outcome.next ((runBody_started _ _ s h).trans ?_)
  exact runMicroOps_writeByteOps_last _ (writeByteBody imm) rfl 1 imm 0 0 s hbusy

/-- Settles O21: the body is `BusReadByte()`, whose byte RXBYTE takes from the shift register. -/
theorem readByteAssemblesEightBits : Obligations.ReadByteAssemblesEightBits := by
  unfold Obligations.ReadByteAssemblesEightBits
  intro s imm h
  have ⟨hbusy, _, _, hphase⟩ := h
  obtain ⟨v, hv, hread⟩ := busReadByte_answers Config.owtc s
  refine ⟨v, hv, ?_⟩
  rw [exec_command _ s rfl]
  refine congrArg Host.Outcome.next ((runBody_started _ _ s h).trans ?_)
  exact runMicroOps_readByteOps_last _ readByteBody [.storeRxByte] 0 0 1 v s _ hbusy hphase hread

end Sys2Proof.Machine
end

section
/-! PROOFS. A time slot in clock cycles (40_bus_primitives.md R100 to R105, 70_reset_and_hazards.md R267, R270): the
phase of each cycle in closed form, the invariant of the cycles inside a slot, and the slot's last cycle. -/

namespace Sys2Proof.Machine

/-! ### The phase of each cycle -/

section
variable (t : Timing) {op : SlotOp} {j : Nat}

/-- The cycle in which a slot samples the line; a slot without a sample never gets to it, since it is its length. -/
def sampleAt (t : Timing) : SlotOp → Nat
  | .reset => t.tRstl + t.tMsp
  | .read => t.tRl + t.tMsr
  | .none => slotLength t .none
  | .write b => slotLength t (.write b)
  | .wait => slotLength t .wait

/-- The phase of cycle `j` of a slot and the cycles left in it, this one included. -/
def phaseAt (t : Timing) (op : SlotOp) (j : Nat) : Phase × Nat :=
  if j < slotLow t op then (.low, slotLow t op - j)
  else if j < sampleAt t op then (.release, sampleAt t op - j)
  else if j = sampleAt t op then (.sample, slotLength t op - j)
  else (.recover, slotLength t op - j)

theorem slotLow_lt_sampleAt (hop : op ≠ .none) : slotLow t op < sampleAt t op := by
  cases op
  case none => exact absurd rfl hop
  case write b => cases b <;> simp [slotLow, sampleAt, slotLength]
  all_goals simp [slotLow, sampleAt, slotLength]

theorem sampleAt_le_slotLength (op : SlotOp) : sampleAt t op ≤ slotLength t op := by
  cases op
  case reset | read => exact Nat.le_add_right _ _
  all_goals exact Nat.le_refl _

theorem phaseAt_low (h : j < slotLow t op) : phaseAt t op j = (.low, slotLow t op - j) := by
  simp [phaseAt, h]

theorem phaseAt_release (hl : slotLow t op ≤ j) (h : j < sampleAt t op) :
    phaseAt t op j = (.release, sampleAt t op - j) := by
  simp [phaseAt, h, hl]

theorem phaseAt_sample (hop : op ≠ .none) :
    phaseAt t op (sampleAt t op) = (.sample, slotLength t op - sampleAt t op) := by
  simp [phaseAt, (slotLow_lt_sampleAt t hop).le]

theorem phaseAt_recover (hop : op ≠ .none) (h : sampleAt t op < j) :
    phaseAt t op j = (.recover, slotLength t op - j) := by
  have hlow := slotLow_lt_sampleAt t hop
  simp [phaseAt, h.ne', h.not_gt, (hlow.trans h).not_gt]

theorem phaseAt_zero (hop : op ≠ .none) : phaseAt t op 0 = firstPhase t op := by
  cases op
  case none => exact absurd rfl hop
  case write b => cases b <;> simp [phaseAt, firstPhase, slotLow]
  all_goals simp [phaseAt, firstPhase, slotLow, sampleAt, slotLength]

/-- A slot stands as at its start in its first cycle only. -/
theorem phaseAt_eq_firstPhase_iff (hop : op ≠ .none) : phaseAt t op j = firstPhase t op ↔ j = 0 := by
  have hlow := slotLow_lt_sampleAt t hop
  rw [← phaseAt_zero t hop]
  refine ⟨fun h => ?_, fun h => h ▸ rfl⟩
  unfold phaseAt at h
  split_ifs at h <;> simp at h <;> omega

/-- A slot is in its sampling phase in one cycle only. -/
theorem phaseAt_sample_iff (hop : op ≠ .none) : (phaseAt t op j).1 = .sample ↔ j = sampleAt t op := by
  have hlow := slotLow_lt_sampleAt t hop
  unfold phaseAt
  split_ifs <;> simp <;> omega

theorem nextPhase_low (h : 0 < slotLow t op) :
    nextPhase t op .low = some (.release, sampleAt t op - slotLow t op) := by
  cases op
  case none | wait => exact absurd h (Nat.lt_irrefl 0)
  case write b => cases b <;> simp [nextPhase, sampleAt, slotLow, slotLength]
  all_goals simp [nextPhase, sampleAt, slotLow]

theorem nextPhase_release (h : sampleAt t op < slotLength t op) :
    nextPhase t op .release = some (.sample, slotLength t op - sampleAt t op) := by
  cases op
  case reset | read => simp [nextPhase, sampleAt, slotLength]
  all_goals exact absurd h (Nat.lt_irrefl _)

theorem nextPhase_release_last (h : sampleAt t op = slotLength t op) : nextPhase t op .release = none := by
  cases op
  case reset | read => simp [sampleAt, slotLength] at h
  all_goals rfl

theorem nextPhase_sample (op : SlotOp) : nextPhase t op .sample = none := by
  cases op <;> rfl

theorem nextPhase_recover (op : SlotOp) : nextPhase t op .recover = none := by
  cases op <;> rfl

theorem drives_of_ne_low (op : SlotOp) {ph : Phase} (h : ph ≠ .low) : drives op ph = false := by
  cases ph
  case low => exact absurd rfl h
  all_goals cases op <;> rfl

/-- The line is driven in the low time only. -/
theorem drives_phaseAt (op : SlotOp) (j : Nat) : drives op (phaseAt t op j).1 = decide (j < slotLow t op) := by
  by_cases hl : j < slotLow t op
  · rw [phaseAt_low t hl]
    cases op
    case none | wait => exact absurd hl (Nat.not_lt_zero j)
    all_goals simpa [drives] using hl
  · have hph : (phaseAt t op j).1 ≠ .low := by
      unfold phaseAt
      split_ifs <;> simp
    rw [drives_of_ne_low op hph, decide_eq_false hl]

/-- While cycles are left in a phase the next one stays in it; after the sampling cycle it is `recover`. -/
theorem phaseAt_succ_of_one_lt (hop : op ≠ .none) (h : 1 < (phaseAt t op j).2) :
    phaseAt t op (j + 1) =
      (if (phaseAt t op j).1 = .sample then .recover else (phaseAt t op j).1, (phaseAt t op j).2 - 1) := by
  by_cases hl : j < slotLow t op
  · rw [phaseAt_low t hl] at h ⊢
    rw [phaseAt_low t (by omega)]
    simp [Nat.sub_sub]
  rcases lt_trichotomy j (sampleAt t op) with hr | rfl | hr
  · rw [phaseAt_release t (by omega) hr] at h ⊢
    rw [phaseAt_release t (by omega) (by omega)]
    simp [Nat.sub_sub]
  · rw [phaseAt_recover t hop (by omega), phaseAt_sample t hop]
    simp [Nat.sub_sub]
  · rw [phaseAt_recover t hop (by omega), phaseAt_recover t hop hr]
    simp [Nat.sub_sub]

/-- The last cycle of a phase, inside the slot, enters the next. -/
theorem nextPhase_phaseAt (hop : op ≠ .none) (h : ¬ 1 < (phaseAt t op j).2) (hj : j + 1 < slotLength t op) :
    nextPhase t op (phaseAt t op j).1 = some (phaseAt t op (j + 1)) := by
  have hlow := slotLow_lt_sampleAt t hop
  by_cases hl : j < slotLow t op
  · rw [phaseAt_low t hl] at h ⊢
    have hend : j + 1 = slotLow t op := by omega
    rw [nextPhase_low t (by omega), hend, phaseAt_release t le_rfl hlow]
  rcases lt_trichotomy j (sampleAt t op) with hr | rfl | hr
  · rw [phaseAt_release t (by omega) hr] at h ⊢
    have hend : j + 1 = sampleAt t op := by omega
    rw [nextPhase_release t (by omega), hend, phaseAt_sample t hop]
  · rw [phaseAt_sample t hop] at h
    omega
  · rw [phaseAt_recover t hop hr] at h
    omega

/-- The last cycle of a slot has no phase after it. -/
theorem phaseAt_last (hop : op ≠ .none) (hj : j + 1 = slotLength t op) :
    (phaseAt t op j).2 = 1 ∧ nextPhase t op (phaseAt t op j).1 = none := by
  have hlow := slotLow_lt_sampleAt t hop
  have hle := sampleAt_le_slotLength t op
  rcases lt_trichotomy j (sampleAt t op) with hr | rfl | hr
  · rw [phaseAt_release t (by omega) hr]
    exact ⟨by simp; omega, nextPhase_release_last t (by omega)⟩
  · rw [phaseAt_sample t hop]
    exact ⟨by simp; omega, nextPhase_sample t op⟩
  · rw [phaseAt_recover t hop hr]
    exact ⟨by simp; omega, nextPhase_recover t op⟩

end

/-! ### A state's place in the slot's time -/

section
variable (cfg : Config) (b : Body) {op : MicroOp} (rest : List MicroOp) {s u : State} {j : Nat}

/-- `s` with the time in the slot, the driver and the line of `u`. -/
def timedAs (u s : State) : State :=
  { s with sphase := u.sphase, tcnt := u.tcnt, dqOe := u.dqOe, dqSync := u.dqSync, devLow := u.devLow }

theorem timedAs_timedAs (u v s : State) : timedAs u (timedAs v s) = timedAs u s := rfl

theorem syncLine_timedAs (d : Bool) (u v s : State) :
    syncLine d u (timedAs v s) = timedAs (syncLine d u v) s := rfl

theorem decodeScratch_timedAs (u s : State) :
    decodeScratch (timedAs u s) = (decodeScratch s).map (timedAs u) id := by
  unfold decodeScratch
  simp only [show (timedAs u s).scratch = s.scratch from rfl]
  split <;> rfl

theorem runEffect_timedAs (e : Effect) (u s : State) :
    runEffect cfg e (timedAs u s) = (runEffect cfg e s).map (timedAs u) id := by
  cases e
  case validatedDecode => exact decodeScratch_timedAs u s
  all_goals rfl

/-- No effect reads or writes the time in the slot, the driver or the line. -/
theorem runEffects_timedAs (es : List Effect) (u s : State) :
    runEffects cfg es (timedAs u s) = (runEffects cfg es s).map (timedAs u) id := by
  induction es generalizing s with
  | nil => rfl
  | cons e es ih =>
    simp only [runEffects, runEffect_timedAs]
    rcases runEffect cfg e s with ⟨s', _ | err⟩
    · exact ih s'
    · rfl

theorem recordSlot_timedAs (op : SlotOp) (u s : State) :
    recordSlot cfg op (timedAs u s) = timedAs u (recordSlot cfg op s) := by
  cases op <;> rfl

theorem completeCommand_timedAs (u s : State) :
    completeCommand cfg b (timedAs u s) =
      { completeCommand cfg b s with dqSync := u.dqSync, devLow := u.devLow } := by
  rw [completeCommand, runEffects_timedAs]
  rfl

theorem moveOn_timedAs (u : State) (r : State × Option Err) :
    moveOn cfg b rest (r.map (timedAs u) id) =
      { moveOn cfg b rest r with dqSync := u.dqSync, devLow := u.devLow } := by
  rcases r with ⟨s, _ | e⟩ <;> cases rest
  case some.nil | some.cons => exact completeCommand_timedAs cfg b u { s with err := e }
  case none.nil => exact completeCommand_timedAs cfg b u s
  case none.cons => rfl

theorem endMicroOp_eq (s : State) :
    endMicroOp cfg b op rest s = moveOn cfg b rest (runEffects cfg op.post (recordSlot cfg op.slot s)) := by
  unfold endMicroOp
  split <;> rename_i h <;> rw [h] <;> cases rest <;> rfl

/-- The end of a slot gives the next one its own time and driver, and leaves the line. -/
theorem endMicroOp_timedAs (u s : State) :
    endMicroOp cfg b op rest (timedAs u s) =
      { endMicroOp cfg b op rest s with dqSync := u.dqSync, devLow := u.devLow } := by
  rw [endMicroOp_eq, endMicroOp_eq, recordSlot_timedAs, runEffects_timedAs, moveOn_timedAs]

/-! ### One cycle's count -/

/-- A state stands in cycle `j` of a slot. -/
structure Counts (t : Timing) (op : SlotOp) (j : Nat) (u : State) : Prop where
  sphase : u.sphase = (phaseAt t op j).1
  tcnt : u.tcnt = (phaseAt t op j).2
  dqOe : u.dqOe = drives op u.sphase

theorem Counts.timedAs {t : Timing} {op : SlotOp} (h : Counts t op j u) (s : State) : Counts t op j (timedAs u s) :=
  ⟨h.sphase, h.tcnt, h.dqOe⟩

/-- Inside a slot a cycle only counts on. -/
theorem countCycle_inside (hop : op.slot ≠ .none) (h : Counts cfg.timing op.slot j u)
    (hj : j + 1 < slotLength cfg.timing op.slot) :
    Counts cfg.timing op.slot (j + 1) (countCycle cfg b op rest u) ∧
      countCycle cfg b op rest u = timedAs (countCycle cfg b op rest u) u := by
  obtain ⟨hs, ht, hdq⟩ := h
  by_cases hstay : 1 < u.tcnt
  · have hnext := phaseAt_succ_of_one_lt cfg.timing hop (ht ▸ hstay)
    have hcount : countCycle cfg b op rest u =
        { u with tcnt := u.tcnt - 1, sphase := if u.sphase = .sample then .recover else u.sphase } := if_pos hstay
    rw [← hs, ← ht] at hnext
    rw [hcount]
    refine ⟨⟨(congrArg Prod.fst hnext).symm, (congrArg Prod.snd hnext).symm, hdq.trans ?_⟩, rfl⟩
    change _ = drives op.slot (if u.sphase = .sample then .recover else u.sphase)
    split
    · next hsample => rw [hsample, drives_of_ne_low _ (by decide), drives_of_ne_low _ (by decide)]
    · rfl
  · have hnext := nextPhase_phaseAt cfg.timing hop (ht ▸ hstay) hj
    have hcount : countCycle cfg b op rest u =
        { u with
          sphase := (phaseAt cfg.timing op.slot (j + 1)).1
          tcnt := (phaseAt cfg.timing op.slot (j + 1)).2
          dqOe := drives op.slot (phaseAt cfg.timing op.slot (j + 1)).1 } := by
      rw [countCycle, if_neg hstay, hs, hnext]
    rw [hcount]
    exact ⟨⟨rfl, rfl, rfl⟩, rfl⟩

/-- The last cycle of a slot ends it (70_reset_and_hazards.md R270). -/
theorem countCycle_end (hop : op.slot ≠ .none) (h : Counts cfg.timing op.slot j u)
    (hj : j + 1 = slotLength cfg.timing op.slot) : countCycle cfg b op rest u = endMicroOp cfg b op rest u := by
  obtain ⟨hone, hnone⟩ := phaseAt_last cfg.timing hop hj
  rw [countCycle, h.sphase, h.tcnt, hone, hnone, if_neg (Nat.lt_irrefl 1)]

end

/-! ### The controller's part of a cycle -/

section
variable (cfg : Config) {op : MicroOp} (cs : List ClockIn) {s u : State} {j : Nat}

/-- What the cycles before cycle `j` of a slot that began in `s` have done, the time and the line aside: the effects
before the slot in its first cycle, and the sample in the sampling cycle. -/
def slotBase (cfg : Config) (op : MicroOp) (cs : List ClockIn) (s : State) (j : Nat) : State :=
  if j = 0 then s
  else if j ≤ sampleAt cfg.timing op.slot then (runEffects cfg op.pre s).1
  else sampled cfg.timing op.slot cs (runEffects cfg op.pre s).1

theorem slotBase_zero (s : State) : slotBase cfg op cs s 0 = s := rfl

theorem slotBase_unsampled (s : State) (h0 : j ≠ 0) (h : j ≤ sampleAt cfg.timing op.slot) :
    slotBase cfg op cs s j = (runEffects cfg op.pre s).1 := by
  rw [slotBase, if_neg h0, if_pos h]

theorem slotBase_sampled (s : State) (h : sampleAt cfg.timing op.slot < j) :
    slotBase cfg op cs s j = sampled cfg.timing op.slot cs (runEffects cfg op.pre s).1 := by
  rw [slotBase, if_neg (Nat.ne_zero_of_lt h), if_neg (Nat.not_le_of_lt h)]

/-- The controller's own work in a cycle before it counts. -/
def beforeCount (cfg : Config) (op : MicroOp) (u : State) : State :=
  let u1 := if atSlotStart cfg op u then (runEffects cfg op.pre u).1 else u
  if u1.sphase = .sample then sampleLine op.slot u1 else u1

theorem controllerCycle_eq (b : Body) (rest : List MicroOp) (hop : op.slot ≠ .none) (ho : opsLeft b u = op :: rest) :
    controllerCycle cfg b u = countCycle cfg b op rest (beforeCount cfg op u) := by
  simp [controllerCycle, ho, hop, beforeCount]

theorem sampleLine_timedAs (t : Timing) (op : SlotOp) (u s : State)
    (h : u.dqSync.getLsbD 1 = lineAt t op cs (sampleAt t op - 2)) :
    sampleLine op (timedAs u s) = timedAs u (sampled t op cs s) := by
  cases op
  case reset | read => simp only [sampleLine, sampled, timedAs, h]; rfl
  all_goals rfl

theorem sampled_of_unsampled (t : Timing) {op : SlotOp} (h : sampleAt t op = slotLength t op) (s : State) :
    sampled t op cs s = s := by
  cases op
  case reset | read => simp [sampleAt, slotLength] at h
  all_goals rfl

theorem atSlotStart_iff (hop : op.slot ≠ .none) (h : Counts cfg.timing op.slot j u) :
    atSlotStart cfg op u = true ↔ j = 0 := by
  rw [← phaseAt_eq_firstPhase_iff cfg.timing hop, atSlotStart, h.sphase, h.tcnt]
  simp [Prod.ext_iff]

theorem two_le_sampleAt (t : Timing) {op : SlotOp} (h : sampleAt t op < slotLength t op) : 2 ≤ sampleAt t op := by
  cases op
  case reset => exact Nat.add_le_add t.tRstl.pos t.tMsp.pos
  case read => exact Nat.add_le_add t.tRl.pos t.tMsr.pos
  all_goals exact absurd h (Nat.lt_irrefl _)

theorem Counts.sphase_sample_iff (h : Counts cfg.timing op.slot j u) (hop : op.slot ≠ .none) :
    u.sphase = .sample ↔ j = sampleAt cfg.timing op.slot := by
  rw [h.sphase, phaseAt_sample_iff cfg.timing hop]

/-- In the first cycle the effects before the slot are made. -/
theorem beforeCount_first (hop : op.slot ≠ .none) (h : Counts cfg.timing op.slot 0 u)
    (hu : u = timedAs u s) : beforeCount cfg op u = timedAs u (runEffects cfg op.pre s).1 := by
  have hpos := Nat.zero_lt_of_lt (slotLow_lt_sampleAt cfg.timing hop)
  have hpre : (runEffects cfg op.pre u).1 = timedAs u (runEffects cfg op.pre s).1 := by
    rw [hu, runEffects_timedAs]
    rfl
  have hnot : (timedAs u (runEffects cfg op.pre s).1).sphase ≠ .sample := fun hs =>
    hpos.ne ((h.sphase_sample_iff cfg hop).mp hs)
  rw [beforeCount, if_pos ((atSlotStart_iff cfg hop h).mpr rfl), hpre, if_neg hnot]

/-- Later only the sampling cycle has work to do. -/
theorem beforeCount_later (hop : op.slot ≠ .none) (h : Counts cfg.timing op.slot j u) (h0 : j ≠ 0) :
    beforeCount cfg op u = if j = sampleAt cfg.timing op.slot then sampleLine op.slot u else u := by
  rw [beforeCount, if_neg (mt (atSlotStart_iff cfg hop h).mp h0)]
  exact if_congr (h.sphase_sample_iff cfg hop) rfl rfl

/-- A cycle of a slot does its part before it counts. -/
theorem beforeCount_eq (hop : op.slot ≠ .none) (h : Counts cfg.timing op.slot j u)
    (hj : j < slotLength cfg.timing op.slot) (hu : u = timedAs u (slotBase cfg op cs s j))
    (hline : 2 ≤ j → u.dqSync.getLsbD 1 = lineAt cfg.timing op.slot cs (j - 2)) :
    beforeCount cfg op u = timedAs u (slotBase cfg op cs s (j + 1)) := by
  have hpos := Nat.zero_lt_of_lt (slotLow_lt_sampleAt cfg.timing hop)
  by_cases h0 : j = 0
  · subst h0
    rw [slotBase_zero] at hu
    rw [slotBase_unsampled cfg cs s Nat.one_ne_zero hpos]
    exact beforeCount_first cfg hop h hu
  rw [beforeCount_later cfg hop h h0]
  rcases lt_trichotomy j (sampleAt cfg.timing op.slot) with hlt | rfl | hgt
  · rw [slotBase_unsampled cfg cs s h0 hlt.le] at hu
    rw [if_neg hlt.ne, slotBase_unsampled cfg cs s (Nat.succ_ne_zero j) hlt]
    exact hu
  · rw [slotBase_unsampled cfg cs s h0 le_rfl] at hu
    rw [if_pos rfl, slotBase_sampled cfg cs s (Nat.lt_succ_self _),
      ← sampleLine_timedAs cs _ _ u _ (hline (two_le_sampleAt cfg.timing hj))]
    exact congrArg (sampleLine op.slot) hu
  · rw [slotBase_sampled cfg cs s hgt] at hu
    rw [if_neg hgt.ne', slotBase_sampled cfg cs s (Nat.lt_succ_of_lt hgt)]
    exact hu

end

/-! ### The cycles of a slot -/

section
variable (cfg : Config) {op : MicroOp} {rest : List MicroOp} {cs : List ClockIn} {s u : State} {j : Nat}

/-- `u` is what `j` clock cycles of a slot have made of the state `s` at its start; the last two are in the
synchroniser (10_state.md R44). -/
structure InSlot (cfg : Config) (op : MicroOp) (cs : List ClockIn) (s : State) (j : Nat) (u : State) : Prop where
  base : u = timedAs u (slotBase cfg op cs s j)
  counts : Counts cfg.timing op.slot j u
  newest : 1 ≤ j → u.dqSync.getLsbD 0 = lineAt cfg.timing op.slot cs (j - 1)
  older : 2 ≤ j → u.dqSync.getLsbD 1 = lineAt cfg.timing op.slot cs (j - 2)

theorem runEffects_uix (es : List Effect) (s : State) : (runEffects cfg es s).1.uix = s.uix :=
  congrArg (fun r => r.1.uix) (runEffects_placed cfg es s.uix s.turn s)

theorem sampled_kept (t : Timing) (op : SlotOp) (cs : List ClockIn) (s : State) : Kept s (sampled t op cs s) := by
  cases op <;> constructor <;> rfl

theorem slotBase_kept (j : Nat) : Kept s (slotBase cfg op cs s j) := by
  unfold slotBase
  split_ifs
  · exact Kept.refl s
  · exact runEffects_kept cfg op.pre s
  · exact (runEffects_kept cfg op.pre s).trans (sampled_kept _ _ _ _)

/-- A slot's cycles leave the command in flight and its position. -/
theorem slotBase_inFlight (j : Nat) :
    (slotBase cfg op cs s j).busy = s.busy ∧ (slotBase cfg op cs s j).uix = s.uix := by
  have hsampled (x : State) : (sampled cfg.timing op.slot cs x).busy = x.busy ∧
      (sampled cfg.timing op.slot cs x).uix = x.uix := by
    cases op.slot <;> exact ⟨rfl, rfl⟩
  unfold slotBase
  split_ifs
  · exact ⟨rfl, rfl⟩
  · exact ⟨runEffects_busy cfg _ _, runEffects_uix cfg _ _⟩
  · obtain ⟨hb, hx⟩ := hsampled (runEffects cfg op.pre s).1
    exact ⟨hb.trans (runEffects_busy cfg _ _), hx.trans (runEffects_uix cfg _ _)⟩

theorem InSlot.busy_eq (h : InSlot cfg op cs s j u) : u.busy = s.busy :=
  (congrArg State.busy h.base).trans (slotBase_inFlight cfg j).1

theorem InSlot.body_eq (h : InSlot cfg op cs s j u) : u.body = s.body := by
  have hk : Kept s (slotBase cfg op cs s j) := slotBase_kept cfg j
  have hbase : u.body = (slotBase cfg op cs s j).body := (congrArg State.body h.base).trans rfl
  rw [hbase, State.body, State.body, State.current, State.current, hk.lop, hk.limm, hk.laddr]

theorem InSlot.opsLeft_eq (h : InSlot cfg op cs s j u) : opsLeft u.body u = opsLeft s.body s := by
  have hx : u.uix = s.uix := (congrArg State.uix h.base).trans (slotBase_inFlight cfg j).2
  rw [h.body_eq, opsLeft, opsLeft, hx]

theorem InSlot.dqOe_eq (h : InSlot cfg op cs s j u) : u.dqOe = decide (j < slotLow cfg.timing op.slot) := by
  rw [h.counts.dqOe, h.counts.sphase, drives_phaseAt]

/-- A loaded slot stands at its first cycle. -/
theorem inSlot_zero (hop : op.slot ≠ .none) (hs : SlotLoaded cfg.timing op.slot s) : InSlot cfg op cs s 0 s where
  base := rfl
  counts := by
    obtain ⟨hphase, htcnt, hdq⟩ := hs
    rw [← phaseAt_zero cfg.timing hop] at hphase htcnt
    exact ⟨hphase, htcnt, by rw [hdq, hphase, drives_phaseAt]⟩
  newest h := absurd h (by decide)
  older h := absurd h (by decide)

theorem clock_quiet {c : ClockIn} (hc : Quiet c) (hb : u.busy = true) :
    clock cfg c u = syncLine c.devLow u (controllerCycle cfg u.body u) := by
  obtain ⟨hrst, hacc⟩ := hc
  simp [clock, hrst, hacc, hb]

/-- The synchroniser after a cycle: the line of the cycle, and before it what was newest (10_state.md R44). -/
theorem syncLine_bits (d : Bool) (u v : State) :
    (syncLine d u v).dqSync.getLsbD 0 = (!u.dqOe && !d) ∧
      (syncLine d u v).dqSync.getLsbD 1 = u.dqSync.getLsbD 0 := by
  rw [syncLine_dqSync]
  constructor <;> rw [BitVec.getLsbD_append] <;> simp

/-- A quiet cycle of a slot: the controller does its part and counts, and the synchroniser takes the line. -/
theorem InSlot.clock_eq (hop : op.slot ≠ .none) (hb : s.busy = true) (ho : opsLeft s.body s = op :: rest)
    (h : InSlot cfg op cs s j u) (hj : j < slotLength cfg.timing op.slot) (hlen : j < cs.length) (hc : Quiet cs[j]) :
    clock cfg cs[j] u = syncLine cs[j].devLow u
      (countCycle cfg s.body op rest (timedAs u (slotBase cfg op cs s (j + 1)))) := by
  rw [clock_quiet cfg hc (h.busy_eq.trans hb), controllerCycle_eq cfg _ rest hop (h.opsLeft_eq.trans ho), h.body_eq,
    beforeCount_eq cfg cs hop h.counts hj h.base h.older]

theorem clocks_take_succ (cs : List ClockIn) (hlen : j < cs.length) (s : State) :
    clocks cfg (cs.take (j + 1)) s = clock cfg cs[j] (clocks cfg (cs.take j) s) := by
  rw [clocks, List.take_succ_eq_append_getElem hlen, List.foldl_append]
  rfl

/-- Inside the slot, a cycle leads from one to the next. -/
theorem InSlot.next (hop : op.slot ≠ .none) (hb : s.busy = true) (ho : opsLeft s.body s = op :: rest)
    (h : InSlot cfg op cs s j u) (hj : j + 1 < slotLength cfg.timing op.slot) (hlen : j < cs.length)
    (hc : Quiet cs[j]) : InSlot cfg op cs s (j + 1) (clock cfg cs[j] u) := by
  obtain ⟨hcounts, hv⟩ := countCycle_inside cfg s.body rest hop
    (h.counts.timedAs (slotBase cfg op cs s (j + 1))) hj
  rw [h.clock_eq cfg hop hb ho (Nat.lt_of_succ_lt hj) hlen hc]
  generalize countCycle cfg s.body op rest (timedAs u (slotBase cfg op cs s (j + 1))) = v at hcounts hv
  obtain ⟨hnewest, holder⟩ := syncLine_bits cs[j].devLow u v
  have hbase : syncLine cs[j].devLow u v = timedAs (syncLine cs[j].devLow u v) (slotBase cfg op cs s (j + 1)) := by
    rw [← syncLine_timedAs, ← timedAs_timedAs v u, ← hv]
  refine ⟨hbase, ⟨hcounts.sphase, hcounts.tcnt, hcounts.dqOe⟩, fun _ => ?_, fun h2 => ?_⟩
  · rw [hnewest, h.dqOe_eq, Nat.add_sub_cancel, lineAt, List.getD_eq_getElem _ _ hlen]
  · rw [holder, h.newest (by omega)]
    rfl

/-- Every cycle of a slot (40_bus_primitives.md R109). -/
theorem inSlot_clocks (hop : op.slot ≠ .none) (hb : s.busy = true) (ho : opsLeft s.body s = op :: rest)
    (hs : SlotLoaded cfg.timing op.slot s) (hq : ∀ c ∈ cs, Quiet c)
    (hlen : cs.length = slotLength cfg.timing op.slot) (hj : j < cs.length) :
    InSlot cfg op cs s j (clocks cfg (cs.take j) s) := by
  induction j with
  | zero => exact inSlot_zero cfg hop hs
  | succ j ih =>
    have hj' := Nat.lt_of_succ_lt hj
    rw [clocks_take_succ cfg cs hj']
    exact (ih hj').next cfg hop hb ho (hlen ▸ hj) hj' (hq _ (List.getElem_mem hj'))

theorem slotBase_slotLength (hop : op.slot ≠ .none) :
    slotBase cfg op cs s (slotLength cfg.timing op.slot) =
      sampled cfg.timing op.slot cs (runEffects cfg op.pre s).1 := by
  have hlow := slotLow_lt_sampleAt cfg.timing hop
  rcases (sampleAt_le_slotLength cfg.timing op.slot).eq_or_lt with heq | hlt
  · rw [slotBase_unsampled cfg cs s (by omega) heq.ge, sampled_of_unsampled cs cfg.timing heq]
  · exact slotBase_sampled cfg cs s hlt

/-- The cycles of a slot are its controller step, the synchroniser and the devices' drive aside. -/
theorem clocks_slot (hop : op.slot ≠ .none) (hb : s.busy = true) (ho : opsLeft s.body s = op :: rest)
    (hs : SlotLoaded cfg.timing op.slot s) (hq : ∀ c ∈ cs, Quiet c)
    (hlen : cs.length = slotLength cfg.timing op.slot) :
    clocks cfg cs s =
      { endMicroOp cfg s.body op rest (sampled cfg.timing op.slot cs (runEffects cfg op.pre s).1) with
        dqSync := (clocks cfg cs s).dqSync
        devLow := (clocks cfg cs s).devLow } := by
  have hlow := slotLow_lt_sampleAt cfg.timing hop
  have hle := sampleAt_le_slotLength cfg.timing op.slot
  obtain ⟨n, hn⟩ : ∃ n, n + 1 = cs.length := ⟨cs.length - 1, by omega⟩
  have hlast : n < cs.length := by omega
  have h := inSlot_clocks cfg hop hb ho hs hq hlen hlast
  generalize hu : clocks cfg (cs.take n) s = u at h
  have hend : clocks cfg cs s = syncLine cs[n].devLow u
      { endMicroOp cfg s.body op rest (sampled cfg.timing op.slot cs (runEffects cfg op.pre s).1) with
        dqSync := u.dqSync, devLow := u.devLow } := by
    calc clocks cfg cs s
      _ = clocks cfg (cs.take (n + 1)) s := by rw [hn, List.take_length]
      _ = clock cfg cs[n] u := by rw [clocks_take_succ cfg cs hlast, hu]
      _ = syncLine cs[n].devLow u (countCycle cfg s.body op rest (timedAs u (slotBase cfg op cs s (n + 1)))) :=
        h.clock_eq cfg hop hb ho (hlen ▸ hlast) hlast (hq _ (List.getElem_mem hlast))
      _ = syncLine cs[n].devLow u (endMicroOp cfg s.body op rest (timedAs u (slotBase cfg op cs s (n + 1)))) := by
        rw [countCycle_end cfg s.body rest hop (h.counts.timedAs _) (hn.trans hlen)]
      _ = _ := by rw [endMicroOp_timedAs, hn, hlen, slotBase_slotLength cfg hop]
  rw [hend]
  rfl

end

/-- Settles O51, by the invariant of the cycles inside the slot and the slot's last cycle. -/
theorem clockedSlotIsOneControllerStep : Obligations.ClockedSlotIsOneControllerStep := by
  unfold Obligations.ClockedSlotIsOneControllerStep
  intro s op rest cs hb ho hop hs hq hlen
  refine ⟨fun j hj => ?_, _, rfl, clocks_slot _ hop hb ho hs hq hlen⟩
  have h := inSlot_clocks Config.owtc hop hb ho hs hq hlen hj
  exact ⟨h.dqOe_eq, h.busy_eq.trans hb⟩

end Sys2Proof.Machine
end

section
/-! PROOFS. The ROM functions (41_rom_function.md R130 to R135): SELECT and CONVERT are shared runs of write slots,
WAIT_CONV is one wait, and READ_SCRATCHPAD is `ScratchRead()`, whose last byte the shift register keeps. -/

namespace Sys2Proof.Machine
open Pseudo

/-! ### Commands that only send or wait -/

/-- Settles O22: the body is `SendMatch(LADDR)`, a run of nine bytes that empties the shift register. -/
theorem selectSendsTheLatchedAddress : Obligations.SelectSendsTheLatchedAddress := by
  unfold Obligations.SelectSendsTheLatchedAddress
  intro s imm h
  have ⟨hbusy, _⟩ := h
  have hrun := runMicroOps_writeBytesOps_last Config.owtc (selectBody s.laddr) rfl 0 (matchRomByte, 0)
    (addrOrder.map fun k => (addrByte s.laddr k, BitVec.ofNat 4 (k + 1))) 1 s hbusy
  rw [← sendMatchOps_eq] at hrun
  rw [exec_command _ s rfl]
  refine congrArg Host.Outcome.next ((runBody_started _ _ s h).trans (hrun.trans ?_))
  simp [afterBytes, goIdle, sequencerRest, addrOrder, addrByte, matchRomByte]

/-- Settles O23: the body is `BusWriteByte(0x44)`. -/
theorem convertSendsItsByte : Obligations.ConvertSendsItsByte := by
  unfold Obligations.ConvertSendsItsByte
  intro s imm h
  have ⟨hbusy, _⟩ := h
  rw [exec_command _ s rfl]
  refine congrArg Host.Outcome.next ((runBody_started _ _ s h).trans ?_)
  exact runMicroOps_writeByteOps_last _ convertBody rfl 1 convertByte 0 0 s hbusy

/-- Settles O24: the one slot is the wait. -/
theorem waitConvOnlyWaits : Obligations.WaitConvOnlyWaits := by
  unfold Obligations.WaitConvOnlyWaits
  intro s imm h
  rw [exec_command _ s rfl]
  exact congrArg Host.Outcome.next (runBody_oneOp _ (waitOp 0) h)

/-! ### The shift register after `ScratchRead()` -/

/-- No effect of a body writes the shift register (10_state.md R42). -/
theorem runEffect_shreg (cfg : Config) (e : Effect) (s : State) : (runEffect cfg e s).1.shreg = s.shreg := by
  cases e
  case validatedDecode => simp only [runEffect, decodeScratch]; split <;> rfl
  all_goals rfl

theorem runEffects_shreg (cfg : Config) (es : List Effect) (s : State) : (runEffects cfg es s).1.shreg = s.shreg := by
  induction es generalizing s with
  | nil => rfl
  | cons e es ih =>
    have he := runEffect_shreg cfg e s
    rw [runEffects]
    split
    · next s' h => rw [ih, ← he, h]
    · next s' err h => rw [← he, h]

/-- The end of a body leaves the shift register. -/
theorem endBody_shreg (cfg : Config) (b : Body) (r : State × Option Err) : (endBody cfg b r).shreg = r.1.shreg := by
  rcases r with ⟨t, _ | e⟩
  · exact runEffects_shreg cfg b.always t
  · exact runEffects_shreg cfg b.always { t with err := e }

/-- The end of a body leaves the scratchpad, CYCLE's advance included. -/
theorem endBody_scratch (cfg : Config) (b : Body) (hb : b.always = [] ∨ b.always = [.advanceLatched])
    (r : State × Option Err) : (endBody cfg b r).scratch = r.1.scratch := by
  rcases r with ⟨t, _ | e⟩ <;> rcases hb with h | h <;>
    simp [endBody, failCommand, completeCommand, h, runEffects, runEffect]

/-- The controller is idle once a body has ended, so ending leaves nothing to rest. -/
theorem goIdle_endBody (cfg : Config) (b : Body) (r : State × Option Err) :
    goIdle (endBody cfg b r) = endBody cfg b r := by
  rcases r with ⟨t, _ | e⟩ <;> rfl

/-- The effects of the ninth byte's last slot in `ScratchRead()`, then `post` (41_rom_function.md R135). -/
def ninthByteEffects (post : List Effect) : List Effect := .storeScratch 8 :: .scratchCheck :: post

/-- `ScratchRead()` at the end of a body ends it by the effects of the ninth byte's last slot. -/
theorem runMicroOps_scratchReadOps_endBody (cfg : Config) (b : Body) (post : List Effect) (m : BitVec 4) (n : Nat)
    {s : State} (hbusy : s.busy = true) :
    ∃ x, runMicroOps cfg b (n + 80) (scratchReadOps post m) s =
      endBody cfg b (runEffects cfg (ninthByteEffects post) x) := by
  have hwrite := runMicroOps_writeByteOps cfg b (n + 72) readScratchpadByte 0 m (readBitOp [.storeScratch 0] 0 m 0)
    ([1, 2, 3, 4, 5, 6, 7].map (readBitOp [.storeScratch 0] 0 m) ++
      (([1, 2, 3, 4, 5, 6, 7] : List (Fin 9)).flatMap fun k =>
        readByteOps [.storeScratch k] (BitVec.ofNat 4 k.val) m) ++ readByteOps (ninthByteEffects post) 8 m) s hbusy
  obtain ⟨s2, hbytes, _, hbusy2⟩ := runMicroOps_scratchBytes cfg b m (readBitOp (ninthByteEffects post) 8 m 0)
    ([1, 2, 3, 4, 5, 6, 7].map (readBitOp (ninthByteEffects post) 8 m)) scratchOrder (n + 8)
    (loadSlot cfg (readBitOp [.storeScratch 0] 0 m 0) (afterBytes [readScratchpadByte] s)) hbusy
    (loadSlot_ne_recover cfg _ _) (by decide)
  have hlast := runMicroOps_readByteOps_last cfg b (ninthByteEffects post) 8 m n _
    (loadSlot cfg (readBitOp (ninthByteEffects post) 8 m 0) s2) _ hbusy2 (loadSlot_ne_recover cfg _ _) rfl
  exact ⟨_, hwrite.trans (hbytes.trans hlast)⟩

/-- The effects of the ninth byte store the shift register in SCRATCH[8], whether the check passes or not. -/
theorem runEffects_ninthByte_scratch (cfg : Config) (post : List Effect)
    (hpost : ∀ u, (runEffects cfg post u).1.scratch = u.scratch) (x : State) :
    (runEffects cfg (ninthByteEffects post) x).1.scratch = x.scratch.set 8 x.shreg := by
  cases hok : scratchOk (x.scratch.set 8 x.shreg)
  · simp [ninthByteEffects, runEffects, runEffect, checkScratch, hok]
  · simp [ninthByteEffects, runEffects, runEffect, checkScratch, hok, hpost]

/-- The shift register keeps the ninth byte, whatever the check says (10_state.md R42, 41_rom_function.md R135). -/
theorem runMicroOps_scratchReadOps_shreg (cfg : Config) (b : Body) (hb : b.always = [] ∨ b.always = [.advanceLatched])
    (post : List Effect) (hpost : ∀ u, (runEffects cfg post u).1.scratch = u.scratch) (m : BitVec 4) (n : Nat)
    {s t : State} (hbusy : s.busy = true) (ht : runMicroOps cfg b (n + 80) (scratchReadOps post m) s = t) :
    t.shreg = t.scratch[8] := by
  obtain ⟨x, hx⟩ := runMicroOps_scratchReadOps_endBody cfg b post m n hbusy
  have hscratch : t.scratch = x.scratch.set 8 x.shreg := by
    rw [← ht, hx, endBody_scratch cfg b hb, runEffects_ninthByte_scratch cfg post hpost]
  have hshreg : t.shreg = x.shreg := by rw [← ht, hx, endBody_shreg, runEffects_shreg]
  simp [hscratch, hshreg]

/-- A body that ends with `ScratchRead()` leaves nothing to rest. -/
theorem goIdle_runMicroOps_scratchReadOps (cfg : Config) (b : Body) (post : List Effect) (m : BitVec 4) (n : Nat)
    {s t : State} (hbusy : s.busy = true) (ht : runMicroOps cfg b (n + 80) (scratchReadOps post m) s = t) :
    goIdle t = t := by
  obtain ⟨x, hx⟩ := runMicroOps_scratchReadOps_endBody cfg b post m n hbusy
  rw [← ht, hx, goIdle_endBody]

/-! ### READ_SCRATCHPAD -/

/-- States at rest are equal when they agree on what the pseudocode speaks of and on the shift register. -/
theorem goIdle_eq_of_settled {s t : State} (h : settled s = settled t) (hshreg : s.shreg = t.shreg) :
    goIdle s = goIdle t := by
  have hgoIdle (u : State) : goIdle u = { settled u with shreg := u.shreg } := rfl
  rw [hgoIdle, hgoIdle t, h, hshreg]

/-- The check of `ScratchRead()` with no effects after it, as one state (41_rom_function.md R135). -/
theorem endBody_checkScratch (cfg : Config) {b : Body} (hb : b.always = []) (s : State) :
    endBody cfg b (tailBody (checkScratch s) fun u => (u, none)) = goIdle { s with
      crc := crc8 (s.scratch.toList.take 8)
      crcOk := decide (crc8 (s.scratch.toList.take 8) = s.scratch[8])
      err := if crc8 (s.scratch.toList.take 8) = s.scratch[8] then s.err else .crcMismatch } := by
  have hok : scratchOk s.scratch = decide (crc8 (s.scratch.toList.take 8) = s.scratch[8]) := rfl
  by_cases hcheck : crc8 (s.scratch.toList.take 8) = s.scratch[8]
  · simp [checkScratch, scratchCrc, hok, hcheck, tailBody, endBody, completeCommand, hb, runEffects]
  · simp [checkScratch, scratchCrc, hok, hcheck, tailBody, endBody, failCommand, completeCommand, hb, runEffects]

/-- Settles O25: the run agrees with `ScratchRead()` up to the shift register, and that keeps the ninth byte. -/
theorem readScratchpadReadsAndChecks : Obligations.ReadScratchpadReadsAndChecks := by
  unfold Obligations.ReadScratchpadReadsAndChecks
  intro s imm h
  have ⟨hbusy, _⟩ := h
  obtain ⟨sp, hsp, hread⟩ := scratchRead_answers Config.owtc s
  refine ⟨sp, hsp, ?_⟩
  obtain ⟨t, ht⟩ : ∃ t, runMicroOps Config.owtc readScratchpadBody 81 (scratchReadOps [] 0) s = t := ⟨_, rfl⟩
  have hsettled := runMicroOps_scratchReadOps Config.owtc readScratchpadBody (.inl rfl) [] (fun u => (u, none))
    (fun _ => rfl) (fun _ => rfl) 0 1 s hbusy
  rw [ht, hread, endBody_checkScratch _ rfl, settled_goIdle] at hsettled
  have hshreg : t.shreg = sp[8] := by
    rw [runMicroOps_scratchReadOps_shreg _ _ (.inl rfl) [] (fun _ => rfl) 0 1 hbusy ht]
    have hscratch : t.scratch = sp := congrArg State.scratch hsettled
    rw [hscratch]
  rw [exec_command _ s rfl]
  refine congrArg Host.Outcome.next ((runBody_started _ _ s h).trans (ht.trans ?_))
  rw [← goIdle_runMicroOps_scratchReadOps _ _ [] 0 1 hbusy ht]
  exact goIdle_eq_of_settled hsettled hshreg

end Sys2Proof.Machine
end

section
/-! PROOFS. The CRC-8 (42_crc.md R150 to R154): a byte's fold is eight shifts of one injective register function
applied to the xor of register and byte, and the laws of the checksum follow from that. -/

namespace Sys2Proof.Machine

/-! ### One shift of the register -/

/-- One shift with no input bit: the register as it runs on zeros (42_crc.md R150). -/
def crc8Shift (c : Byte) : Byte := crc8Bit c false

theorem crc8Shift_zero : crc8Shift 0 = 0 := rfl

theorem crc8Bit_eq (c : Byte) (b : Bool) : crc8Bit c b = (c >>> 1) ^^^ if c.getLsbD 0 ^^ b then 0x8C else 0 := by
  unfold crc8Bit
  split
  · rfl
  · exact BitVec.xor_zero.symm

/-- An input byte may be xored into the register before the shift instead of being read bit by bit; what is left of
it after the shift are its higher bits (42_crc.md R154 (a)). -/
theorem crc8Bit_getLsbD_zero (c w : Byte) : crc8Bit c (w.getLsbD 0) = crc8Shift (c ^^^ w) ^^^ (w >>> 1) := by
  rw [crc8Shift, crc8Bit_eq, crc8Bit_eq, BitVec.getLsbD_xor, Bool.xor_false, BitVec.ushiftRight_xor_distrib,
    BitVec.xor_assoc (c >>> 1), BitVec.xor_comm (w >>> 1), ← BitVec.xor_assoc, BitVec.xor_assoc _ (w >>> 1),
    BitVec.xor_self, BitVec.xor_zero]

/-- The bit that a shift pushes out returns as bit 7 of the result. -/
theorem getLsbD_seven_crc8Shift (c : Byte) : (crc8Shift c).getLsbD 7 = c.getLsbD 0 := by
  rw [crc8Shift, crc8Bit_eq, Bool.xor_false]
  cases h : c.getLsbD 0 <;> simp

/-- A shift loses nothing: bit 7 of the result tells the feedback, and the feedback tells the other bits. -/
theorem crc8Shift_injective : Function.Injective crc8Shift := by
  intro c d h
  have hlow : c.getLsbD 0 = d.getLsbD 0 := by
    rw [← getLsbD_seven_crc8Shift, h, getLsbD_seven_crc8Shift]
  have hhigh : c >>> 1 = d >>> 1 := by
    rwa [crc8Shift, crc8Shift, crc8Bit_eq, crc8Bit_eq, hlow, BitVec.xor_left_inj] at h
  refine BitVec.eq_of_getLsbD_eq fun i _ => ?_
  cases i with
  | zero => exact hlow
  | succ i =>
    have hi := congrArg (BitVec.getLsbD · i) hhigh
    simpa only [BitVec.getLsbD_ushiftRight, Nat.add_comm 1 i] using hi

/-! ### One byte -/

/-- `n` shifts that read the bits of `v` from bit `i` on are `n` shifts of the xor, and the unread bits stand beside. -/
theorem foldl_crc8Bit (v : Byte) (n i : Nat) (c : Byte) :
    (List.range' i n).foldl (fun c i => crc8Bit c (v.getLsbD i)) c =
      crc8Shift^[n] (c ^^^ (v >>> i)) ^^^ (v >>> (i + n)) := by
  induction n generalizing i c with
  | zero => simp
  | succ n ih =>
    have hbit : v.getLsbD i = (v >>> i).getLsbD 0 := by simp
    rw [List.range'_succ, List.foldl_cons, ih, hbit, crc8Bit_getLsbD_zero, ← BitVec.shiftRight_add,
      BitVec.xor_assoc, BitVec.xor_self, BitVec.xor_zero, ← Function.iterate_succ_apply, Nat.add_right_comm,
      Nat.add_assoc]

/-- A byte's fold is eight shifts of the xor of register and byte (42_crc.md R154 (a)). -/
theorem crc8Step_eq_iterate (c v : Byte) : crc8Step c v = crc8Shift^[8] (c ^^^ v) := by
  have hread : v >>> 8 = 0#8 := BitVec.ushiftRight_eq_zero le_rfl
  calc crc8Step c v
    _ = (List.range' 0 8).foldl (fun c i => crc8Bit c (v.getLsbD i)) c := rfl
    _ = crc8Shift^[8] (c ^^^ (v >>> 0)) ^^^ (v >>> (0 + 8)) := foldl_crc8Bit v 8 0 c
    _ = crc8Shift^[8] (c ^^^ v) := by rw [BitVec.ushiftRight_zero, hread, BitVec.xor_zero]

theorem crc8Step_xor_zero (c v : Byte) : crc8Step (c ^^^ v) 0#8 = crc8Step c v := by
  rw [crc8Step_eq_iterate, crc8Step_eq_iterate, BitVec.xor_zero]

theorem crc8Step_self (c : Byte) : crc8Step c c = 0 := by
  rw [crc8Step_eq_iterate, BitVec.xor_self]
  exact Function.iterate_fixed crc8Shift_zero 8

/-- Two folds agree exactly when the xors of register and byte do. -/
theorem crc8Step_eq_iff {c v d w : Byte} : crc8Step c v = crc8Step d w ↔ c ^^^ v = d ^^^ w := by
  rw [crc8Step_eq_iterate, crc8Step_eq_iterate, (crc8Shift_injective.iterate 8).eq_iff]

/-! ### A block of bytes -/

theorem crc8_append (a b : List Byte) : crc8 (a ++ b) = b.foldl crc8Step (crc8 a) := List.foldl_append

/-- A block followed by its checksum has residue 0 (42_crc.md R154 (b)). -/
theorem crc8_append_crc8 (b : List Byte) : crc8 (b ++ [crc8 b]) = 0 := by
  rw [crc8_append]
  exact crc8Step_self (crc8 b)

/-- Zero bytes keep a register of 0 (42_crc.md R154 (c)). -/
theorem crc8_replicate_zero (n : Nat) : crc8 (List.replicate n 0) = 0 := by
  induction n with
  | zero => rfl
  | succ n ih => rw [List.replicate_succ', crc8_append, ih]; exact crc8Step_self 0

/-- Eight 0xFF bytes, shift by shift (42_crc.md R154 (d)). -/
theorem crc8_replicate_eight_ff : crc8 (List.replicate 8 0xFF) = 0xC9 := by
  simp [crc8, crc8Step, bitOrder, crc8Bit]

/-- The bytes after a difference in the register carry it on. -/
theorem foldl_crc8Step_injective (b : List Byte) : Function.Injective fun c => b.foldl crc8Step c := by
  induction b with
  | nil => exact Function.injective_id
  | cons x b ih => exact fun c d h => (BitVec.xor_left_inj x).mp (crc8Step_eq_iff.mp (ih h))

/-- Blocks that differ in one byte have different checksums, whatever stands before and after it
(42_crc.md R154 (e)). -/
theorem crc8_append_cons_inj {a b : List Byte} {v w : Byte} : crc8 (a ++ v :: b) = crc8 (a ++ w :: b) ↔ v = w := by
  rw [crc8_append, crc8_append, List.foldl_cons, List.foldl_cons, (foldl_crc8Step_injective b).eq_iff,
    crc8Step_eq_iff, BitVec.xor_right_inj]

/-! ### The laws -/

/-- Settles O41, law by law. -/
theorem crcLaws : Obligations.CrcLaws := by
  unfold Obligations.CrcLaws
  exact ⟨fun c v => (crc8Step_xor_zero c v).symm, crc8Step_self, crc8_append_crc8, crc8_replicate_zero,
    crc8_replicate_eight_ff⟩

/-- Settles O42: the block cut at the changed byte. -/
theorem crcDetectsOneTamperedByte : Obligations.CrcDetectsOneTamperedByte := by
  unfold Obligations.CrcDetectsOneTamperedByte
  intro b k v hk hv heq
  have hcut : b.take k ++ b[k] :: b.drop (k + 1) = b := by rw [List.getElem_cons_drop, List.take_append_drop]
  rw [List.set_eq_take_append_cons_drop, if_pos hk, ← congrArg crc8 hcut, crc8_append_cons_inj] at heq
  exact hv (heq ▸ List.getElem?_eq_getElem hk)

/-- Settles O43: fixed values, computed. -/
theorem crcVectors : Obligations.CrcVectors := by
  unfold Obligations.CrcVectors
  decide

/-! ### The commands -/

/-- Settles O26: the one effect writes the seed. -/
theorem crcInitSetsTheAccumulator : Obligations.CrcInitSetsTheAccumulator := by
  unfold Obligations.CrcInitSetsTheAccumulator
  intro s imm h
  rw [exec_command _ s rfl]
  exact congrArg Host.Outcome.next (runBody_instant _ [.crcInit imm] s _ h rfl)

/-- Settles O27: the one effect folds the byte. -/
theorem crcByteFoldsOneByte : Obligations.CrcByteFoldsOneByte := by
  unfold Obligations.CrcByteFoldsOneByte
  intro s imm h
  rw [exec_command _ s rfl]
  exact congrArg Host.Outcome.next (runBody_instant _ [.crcByte imm] s _ h rfl)

end Sys2Proof.Machine
end

section
/-! PROOFS. The decoder (43_decode.md R170 to R173, R175): masking bit by bit, which is a shift down and up again, so
a floor on the signed value, and DECODE as the check and the decoder's result. -/

namespace Sys2Proof.Machine

/-! ### The decoder bit by bit -/

/-- The mask's bits: the low `3 - r` of them are cleared (43_decode.md R170). -/
theorem maskRaw_getLsbD (raw : BitVec 16) (r : BitVec 2) (j : Nat) :
    (maskRaw raw r).getLsbD j = (decide (clearedBits r ≤ j) && raw.getLsbD j) := by
  by_cases hj : j < 16
  · have hlow : (BitVec.ofNat 16 (2 ^ clearedBits r - 1)).getLsbD j = decide (j < clearedBits r) := by
      rw [BitVec.getLsbD_ofNat, Nat.testBit_two_pow_sub_one, decide_eq_true hj, Bool.true_and]
    rw [maskRaw, BitVec.getLsbD_and, BitVec.getLsbD_not, hlow, Bool.and_comm]
    simp only [hj, decide_true, Bool.true_and, ← decide_not, Nat.not_lt]
  · simp [BitVec.getLsbD_of_ge _ j (Nat.le_of_not_lt hj)]

/-- The resolution code's bits are those of byte 4 from bit 5 on (43_decode.md R170). -/
theorem scratchRes_getLsbD (sp : Vector Byte 9) {i : Nat} (hi : i < 2) :
    (scratchRes sp).getLsbD i = sp[4].getLsbD (5 + i) := by
  simp [scratchRes, hi]

/-- Settles O44: the bits by the mask's rule, and the masks by computing each code's. -/
theorem decoderBitByBit : Obligations.DecoderBitByBit := by
  unfold Obligations.DecoderBitByBit
  intro sp q r h
  obtain ⟨rfl, rfl⟩ := Prod.mk.inj h
  refine ⟨⟨scratchRes_getLsbD sp (by decide), scratchRes_getLsbD sp (by decide)⟩, fun j _ => ?_, ?_, ?_, ?_, ?_⟩
  · rw [maskRaw_getLsbD, scratchRaw, BitVec.getLsbD_append]
    rfl
  all_goals intro hr; rw [hr]; rfl

/-! ### Masking as a floor -/

/-- Masking shifts the cleared bits out and zeros in. -/
theorem maskRaw_eq_shift (raw : BitVec 16) (r : BitVec 2) :
    maskRaw raw r = (raw >>> clearedBits r) <<< clearedBits r := by
  refine BitVec.eq_of_getLsbD_eq fun j hj => ?_
  rw [maskRaw_getLsbD]
  by_cases hk : clearedBits r ≤ j
  · simp [hk, hj]
  · simp [hk]

/-- At most the low three bits are cleared (43_decode.md R175). -/
theorem clearedBits_le_three (r : BitVec 2) : clearedBits r ≤ 3 := Nat.sub_le 3 r.toNat

/-- Bit 15 is above every cleared bit, so the sign stays (43_decode.md R173). -/
theorem maskRaw_msb (raw : BitVec 16) (r : BitVec 2) : (maskRaw raw r).msb = raw.msb := by
  have hk : clearedBits r ≤ 15 := (clearedBits_le_three r).trans (by decide)
  rw [BitVec.msb_eq_getLsbD_last, BitVec.msb_eq_getLsbD_last, maskRaw_getLsbD]
  simp [hk]

/-- Masking takes off the remainder by `2 ^ k`. -/
theorem maskRaw_toNat (raw : BitVec 16) (r : BitVec 2) :
    (maskRaw raw r).toNat = 2 ^ clearedBits r * (raw.toNat / 2 ^ clearedBits r) := by
  have hle := Nat.mul_div_le raw.toNat (2 ^ clearedBits r)
  rw [maskRaw_eq_shift, BitVec.toNat_shiftLeft, BitVec.toNat_ushiftRight, Nat.shiftRight_eq_div_pow,
    Nat.shiftLeft_eq, Nat.mul_comm, Nat.mod_eq_of_lt (hle.trans_lt raw.isLt)]

/-- Masking is a floor on the signed value: the sign's weight, 2^16, is a multiple of `2 ^ k` (43_decode.md R173). -/
theorem maskRaw_toInt (raw : BitVec 16) (r : BitVec 2) :
    (maskRaw raw r).toInt = 2 ^ clearedBits r * (raw.toInt / 2 ^ clearedBits r) := by
  have hk := clearedBits_le_three r
  rw [BitVec.toInt_eq_msb_cond, BitVec.toInt_eq_msb_cond, maskRaw_msb, maskRaw_toNat]
  generalize clearedBits r = k at hk
  interval_cases k <;> split <;> omega

/-- Settles O45: the other three follow from the floor and the kept sign bit. -/
theorem maskingIsAFloor : Obligations.MaskingIsAFloor := by
  unfold Obligations.MaskingIsAFloor
  rintro raw _ r _ rfl rfl
  have hfloor := maskRaw_toInt raw r
  refine ⟨hfloor, ?_, maskRaw_msb raw r, fun hdvd => ?_⟩
  · rw [hfloor]
    exact Int.mul_ediv_self_le (by positivity)
  · exact BitVec.eq_of_toInt_eq (hfloor.trans (Int.mul_ediv_cancel' hdvd))

/-! ### DECODE -/

/-- The scratchpad check, as the equation the spec writes (42_crc.md R151). -/
theorem scratchOk_iff (sp : Vector Byte 9) : scratchOk sp = true ↔ crc8 (sp.toList.take 8) = sp[8] :=
  beq_iff_eq

/-- Settles O28: the one effect is `ValidatedDecode()`, in its two arms. -/
theorem decodeWritesTempOnlyWhenTheCheckPasses : Obligations.DecodeWritesTempOnlyWhenTheCheckPasses := by
  unfold Obligations.DecodeWritesTempOnlyWhenTheCheckPasses
  intro s imm h
  rw [exec_command _ s rfl]
  refine congrArg Host.Outcome.next ?_
  have heffects := runEffects_validated Config.owtc s
  split
  · next hcheck =>
    exact runBody_instant _ _ s _ h (heffects.trans (if_pos ((scratchOk_iff s.scratch).mpr hcheck)))
  · next hcheck =>
    exact runBody_instant_fail _ _ _ s _ h (heffects.trans (if_neg (mt (scratchOk_iff s.scratch).mp hcheck)))

end Sys2Proof.Machine
end

section
/-! PROOFS. The scheduler's successor (44_scheduler.md R191 to R193): slot numbers modulo `N_SENSORS`. -/

namespace Sys2Proof.Machine

theorem nSensors_pos (cfg : Config) : 0 < cfg.nSensors := Nat.succ_pos _

theorem nSensors_le (cfg : Config) : cfg.nSensors ≤ 2 ^ 8 := cfg.lastSlot.isLt

/-- The successor is below `N_SENSORS`, so eight bits hold it (44_scheduler.md R191). -/
theorem nextSlot_toNat (cfg : Config) (c : BitVec 8) : (nextSlot cfg c).toNat = (c.toNat + 1) % cfg.nSensors := by
  rw [nextSlot, BitVec.toNat_ofNat, Nat.mod_eq_of_lt ((Nat.mod_lt _ (nSensors_pos cfg)).trans_le (nSensors_le cfg))]

theorem nextSlot_lt (cfg : Config) (c : BitVec 8) : (nextSlot cfg c).toNat < cfg.nSensors :=
  nextSlot_toNat cfg c ▸ Nat.mod_lt _ (nSensors_pos cfg)

/-- Settles O46, from the successor on integers. -/
theorem nextSlotArithmetic : Obligations.NextSlotArithmetic := by
  unfold Obligations.NextSlotArithmetic
  refine fun cfg c => ⟨nextSlot_toNat cfg c, fun h => ?_, fun h => BitVec.eq_of_toNat_eq ?_⟩
  · rw [nextSlot_toNat, h]
  · rw [nextSlot_toNat, h, Nat.mod_one]
    rfl

/-- `k` advances add `k`, modulo `N_SENSORS`. -/
theorem nextSlot_iterate_toNat {cfg : Config} {c : BitVec 8} (hc : c.toNat < cfg.nSensors) (k : Nat) :
    ((nextSlot cfg)^[k] c).toNat = (c.toNat + k) % cfg.nSensors := by
  induction k with
  | zero => exact (Nat.mod_eq_of_lt hc).symm
  | succ k ih => rw [Function.iterate_succ_apply', nextSlot_toNat, ih, Nat.mod_add_mod, Nat.add_assoc]

/-- Settles O47: from `c`, the slot `d` is `d - c` advances away, modulo `N_SENSORS`, and no other number below it. -/
theorem roundRobinVisitsEverySlotOnce : Obligations.RoundRobinVisitsEverySlotOnce := by
  unfold Obligations.RoundRobinVisitsEverySlotOnce
  intro cfg c hc
  refine ⟨BitVec.eq_of_toNat_eq ?_, fun d hd =>
    ⟨(cfg.nSensors - c.toNat + d.toNat) % cfg.nSensors, ⟨Nat.mod_lt _ (nSensors_pos cfg), ?_⟩, ?_⟩⟩
  · rw [nextSlot_iterate_toNat hc, Nat.add_mod_right, Nat.mod_eq_of_lt hc]
  · refine BitVec.eq_of_toNat_eq ?_
    have hsum : c.toNat + (cfg.nSensors - c.toNat + d.toNat) = cfg.nSensors + d.toNat := by omega
    rw [nextSlot_iterate_toNat hc, Nat.add_mod_mod, hsum, Nat.add_mod_left, Nat.mod_eq_of_lt hd]
  · rintro k ⟨hk, rfl⟩
    have hsum : cfg.nSensors - c.toNat + (c.toNat + k) = cfg.nSensors + k := by omega
    rw [nextSlot_iterate_toNat hc, Nat.add_mod_mod, hsum, Nat.add_mod_left, Nat.mod_eq_of_lt hk]

/-- Settles O29: the one effect writes the successor of the cursor. -/
theorem advanceMovesOnlyTheCursor : Obligations.AdvanceMovesOnlyTheCursor := by
  unfold Obligations.AdvanceMovesOnlyTheCursor
  intro s imm h
  rw [exec_command _ s rfl]
  exact congrArg Host.Outcome.next (runBody_instant _ [.advance] s _ h rfl)

end Sys2Proof.Machine
end

section
/-! PROOFS. The invariant of safe runs (44_scheduler.md R193 (a), R196, 10_state.md R27, R35, R41 to R43): what a move
inside a slot keeps, where a micro-operation's end leaves the controller, and the acts of the host. -/

namespace Sys2Proof.Machine

section
variable {cfg : Config} {s t u : State}

/-! ### The registers -/

/-- The part of the invariant that speaks of registers: the slot numbers are below `N_SENSORS` (44_scheduler.md R193
(a)), and RES_VALID vouches for TEMP (10_state.md R27). -/
structure RegsOk (cfg : Config) (s : State) : Prop where
  cursor_lt : s.cursor.toNat < cfg.nSensors
  lslot_lt : s.lslot.toNat < cfg.nSensors
  measSlot_lt : s.measSlot.toNat < cfg.nSensors
  temp : s.resValid = true → TempIsValidated s

theorem Inv.regsOk (h : Inv cfg s) : RegsOk cfg s := ⟨h.cursor_lt, h.lslot_lt, h.measSlot_lt, h.temp⟩

theorem RegsOk.of_changes {ws : List Reg} (h : RegsOk cfg s) (hc : Changes ws s t) (hcursor : .cursor ∉ ws)
    (hmeas : .measSlot ∉ ws) (htemp : .temp ∉ ws) : RegsOk cfg t := by
  have hsame : (t.tempQ4, t.res, t.resValid) = (s.tempQ4, s.res, s.resValid) := hc.same .temp htemp
  simp only [Prod.mk.injEq] at hsame
  obtain ⟨hq4, hres, hvalid⟩ := hsame
  refine ⟨?_, ?_, ?_, ?_⟩
  · rw [hc.same .cursor hcursor]
    exact h.cursor_lt
  · rw [hc.kept.lslot]
    exact h.lslot_lt
  · rw [hc.same .measSlot hmeas]
    exact h.measSlot_lt
  · rw [hvalid, TempIsValidated, hq4, hres]
    exact h.temp

/-- `ValidatedDecode()` sets RES_VALID only with the TEMP it has just decoded (43_decode.md R171). -/
theorem RegsOk.decodeScratch (h : RegsOk cfg s) : RegsOk cfg (decodeScratch s).1 := by
  unfold Machine.decodeScratch
  split
  · next hok => exact ⟨h.cursor_lt, h.lslot_lt, h.measSlot_lt, fun _ => ⟨s.scratch, hok, rfl⟩⟩
  · exact ⟨h.cursor_lt, h.lslot_lt, h.measSlot_lt, h.temp⟩

theorem RegsOk.runEffect (h : RegsOk cfg s) (e : Effect) : RegsOk cfg (runEffect cfg e s).1 := by
  have hc := runEffect_changes cfg e s
  cases e
  case setMeasSlot => exact ⟨h.cursor_lt, h.lslot_lt, h.lslot_lt, h.temp⟩
  case validatedDecode => exact h.decodeScratch
  case advance | advanceLatched => exact ⟨nextSlot_lt cfg _, h.lslot_lt, h.measSlot_lt, h.temp⟩
  all_goals exact h.of_changes hc (by simp [Effect.writes]) (by simp [Effect.writes]) (by simp [Effect.writes])

/-! ### Moves inside a slot -/

/-- What the invariant reads of the sequencer while a command is in flight. -/
def place (s : State) : Bool × Nat × Slot × BitVec 4 := (s.busy, s.uix, s.slot, s.bytecnt)

/-- From `s` to `t` the controller stays at its micro-operation; of the registers at most `ws` change, and they stay
good. -/
structure Inside (cfg : Config) (ws : List Reg) (s t : State) : Prop where
  changes : Changes ws s t
  place_eq : place t = place s
  regsOk : RegsOk cfg s → RegsOk cfg t

theorem Inside.refl (ws : List Reg) (s : State) : Inside cfg ws s s := ⟨Changes.refl ws s, rfl, id⟩

theorem Inside.trans {ws : List Reg} (h : Inside cfg ws s t) (k : Inside cfg ws t u) : Inside cfg ws s u :=
  ⟨h.changes.trans k.changes, k.place_eq.trans h.place_eq, k.regsOk ∘ h.regsOk⟩

theorem Inside.mono {ws ws' : List Reg} (h : Inside cfg ws s t) (hw : ws ⊆ ws') : Inside cfg ws' s t :=
  ⟨h.changes.mono hw, h.place_eq, h.regsOk⟩

/-- A move that writes no register. -/
theorem inside_of_changes (hc : Changes [] s t) (hp : place t = place s) : Inside cfg [] s t :=
  ⟨hc, hp, fun h => h.of_changes hc List.not_mem_nil List.not_mem_nil List.not_mem_nil⟩

theorem runEffect_place (cfg : Config) (e : Effect) (s : State) : place (runEffect cfg e s).1 = place s := by
  cases e
  case validatedDecode => simp only [runEffect, decodeScratch]; split <;> rfl
  all_goals rfl

theorem runEffects_inside (es : List Effect) (s : State) :
    Inside cfg (es.flatMap Effect.writes) s (runEffects cfg es s).1 := by
  induction es generalizing s with
  | nil => exact Inside.refl _ s
  | cons e es ih =>
    have he : Inside cfg e.writes s (runEffect cfg e s).1 :=
      ⟨runEffect_changes cfg e s, runEffect_place cfg e s, fun h => h.runEffect e⟩
    have he' := he.mono (List.subset_append_left _ (es.flatMap Effect.writes))
    rw [List.flatMap_cons, runEffects]
    split
    · next s' hq =>
      rw [hq] at he'
      exact he'.trans ((ih s').mono (List.subset_append_right _ _))
    · next s' err hq =>
      rw [hq] at he'
      exact he'

theorem samplePresence_inside (p : Bool) (s : State) : Inside cfg [.presence] s (samplePresence p s) :=
  ⟨samplePresence_changes p s, rfl,
    fun h => h.of_changes (samplePresence_changes p s) (by simp) (by simp) (by simp)⟩

theorem sampleBit_inside (b : Bool) (s : State) : Inside cfg [] s (sampleBit b s) :=
  inside_of_changes (sampleBit_changes b s) rfl

theorem withChoice_inside (n : Nat) (s : State) : Inside cfg [] s { s with choice := n } :=
  inside_of_changes (withChoice_changes n s) rfl

theorem answerSlot_inside (op : SlotOp) (s : State) : Inside cfg op.writes s (answerSlot cfg op s) := by
  cases op
  case reset =>
    simp only [answerSlot]
    split
    · exact Inside.refl _ s
    · exact (samplePresence_inside _ s).trans ((withChoice_inside _ _).mono (List.nil_subset _))
  case read =>
    simp only [answerSlot]
    split
    · exact Inside.refl _ s
    · exact (sampleBit_inside _ s).trans (withChoice_inside _ _)
  all_goals exact Inside.refl _ s

theorem sampleLine_inside (op : SlotOp) (s : State) : Inside cfg op.writes s (sampleLine op s) := by
  cases op
  case reset => exact samplePresence_inside _ s
  case read => exact sampleBit_inside _ s
  all_goals exact Inside.refl _ s

theorem recordSlot_inside (op : SlotOp) (s : State) : Inside cfg [] s (recordSlot cfg op s) :=
  inside_of_changes (recordSlot_changes cfg op s) (by cases op <;> rfl)

/-- The time in the slot and the driver are no registers. -/
theorem withTime_inside (ph : Phase) (n : Nat) (d : Bool) (s : State) :
    Inside cfg [] s { s with sphase := ph, tcnt := n, dqOe := d } :=
  inside_of_changes (changes_of_fields (by constructor <;> rfl) (fun r => by cases r <;> rfl) rfl) rfl

/-! ### Bodies -/

theorem writeByteOps_byte_le {byte : BitVec 4} (h : byte.toNat ≤ 8) (v : Byte) (mstep : BitVec 4) :
    ∀ op ∈ writeByteOps v byte mstep, op.byte.toNat ≤ 8 :=
  List.forall_mem_map.mpr fun _ _ => h

theorem readByteOps_byte_le {byte : BitVec 4} (h : byte.toNat ≤ 8) (post : List Effect) (mstep : BitVec 4) :
    ∀ op ∈ readByteOps post byte mstep, op.byte.toNat ≤ 8 :=
  List.forall_mem_map.mpr fun _ _ => h

theorem sendMatchOps_byte_le (a : Addr) (mstep : BitVec 4) : ∀ op ∈ sendMatchOps a mstep, op.byte.toNat ≤ 8 := by
  have haddr : ∀ k ∈ addrOrder, (BitVec.ofNat 4 (k + 1)).toNat ≤ 8 := by decide
  refine List.forall_mem_append.mpr ⟨writeByteOps_byte_le (by decide) _ _, List.forall_mem_flatMap.mpr fun k hk => ?_⟩
  exact writeByteOps_byte_le (haddr k hk) _ _

theorem scratchReadOps_byte_le (post : List Effect) (mstep : BitVec 4) :
    ∀ op ∈ scratchReadOps post mstep, op.byte.toNat ≤ 8 := by
  have hscratch : ∀ k ∈ scratchOrder, (BitVec.ofNat 4 k.val).toNat ≤ 8 := by decide
  simp only [scratchReadOps, List.forall_mem_append, List.forall_mem_flatMap]
  exact ⟨⟨writeByteOps_byte_le (by decide) _ _, fun k hk => readByteOps_byte_le (hscratch k hk) _ _⟩,
    readByteOps_byte_le (by decide) _ _⟩

theorem measureOps_byte_le (a : Addr) : ∀ op ∈ measureOps a, op.byte.toNat ≤ 8 := by
  simp only [measureOps, List.forall_mem_append, List.forall_mem_singleton]
  exact ⟨⟨⟨⟨⟨⟨by decide, sendMatchOps_byte_le a 2⟩, writeByteOps_byte_le (by decide) _ _⟩, by decide⟩, by decide⟩,
    sendMatchOps_byte_le a 4⟩, scratchReadOps_byte_le _ _⟩

/-- No group of bytes is longer than a command byte and eight more (10_state.md R42). -/
theorem bodyOf_byte_le (i : Instr) (a : Addr) : ∀ op ∈ (bodyOf i a).ops, op.byte.toNat ≤ 8 := by
  cases i
  case writeByte imm => exact writeByteOps_byte_le (by decide) _ _
  case readByte => exact readByteOps_byte_le (by decide) _ _
  case select => exact sendMatchOps_byte_le a 0
  case convert => exact writeByteOps_byte_le (by decide) _ _
  case readScratchpad => exact scratchReadOps_byte_le _ _
  case measure | cycle => exact measureOps_byte_le a
  case matchRom | convertT | readScratchpadFn => exact List.forall_mem_nil _
  all_goals exact List.forall_mem_singleton.mpr (Nat.zero_le 8)

/-- A command's body has a first micro-operation. -/
theorem bodyOf_ops_cons {i : Instr} (hi : isCommand i = true) (a : Addr) :
    ∃ op rest, (bodyOf i a).ops = op :: rest := by
  cases i
  case matchRom | convertT | readScratchpadFn => simp [isCommand] at hi
  all_goals exact ⟨_, _, rfl⟩

/-- The body in flight is fixed by the latches (10_state.md R41). -/
theorem Kept.body_eq (h : Kept s t) : t.body = s.body := by
  simp only [State.body, State.current, h.lop, h.limm, h.laddr]

/-- No micro-operation of MEASURE or CYCLE writes the cursor: CYCLE's advance stands at its body's end
(44_scheduler.md R196). -/
theorem cursor_not_mem_writes (hlop : s.lop = 0xD ∨ s.lop = 0xF) {op : MicroOp} (hop : op ∈ s.body.ops) :
    .cursor ∉ op.writes := by
  have hops : s.body.ops = measureOps s.laddr := by
    rcases hlop with h | h <;> rw [State.body, State.current, h] <;> rfl
  intro hmem
  have hw : Reg.cursor ∈ (measureOps s.laddr).flatMap MicroOp.writes :=
    List.mem_flatMap.mpr ⟨op, hops ▸ hop, hmem⟩
  rw [measureOps_writes] at hw
  simp [measureWrites] at hw

/-! ### A micro-operation in flight -/

/-- A command is in flight at `op` with `rest` after it, and the invariant holds. -/
structure WorkingAt (cfg : Config) (op : MicroOp) (rest : List MicroOp) (s : State) : Prop where
  inv : Inv cfg s
  busy : s.busy = true
  left : opsLeft s.body s = op :: rest

variable {op : MicroOp} {rest : List MicroOp}

/-- With BUSY the position is inside the body, so a micro-operation stands there. -/
theorem Inv.workingAt (h : Inv cfg s) (hb : s.busy = true) : ∃ op rest, WorkingAt cfg op rest s := by
  obtain ⟨op, hop, -⟩ := h.inBody hb
  exact ⟨op, _, h, hb, List.drop_eq_getElem?_toList_append.trans (by rw [hop]; rfl)⟩

theorem WorkingAt.mem (h : WorkingAt cfg op rest s) : op ∈ s.body.ops :=
  List.mem_of_mem_drop (h.left ▸ List.mem_cons_self)

/-- A move that writes only registers of the micro-operation keeps the invariant and the position. -/
theorem WorkingAt.inside {ws : List Reg} (h : WorkingAt cfg op rest s) (hi : Inside cfg ws s t)
    (hw : ws ⊆ op.writes) : WorkingAt cfg op rest t := by
  have hplace := hi.place_eq
  simp only [place, Prod.mk.injEq] at hplace
  obtain ⟨hbusy, huix, hslot, hbyte⟩ := hplace
  have hkept := hi.changes.kept
  have hregs := hi.regsOk h.inv.regsOk
  refine ⟨⟨hregs.cursor_lt, hregs.lslot_lt, hregs.measSlot_lt, ?_, ?_, ?_, ?_, hregs.temp⟩, hbusy.trans h.busy, ?_⟩
  · intro hidle
    rw [hbusy, h.busy] at hidle
    cases hidle
  · rw [BusyInBody, hbusy, hkept.body_eq, huix, hslot]
    exact h.inv.inBody
  · rw [hbyte]
    exact h.inv.bytecnt_le
  · rw [hbusy, hkept.lop, hkept.lslot]
    intro hb hlop
    have hcursor : t.cursor = s.cursor := hi.changes.same .cursor (fun hm => cursor_not_mem_writes hlop h.mem (hw hm))
    rw [hcursor]
    exact h.inv.lslot_cursor hb hlop
  · rw [opsLeft, hkept.body_eq, huix]
    exact h.left

theorem WorkingAt.pre (h : WorkingAt cfg op rest s) : WorkingAt cfg op rest (runEffects cfg op.pre s).1 :=
  h.inside (runEffects_inside op.pre s) (by simp [MicroOp.writes])

theorem WorkingAt.post (h : WorkingAt cfg op rest s) : WorkingAt cfg op rest (runEffects cfg op.post s).1 :=
  h.inside (runEffects_inside op.post s) (by simp [MicroOp.writes])

theorem WorkingAt.slotMove (h : WorkingAt cfg op rest s) (hi : Inside cfg op.slot.writes s t) :
    WorkingAt cfg op rest t :=
  h.inside hi (by simp [MicroOp.writes])

/-! ### Where a micro-operation's end leaves the controller -/

theorem RegsOk.goIdle (h : RegsOk cfg s) : Inv cfg (goIdle s) where
  cursor_lt := h.cursor_lt
  lslot_lt := h.lslot_lt
  measSlot_lt := h.measSlot_lt
  idle _ := ⟨rfl, rfl, rfl, rfl, rfl⟩
  inBody hb := nomatch hb
  bytecnt_le := Nat.zero_le 8
  lslot_cursor hb := nomatch hb
  temp := h.temp

theorem RegsOk.completeCommand (h : RegsOk cfg s) (b : Body) : Inv cfg (completeCommand cfg b s) :=
  ((runEffects_inside b.always s).regsOk h).goIdle

theorem RegsOk.failCommand (h : RegsOk cfg s) (b : Body) (e : Err) : Inv cfg (failCommand cfg b e s) :=
  RegsOk.completeCommand (s := { s with err := e }) ⟨h.cursor_lt, h.lslot_lt, h.measSlot_lt, h.temp⟩ b

/-- A loaded micro-operation of the body, at its position (10_state.md R41, R42). -/
theorem RegsOk.loadSlot (h : RegsOk cfg s) (hop : s.body.ops[s.uix]? = some op) (hb : s.busy = true)
    (hcursor : s.lop = 0xD ∨ s.lop = 0xF → s.lslot = s.cursor) : Inv cfg (loadSlot cfg op s) where
  cursor_lt := h.cursor_lt
  lslot_lt := h.lslot_lt
  measSlot_lt := h.measSlot_lt
  idle hidle := by
    rw [loadSlot_busy, hb] at hidle
    cases hidle
  inBody _ := ⟨op, hop, rfl⟩
  bytecnt_le := bodyOf_byte_le _ _ op (List.mem_of_getElem? hop)
  lslot_cursor _ := hcursor
  temp := h.temp

theorem WorkingAt.moveOn {b : Body} {r : State × Option Err} (h : WorkingAt cfg op rest r.1) :
    Inv cfg (moveOn cfg b rest r) := by
  have hregs := h.inv.regsOk
  rcases r with ⟨s, _ | e⟩
  · cases rest with
    | nil => exact hregs.completeCommand b
    | cons next rest =>
      have hnext : s.body.ops[s.uix + 1]? = some next := by
        have hleft : s.body.ops.drop s.uix = op :: next :: rest := h.left
        rw [← List.getElem?_drop, hleft]
        rfl
      exact RegsOk.loadSlot (s := { s with uix := s.uix + 1 })
        ⟨hregs.cursor_lt, hregs.lslot_lt, hregs.measSlot_lt, hregs.temp⟩ hnext h.busy (h.inv.lslot_cursor h.busy)
  · cases rest <;> exact hregs.failCommand b e

theorem WorkingAt.endMicroOp (h : WorkingAt cfg op rest s) (b : Body) : Inv cfg (endMicroOp cfg b op rest s) := by
  rw [endMicroOp_eq]
  exact (h.inside (recordSlot_inside op.slot s) (List.nil_subset _)).post.moveOn

/-! ### The controller's turn -/

theorem WorkingAt.stepMicroOp (h : WorkingAt cfg op rest s) (b : Body) : Inv cfg (stepMicroOp cfg b op rest s) :=
  (h.pre.slotMove (answerSlot_inside op.slot _)).endMicroOp b

/-- Any number of controller steps keeps the invariant, the body being the one in flight. -/
theorem Inv.runSteps (h : Inv cfg s) (n : Nat) : Inv cfg (runSteps cfg s.body n s) := by
  induction n generalizing s with
  | zero => rwa [runSteps_zero]
  | succ n ih =>
    cases hb : s.busy with
    | false => rwa [runSteps_idle cfg _ _ hb]
    | true =>
      obtain ⟨op, rest, hat⟩ := h.workingAt hb
      have hrest := ih (hat.stepMicroOp s.body)
      rw [(stepMicroOp_kept cfg s.body op rest s).body_eq] at hrest
      rwa [runSteps_cons cfg _ n hb hat.left]

theorem Inv.controllerTurn (h : Inv Config.owtc s) (ht : controllerTurn s = .next t) : Inv Config.owtc t := by
  cases hb : s.busy with
  | true =>
    rw [controllerTurn_busy hb, exec_command s.current s (isCommand_instrOf _ _)] at ht
    obtain rfl := Host.Outcome.next.inj ht
    exact h.runSteps _
  | false =>
    obtain ⟨hslot, -⟩ := h.idle hb
    rw [controllerTurn_quiescent hb (by simp [hslot])] at ht
    exact Host.Outcome.next.inj ht ▸ h

/-! ### A clock cycle -/

/-- A cycle's count stays in the slot or ends it. -/
theorem WorkingAt.countCycle (h : WorkingAt cfg op rest s) (b : Body) : Inv cfg (countCycle cfg b op rest s) := by
  unfold Machine.countCycle
  split
  · exact (h.inside (withTime_inside _ _ s.dqOe s) (List.nil_subset _)).inv
  · split
    · exact (h.inside (withTime_inside _ _ _ s) (List.nil_subset _)).inv
    · exact h.endMicroOp b

theorem Inv.controllerCycle (h : Inv cfg s) (hb : s.busy = true) : Inv cfg (controllerCycle cfg s.body s) := by
  obtain ⟨op, rest, hat⟩ := h.workingAt hb
  have hstart : WorkingAt cfg op rest (if atSlotStart cfg op s then (runEffects cfg op.pre s).1 else s) := by
    split
    · exact hat.pre
    · exact hat
  have hsample {v : State} (hv : WorkingAt cfg op rest v) :
      WorkingAt cfg op rest (if v.sphase = .sample then sampleLine op.slot v else v) := by
    split
    · exact hv.slotMove (sampleLine_inside op.slot v)
    · exact hv
  simp only [Machine.controllerCycle, hat.left]
  split
  · exact hstart.endMicroOp _
  · exact (hsample hstart).countCycle _

/-! ### The host's acts -/

/-- The invariant says nothing of the host's own registers, of ERR, of the line or of the host's turns. -/
theorem Inv.congr (h : Inv cfg s)
    (heq : t = { s with
      ovr := t.ovr, err := t.err, addr0 := t.addr0, addr1 := t.addr1, dqSync := t.dqSync, devLow := t.devLow,
      rdata := t.rdata, choice := t.choice, agenda := t.agenda, turn := t.turn }) : Inv cfg t := by
  rw [heq]
  exact ⟨h.cursor_lt, h.lslot_lt, h.measSlot_lt, h.idle, h.inBody, h.bytecnt_le, h.lslot_cursor, h.temp⟩

/-- An accepted command stands at the first micro-operation of its body, MEASURE and CYCLE with the cursor latched
(30_encoding.md R81). -/
theorem Inv.acceptCommand (h : Inv cfg s) {i : Instr} (hi : isCommand i = true) : Inv cfg (acceptCommand cfg i s) := by
  have hlatched : RegsOk cfg (latchCommand cfg i s) := by
    refine ⟨h.cursor_lt, ?_, h.measSlot_lt, ?_⟩
    · rw [latchCommand_lslot, acceptLslot_eq]
      split
      · exact h.cursor_lt
      · exact h.lslot_lt
    · rw [latchCommand_resValid, acceptResValid_eq]
      split
      · nofun
      · exact h.temp
  have hcursor (hlop : opOf i = 0xD ∨ opOf i = 0xF) : acceptLslot i s = s.cursor := by
    rw [acceptLslot_eq, if_pos hlop]
  have hbody : (latchCommand cfg i s).body = bodyOf i (latchCommand cfg i s).laddr :=
    congrArg (bodyOf · _) (instrOf_opOf_immOf hi)
  obtain ⟨op, rest, hops⟩ := bodyOf_ops_cons hi (latchCommand cfg i s).laddr
  simp only [Machine.acceptCommand, loadFirst, hops]
  exact hlatched.loadSlot (by rw [hbody, hops]; rfl) rfl hcursor

theorem Inv.hostWrite (h : Inv cfg s) (seenBusy : Bool) (a : Nat) (v : Word) :
    Inv cfg (hostWrite cfg seenBusy a v s) := by
  unfold Machine.hostWrite
  split
  · cases seenBusy with
    | true => exact h.congr rfl
    | false =>
      cases hd : decodeCmd v with
      | error e => rw [offerCommand_refuse cfg v e s hd]; exact h.congr rfl
      | ok i => rw [offerCommand_accept cfg v i s hd]; exact h.acceptCommand (isCommand_of_decodeCmd hd)
  · split <;> exact h.congr rfl
  all_goals exact h.congr rfl

theorem Inv.hostAccess (h : Inv cfg s) (x : Access) (u : State) : Inv cfg (hostAccess cfg x u s) := by
  have hread (a : Nat) : Inv cfg (hostRead cfg a u s) := h.congr rfl
  cases x with
  | write n a v => exact h.hostWrite u.busy a v
  | read n a => exact hread a
  | writeRead n a v => exact (hread a).hostWrite u.busy a v

/-- Slot 0 is a slot of every configuration, and no command is in flight at reset. -/
theorem inv_reset (cfg : Config) : Inv cfg State.reset :=
  RegsOk.goIdle (s := State.reset) ⟨nSensors_pos cfg, nSensors_pos cfg, nSensors_pos cfg, nofun⟩

/-- Settles O49, for every configuration. -/
theorem invHoldsAtReset : Obligations.InvHoldsAtReset := by
  unfold Obligations.InvHoldsAtReset
  exact inv_reset Config.owtc

theorem inv_resetCycle (x : Option Access) (s : State) : Inv cfg (resetCycle cfg x s) := by
  unfold resetCycle
  split <;> exact (inv_reset cfg).congr rfl

theorem Inv.clock (h : Inv cfg s) (c : ClockIn) : Inv cfg (clock cfg c s) := by
  have hcycle : Inv cfg (if s.busy then Machine.controllerCycle cfg s.body s else s) := by
    split
    · next hb => exact h.controllerCycle hb
    · exact h
  have hsync : Inv cfg (syncLine c.devLow s (if s.busy then Machine.controllerCycle cfg s.body s else s)) :=
    hcycle.congr rfl
  rcases c with ⟨_ | _, d, _ | x⟩
  case false.none => exact hsync
  case false.some => exact hsync.hostAccess x s
  all_goals exact (inv_resetCycle _ s).congr rfl

theorem Inv.doAct (h : Inv cfg s) (x : Act) : Inv cfg (doAct cfg x s) := by
  cases x with
  | idle => exact h
  | access x => exact h.hostAccess x s
  | rst x => exact inv_resetCycle x s
  | cycle c => exact h.clock c

end

/-- Settles O50: the host's act keeps the invariant, and so does the controller's turn after it. -/
theorem everyStepKeepsInv : Obligations.EveryStepKeepsInv := by
  unfold Obligations.EveryStepKeepsInv
  intro s s' h hstep
  cases hs : s.agenda with
  | nil =>
    rw [step_silent hs] at hstep
    exact Inv.controllerTurn (h.congr rfl) hstep
  | cons t rest =>
    cases hw : t.act.wellFormed with
    | false =>
      rw [step_refuses hs hw] at hstep
      cases hstep
    | true =>
      rw [step_turn hs hw] at hstep
      have hturn : Inv Config.owtc { s with agenda := rest, turn := t.ctl } := h.congr rfl
      exact (hturn.doAct t.act).controllerTurn hstep

end Sys2Proof.Machine
end

section
/-! PROOFS. MEASURE and CYCLE (44_scheduler.md R194, R196): every end of a body makes its unconditional effects, and
`MeasureBody()` runs in three legs, to the end of the conversion, to the scratchpad read, and through that. -/

namespace Sys2Proof.Machine
open Pseudo

section
variable (cfg : Config) (b : Body)

/-! ### Every end makes the unconditional effects -/

/-- A controller step goes on with its command or completes it. -/
theorem stepMicroOp_busy_or_completes (op : MicroOp) (rest : List MicroOp) {s : State} (hb : s.busy = true) :
    (stepMicroOp cfg b op rest s).busy = true ∨ ∃ x, stepMicroOp cfg b op rest s = completeCommand cfg b x := by
  have hbusy : (slotResult cfg op s).1.busy = true := by
    rw [slotResult, runEffects_busy, recordSlot_busy, answerSlot_busy, runEffects_busy, hb]
  rw [stepMicroOp_eq]
  rcases hr : slotResult cfg op s with ⟨t, _ | e⟩ <;> rw [hr] at hbusy <;> cases rest
  case none.cons => exact .inl hbusy
  all_goals exact .inr ⟨_, rfl⟩

/-- Enough controller steps complete a command, whether it fails or not (60_exceptions.md R222). -/
theorem runMicroOps_completes (n : Nat) (ops : List MicroOp) {s : State} (hb : s.busy = true) (hn : ops.length < n) :
    ∃ x, runMicroOps cfg b n ops s = completeCommand cfg b x := by
  induction n generalizing ops s with
  | zero => simp at hn
  | succ n ih =>
    cases ops with
    | nil => exact ⟨s, rfl⟩
    | cons op rest =>
      rw [runMicroOps_cons]
      split
      · next hbusy => exact ih rest hbusy (by simpa using hn)
      · next hbusy => exact (stepMicroOp_busy_or_completes cfg b op rest hb).resolve_left hbusy

theorem runBody_completes {s : State} (hb : s.busy = true) (hturn : s.turn = none) :
    ∃ x, runBody cfg b s = completeCommand cfg b x := by
  have hrun : runBody cfg b s = runMicroOps cfg b ((opsLeft b s).length + 1) (opsLeft b s) s := by
    simp [runBody, hb, turnSteps, hturn]
  rw [hrun]
  exact runMicroOps_completes cfg b _ _ hb (Nat.lt_succ_self _)

/-- CYCLE ends with the cursor moved on from the latched slot, from any position (44_scheduler.md R196). -/
theorem runBody_cycleBody_cursor (a : Addr) {s : State} (hb : s.busy = true) (hturn : s.turn = none) :
    (runBody cfg (cycleBody a) s).cursor = nextSlot cfg s.lslot := by
  obtain ⟨x, hx⟩ := runBody_completes cfg (cycleBody a) hb hturn
  have hlslot : (completeCommand cfg (cycleBody a) x).lslot = s.lslot :=
    hx ▸ (runBody_kept cfg (cycleBody a) s).lslot
  rw [hx, ← hlslot]
  rfl

/-! ### The end of MEASURE and CYCLE -/

/-- Where a body's unconditional effects leave the cursor. -/
def endCursor (s : State) : BitVec 8 := (runEffects cfg b.always s).1.cursor

/-- What the check of SCRATCH and the decode after it leave, with the cursor at `cur` (41_rom_function.md R135,
43_decode.md R171). -/
def checkedAndDecoded (cur : BitVec 8) (x : State) : State :=
  { x with
    err := if scratchOk x.scratch then x.err else .crcMismatch
    cursor := cur
    crc := crc8 (x.scratch.toList.take 8)
    crcOk := scratchOk x.scratch
    tempQ4 := if scratchOk x.scratch then (decodeTemp x.scratch).1 else x.tempQ4
    res := if scratchOk x.scratch then (decodeTemp x.scratch).2 else x.res
    resValid := if scratchOk x.scratch then true else x.resValid }

/-- What the slots of `ScratchRead()` leave when they return `sp` (41_rom_function.md R135). -/
def scratchPadRead (sp : Vector Byte 9) (x : State) : State :=
  { x with
    scratch := sp
    hist := x.hist ++ writeEvents 0xBE ++ scratchEvents sp
    choice := x.choice + 72
    shreg := sp[8] }

variable {cfg b} (hb : b.always = [] ∨ b.always = [.advanceLatched]) {s x : State}
include hb

/-- MEASURE and CYCLE end with the cursor that the cursor and the latched slot at their start say. -/
theorem completeCommand_eq_goIdle (hcursor : x.cursor = s.cursor) (hlslot : x.lslot = s.lslot) :
    completeCommand cfg b x = goIdle { x with cursor := endCursor cfg b s } := by
  rcases hb with h | h
  · simp only [completeCommand, endCursor, h, runEffects, ← hcursor]
  · simp only [completeCommand, endCursor, h, runEffects, runEffect, ← hlslot]

theorem failCommand_eq_goIdle (e : Err) (hcursor : x.cursor = s.cursor) (hlslot : x.lslot = s.lslot) :
    failCommand cfg b e x = goIdle { x with err := e, cursor := endCursor cfg b s } :=
  completeCommand_eq_goIdle hb (x := { x with err := e }) hcursor hlslot

/-- The check of `ScratchRead()` and the decode after it end their command (41_rom_function.md R135, 43_decode.md
R171). -/
theorem endBody_checkScratch_decodeScratch (hcursor : x.cursor = s.cursor) (hlslot : x.lslot = s.lslot) :
    endBody cfg b (tailBody (checkScratch x) decodeScratch) = goIdle (checkedAndDecoded (endCursor cfg b s) x) := by
  cases hok : scratchOk x.scratch
  · simp only [checkedAndDecoded, checkScratch, hok, tailBody, endBody, Bool.false_eq_true, if_false]
    exact failCommand_eq_goIdle hb .crcMismatch hcursor hlslot
  · simp only [checkedAndDecoded, checkScratch, hok, tailBody, decodeScratch, endBody, if_true]
    exact completeCommand_eq_goIdle hb hcursor hlslot

end

/-! ### The legs of `MeasureBody()` -/

/-- The bytes of `SendMatch(a)` after the first, with their places in the group (41_rom_function.md R130). -/
def addrBytes (a : Addr) : List (Byte × BitVec 4) := addrOrder.map fun k => (addrByte a k, BitVec.ofNat 4 (k + 1))

/-- `MeasureBody()` from its second reset on (44_scheduler.md R194, steps 4 and 5). -/
def secondResetOps (a : Addr) : List MicroOp :=
  resetOp [] 4 :: (sendMatchOps a 4 ++ scratchReadOps [.validatedDecode] 5)

/-- What the steps before the second reset leave when a device is present (44_scheduler.md R194, steps 1 to 3). -/
def converted (cfg : Config) (s : State) : State :=
  { s with
    measSlot := s.lslot
    presence := true
    hist := s.hist ++ [.reset true] ++ sendMatchEvents s.laddr ++ writeEvents 0x44 ++ [.wait cfg.timing.tConv]
    choice := s.choice + 1
    shreg := 0
    uix := s.uix + 82 }

/-- What the second reset and match leave when a device is present (44_scheduler.md R194, step 4). -/
def matchedAgain (a : Addr) (s : State) : State :=
  { s with
    presence := true
    hist := s.hist ++ [.reset true] ++ sendMatchEvents a
    choice := s.choice + 1
    shreg := 0
    uix := s.uix + 73 }

theorem measureOps_eq (a : Addr) :
    measureOps a = resetOp [.setMeasSlot] 1 ::
      (writeBytesOps 2 ((matchRomByte, 0) :: (addrBytes a ++ [(convertByte, 0)])) ++ waitOp 3 :: secondResetOps a) := by
  simp [measureOps, secondResetOps, sendMatchOps_eq, addrBytes, writeBytesOps]

/-- MEAS_SLOT is written before the first reset slot (44_scheduler.md R194, step 1). -/
theorem runMicroOps_setMeasSlot (cfg : Config) (b : Body) (n : Nat) (m : BitVec 4) (r : List MicroOp) (s : State) :
    runMicroOps cfg b (n + 1) (resetOp [.setMeasSlot] m :: r) s =
      runMicroOps cfg b (n + 1) (resetOp [] m :: r) { s with measSlot := s.lslot } := rfl

theorem addrBytes_events (a : Addr) :
    (matchRomByte :: (addrBytes a).map Prod.fst).flatMap writeEvents = sendMatchEvents a := by
  simp [addrBytes, addrOrder, sendMatchEvents, matchRomByte]

section
variable {cfg : Config} {b : Body} {s : State} (n : Nat)

/-- A reset slot that finds nobody ends its command, with CYCLE's advance (40_bus_primitives.md R107,
44_scheduler.md R196). -/
theorem runMicroOps_resetOp_absent (hb : b.always = [] ∨ b.always = [.advanceLatched]) {x : State} (m : BitVec 4)
    (r : List MicroOp) (hphase : x.sphase ≠ .recover) (hp : cfg.presence x.hist x.choice = false)
    (hcursor : x.cursor = s.cursor) (hlslot : x.lslot = s.lslot) :
    runMicroOps cfg b (n + 1) (resetOp [] m :: r) x = goIdle { x with
      presence := false
      err := .busAbsent
      cursor := endCursor cfg b s
      hist := x.hist ++ [.reset false]
      choice := x.choice + 1 } := by
  have hslot := slotResult_resetOp cfg m hphase
  rw [hp] at hslot
  refine (runMicroOps_fail cfg b n _ r x _ _ hslot).trans ?_
  rw [failCommand_eq_goIdle hb (x := (busReset cfg x).2) (s := s) .busAbsent hcursor hlslot, busReset, hp]

/-- A reset slot that finds a device, and the bytes sent after it. -/
theorem runMicroOps_resetOp_writeBytesOps (m m' : BitVec 4) (v : Byte × BitVec 4) (vs : List (Byte × BitVec 4))
    (next : MicroOp) (r : List MicroOp) (hbusy : s.busy = true) (hphase : s.sphase ≠ .recover)
    (hp : cfg.presence s.hist s.choice = true) :
    runMicroOps cfg b (n + 8 * (vs.length + 1) + 1) (resetOp [] m :: (writeBytesOps m' (v :: vs) ++ next :: r)) s =
      runMicroOps cfg b n (next :: r) (loadSlot cfg next (afterBytes (v.1 :: vs.map Prod.fst) { s with
        presence := true, hist := s.hist ++ [.reset true], choice := s.choice + 1, uix := s.uix + 1 })) := by
  obtain ⟨tail, htail⟩ : ∃ tail, writeBytesOps m' (v :: vs) ++ next :: r = writeBitOp v.1 v.2 m' 0 :: tail := ⟨_, rfl⟩
  have hslot := slotResult_resetOp cfg m hphase
  simp only [busReset, hp] at hslot
  have hreset := runMicroOps_next cfg b (n + 8 * (vs.length + 1)) (resetOp [] m) (writeBitOp v.1 v.2 m' 0) tail s _
    hslot hbusy
  rw [← htail] at hreset
  refine hreset.trans ((runMicroOps_writeBytesOps cfg b m' next r v vs n _ (by exact hbusy)).trans ?_)
  rw [loadSlot_afterBytes]

/-- From the first reset to the second: the match, the conversion and the wait (44_scheduler.md R194, steps 1 to 3). -/
theorem runMicroOps_measureOps_present (hbusy : s.busy = true) (hphase : s.sphase ≠ .recover)
    (hp : cfg.presence s.hist s.choice = true) :
    runMicroOps cfg b (n + 235) (measureOps s.laddr) s =
      runMicroOps cfg b (n + 153) (secondResetOps s.laddr) (loadSlot cfg (resetOp [] 4) (converted cfg s)) := by
  have hwrite := runMicroOps_resetOp_writeBytesOps (cfg := cfg) (b := b) (s := { s with measSlot := s.lslot }) (n + 154)
    1 2 (matchRomByte, 0) (addrBytes s.laddr ++ [(convertByte, 0)]) (waitOp 3) (secondResetOps s.laddr) hbusy hphase hp
  have hevents : (matchRomByte :: (addrBytes s.laddr ++ [(convertByte, 0)]).map Prod.fst).flatMap writeEvents =
      sendMatchEvents s.laddr ++ writeEvents 0x44 := by
    rw [List.map_append, ← List.cons_append, List.flatMap_append, addrBytes_events]
    rfl
  rw [measureOps_eq, runMicroOps_setMeasSlot]
  refine hwrite.trans ((runMicroOps_waitOp cfg b 3 _ _ (n + 153) _ (by exact hbusy)).trans ?_)
  rw [afterBytes, hevents, ← List.append_assoc]
  rfl

/-- From the second reset to the scratchpad read: the second match (44_scheduler.md R194, step 4). -/
theorem runMicroOps_secondResetOps_present (a : Addr) (hbusy : s.busy = true) (hphase : s.sphase ≠ .recover)
    (hp : cfg.presence s.hist s.choice = true) :
    runMicroOps cfg b (n + 153) (secondResetOps a) s =
      runMicroOps cfg b (n + 80) (scratchReadOps [.validatedDecode] 5)
        (loadSlot cfg (writeBitOp readScratchpadByte 0 5 0) (matchedAgain a s)) := by
  obtain ⟨tail, htail⟩ : ∃ tail, scratchReadOps [.validatedDecode] 5 = writeBitOp readScratchpadByte 0 5 0 :: tail :=
    ⟨_, rfl⟩
  have hwrite := runMicroOps_resetOp_writeBytesOps (b := b) (n + 80) 4 4 (matchRomByte, 0) (addrBytes a)
    (writeBitOp readScratchpadByte 0 5 0) tail hbusy hphase hp
  rw [secondResetOps, sendMatchOps_eq, htail]
  refine hwrite.trans ?_
  rw [afterBytes, addrBytes_events]
  rfl

/-- The scratchpad read, its check and the decode, to the end of the command (44_scheduler.md R194, step 5). -/
theorem runMicroOps_scratchReadOps_decode (hb : b.always = [] ∨ b.always = [.advanceLatched]) {x : State}
    (hbusy : x.busy = true) (hcursor : x.cursor = s.cursor) (hlslot : x.lslot = s.lslot) :
    ∃ sp, ScratchAnswers cfg (x.hist ++ writeEvents 0xBE) x.choice sp ∧
      runMicroOps cfg b (n + 80) (scratchReadOps [.validatedDecode] 5) x =
        goIdle (checkedAndDecoded (endCursor cfg b s) (scratchPadRead sp x)) := by
  obtain ⟨sp, hsp, hread⟩ := scratchRead_answers cfg x
  refine ⟨sp, hsp, ?_⟩
  obtain ⟨t, ht⟩ : ∃ t, runMicroOps cfg b (n + 80) (scratchReadOps [.validatedDecode] 5) x = t := ⟨_, rfl⟩
  have hsettled := runMicroOps_scratchReadOps cfg b hb [.validatedDecode] decodeScratch (runEffects_validated cfg)
    decodeScratch_settled 5 n x hbusy
  rw [ht, hread] at hsettled
  have hend := hsettled.trans (congrArg settled
    (endBody_checkScratch_decodeScratch hb (s := s) (by exact hcursor) (by exact hlslot)))
  have hpost (u : State) : (runEffects cfg [.validatedDecode] u).1.scratch = u.scratch := by
    rw [runEffects_validated, decodeScratch]
    split <;> rfl
  have hshreg : t.shreg = sp[8] := by
    have hscratch : t.scratch = sp := congrArg State.scratch hend
    rw [runMicroOps_scratchReadOps_shreg cfg b hb _ hpost 5 n hbusy ht, hscratch]
  rw [ht, ← goIdle_runMicroOps_scratchReadOps cfg b _ 5 n hbusy ht]
  exact goIdle_eq_of_settled hend hshreg

end

/-! ### The commands -/

/-- Settles O38: CYCLE ends by its unconditional advance, and no micro-operation writes the cursor. -/
theorem cycleAlwaysAdvances : Obligations.CycleAlwaysAdvances := by
  unfold Obligations.CycleAlwaysAdvances
  intro s imm hb hturn
  have hmeasure := exec_command (.measure imm) s rfl
  refine ⟨⟨_, exec_command (.cycle imm) s rfl, runBody_cycleBody_cursor _ _ hb hturn⟩, _, hmeasure, ?_⟩
  exact (exec_changes (i := .measure imm) rfl hmeasure).same .cursor (by simp [commandWrites, measureWrites])

/-- A command that has just started runs `MeasureBody()` as a whole. -/
theorem exec_measureOps {i : Instr} {s : State} {b : Body} (hi : isCommand i = true) (h : Started s)
    (hb : bodyOf i s.laddr = b) (hops : b.ops = measureOps s.laddr) :
    exec i s = .next (runMicroOps Config.owtc b 236 (measureOps s.laddr) s) := by
  have hlength : (measureOps s.laddr).length = 235 := rfl
  rw [exec_command i s hi, hb, runBody_started _ b s h, hops, hlength]

/-- Settles O30, leg by leg: each reset may end the command, and the read does. -/
theorem measureAndCycleOutcomes : Obligations.MeasureAndCycleOutcomes := by
  unfold Obligations.MeasureAndCycleOutcomes
  rintro s i cur _ _ h hi rfl rfl
  have ⟨hbusy, _, _, hphase⟩ := h
  obtain ⟨b, hb, hexec, hcur⟩ : ∃ b : Body, (b.always = [] ∨ b.always = [.advanceLatched]) ∧
      exec i s = .next (runMicroOps Config.owtc b 236 (measureOps s.laddr) s) ∧ endCursor Config.owtc b s = cur := by
    rcases hi with ⟨⟨imm, rfl⟩, rfl⟩ | ⟨⟨imm, rfl⟩, rfl⟩
    · exact ⟨measureBody s.laddr, .inl rfl, exec_measureOps rfl h rfl rfl, rfl⟩
    · exact ⟨cycleBody s.laddr, .inr rfl, exec_measureOps rfl h rfl rfl, rfl⟩
  subst hcur
  refine ⟨_, hexec, ?_⟩
  split
  · next hfirst =>
    rw [measureOps_eq, runMicroOps_setMeasSlot]
    exact runMicroOps_resetOp_absent 235 hb (x := { s with measSlot := s.lslot }) 1 _ hphase hfirst rfl rfl
  · next hfirst =>
    rw [Bool.not_eq_false] at hfirst
    rw [runMicroOps_measureOps_present 1 hbusy hphase hfirst]
    split
    · next hsecond =>
      have habsent := runMicroOps_resetOp_absent (s := s) 153 hb
        (x := loadSlot Config.owtc (resetOp [] 4) (converted Config.owtc s)) 4
        (sendMatchOps s.laddr 4 ++ scratchReadOps [.validatedDecode] 5) (loadSlot_ne_recover _ _ _) hsecond rfl rfl
      exact habsent.trans rfl
    · next hsecond =>
      rw [Bool.not_eq_false] at hsecond
      rw [runMicroOps_secondResetOps_present 1 s.laddr (by exact hbusy) (loadSlot_ne_recover _ _ _) hsecond]
      obtain ⟨sp, hsp, hrun⟩ := runMicroOps_scratchReadOps_decode (s := s) 1 hb
        (x := loadSlot Config.owtc (writeBitOp readScratchpadByte 0 5 0)
          (matchedAgain s.laddr (loadSlot Config.owtc (resetOp [] 4) (converted Config.owtc s)))) hbusy rfl rfl
      exact ⟨sp, hsp, hrun.trans rfl⟩

end Sys2Proof.Machine
end

section
/-! PROOFS. How a command ends (60_exceptions.md R220 to R225): every run without a limit completes, an error code tells
what the failing check saw, and the whole run of a command is its pseudocode followed by its completion. -/

namespace Sys2Proof.Machine
open Pseudo

/-! ### The end of a command -/

/-- Settles O53: whatever the cycle does to the command, the write sees BUSY as it was at the cycle's start. -/
theorem writeInTheCompletionCycleIsDropped : Obligations.WriteInTheCompletionCycleIsDropped := by
  unfold Obligations.WriteInTheCompletionCycleIsDropped
  intro s w d hb
  have hdropped (u : State) : hostAccess Config.owtc (.write 4 0x00 w) s u = { u with ovr := true } := by
    change offerCommand Config.owtc s.busy w u = _
    rw [hb, offerCommand_busy]
  exact hdropped (clock Config.owtc ⟨false, d, none⟩ s)

/-- Settles O33: from any position the run completes its command, and a completed command leaves OWTC idle. -/
theorem everyCommandEnds : Obligations.EveryCommandEnds := by
  unfold Obligations.EveryCommandEnds
  intro i s hi
  rw [exec_command i s hi]
  refine ⟨fun hb hturn => ?_, fun hb => congrArg Host.Outcome.next (runBody_idle _ _ s hb)⟩
  obtain ⟨x, hx⟩ := runBody_completes Config.owtc (bodyOf i s.laddr) hb hturn
  exact ⟨_, congrArg Host.Outcome.next hx, rfl, rfl, rfl, rfl, rfl, rfl, rfl, rfl⟩

/-! ### The codes a body may end with -/

/-- The code an effect may fail with (60_exceptions.md R221). -/
def Effect.code : Effect → Option Err
  | .failIfAbsent => some .busAbsent
  | .scratchCheck | .validatedDecode => some .crcMismatch
  | .setMeasSlot | .storeRxBit | .storeRxByte | .storeScratch _ | .crcInit _ | .crcByte _ | .advance
  | .advanceLatched => none

/-- The codes a micro-operation may end its command with: those of the effects after its slot. -/
def MicroOp.codes (op : MicroOp) : List Err := op.post.filterMap Effect.code

/-- The codes `MeasureBody()` may fail with, in the order of its checks (44_scheduler.md R194). -/
def measureCodes : List Err := [.busAbsent, .busAbsent, .crcMismatch, .crcMismatch]

/-- The codes each command may end with, in the order of its checks (60_exceptions.md R221). -/
def commandCodes : Instr → List Err
  | .reset _ => [.busAbsent]
  | .readScratchpad _ | .decode _ => [.crcMismatch]
  | .measure _ | .cycle _ => measureCodes
  | .nop _ | .writeBit _ | .readBit _ | .writeByte _ | .readByte _ | .select _ | .convert _ | .crcInit _
  | .crcByte _ | .waitConv _ | .advance _ | .matchRom | .convertT | .readScratchpadFn => []

theorem writeByteOps_codes (v : Byte) (byte mstep : BitVec 4) :
    (writeByteOps v byte mstep).flatMap MicroOp.codes = [] := rfl

theorem readByteOps_codes (post : List Effect) (byte mstep : BitVec 4) :
    (readByteOps post byte mstep).flatMap MicroOp.codes = post.filterMap Effect.code :=
  List.append_nil _

theorem sendMatchOps_codes (a : Addr) (mstep : BitVec 4) : (sendMatchOps a mstep).flatMap MicroOp.codes = [] := by
  simp [sendMatchOps, writeByteOps_codes, List.flatMap_assoc]

theorem scratchReadOps_codes (post : List Effect) (mstep : BitVec 4) :
    (scratchReadOps post mstep).flatMap MicroOp.codes = .crcMismatch :: post.filterMap Effect.code := by
  simp [scratchReadOps, writeByteOps_codes, readByteOps_codes, scratchOrder, List.filterMap_cons, Effect.code]

theorem measureOps_codes (a : Addr) : (measureOps a).flatMap MicroOp.codes = measureCodes := by
  simp [measureOps, measureCodes, writeByteOps_codes, sendMatchOps_codes, scratchReadOps_codes, resetOp, waitOp,
    MicroOp.codes, Effect.code]

theorem bodyOf_codes (i : Instr) (a : Addr) : (bodyOf i a).ops.flatMap MicroOp.codes = commandCodes i := by
  cases i
  case select => exact sendMatchOps_codes a 0
  case readScratchpad => exact scratchReadOps_codes [] 0
  case measure | cycle => exact measureOps_codes a
  all_goals rfl

/-- Of all commands only CYCLE has an unconditional effect (44_scheduler.md R196). -/
theorem bodyOf_always (i : Instr) (a : Addr) :
    (bodyOf i a).always = [] ∨ (bodyOf i a).always = [.advanceLatched] := by
  cases i
  case cycle => exact .inr rfl
  all_goals exact .inl rfl

/-! ### What a code tells -/

/-- What a command's error code tells of the registers: PRESENCE is 0 after BUS_ABSENT, and SCRATCH fails its check
after CRC_MISMATCH; the other two codes are no command's error (60_exceptions.md R221). -/
def Err.Tells (t : State) : Err → Prop
  | .busAbsent => t.presence = false
  | .crcMismatch => t.crcOk = false ∧ crc8 (t.scratch.toList.take 8) ≠ t.scratch[8]
  | .ok | .illegalCmd => False

/-- An effect that fails does so with its own code, and what the code tells is so. -/
theorem runEffect_fails {cfg : Config} {e : Effect} {s t : State} {err : Err} (h : runEffect cfg e s = (t, some err)) :
    e.code = some err ∧ err.Tells t := by
  cases e
  case failIfAbsent =>
    cases hp : s.presence <;> simp [runEffect, hp] at h
    obtain ⟨rfl, rfl⟩ := h
    exact ⟨rfl, hp⟩
  case scratchCheck | validatedDecode =>
    cases hok : scratchOk s.scratch <;> simp [runEffect, checkScratch, decodeScratch, hok] at h
    obtain ⟨rfl, rfl⟩ := h
    exact ⟨rfl, rfl, mt (scratchOk_iff s.scratch).mpr (by simp [hok])⟩
  all_goals cases h

theorem runEffects_fails {cfg : Config} {es : List Effect} {s t : State} {err : Err}
    (h : runEffects cfg es s = (t, some err)) : err ∈ es.filterMap Effect.code ∧ err.Tells t := by
  induction es generalizing s with
  | nil => cases h
  | cons e es ih =>
    rw [runEffects] at h
    split at h
    · obtain ⟨hmem, htells⟩ := ih h
      obtain ⟨e', he', hcode⟩ := List.mem_filterMap.mp hmem
      exact ⟨List.mem_filterMap.mpr ⟨e', List.mem_cons_of_mem e he', hcode⟩, htells⟩
    · next hfail =>
      cases h
      obtain ⟨hcode, htells⟩ := runEffect_fails hfail
      exact ⟨List.mem_filterMap.mpr ⟨e, List.mem_cons_self, hcode⟩, htells⟩

/-! ### STATUS.ERR over a turn -/

/-- No effect writes ERR: it is written where a command fails (60_exceptions.md R222). -/
theorem runEffect_err (cfg : Config) (e : Effect) (s : State) : (runEffect cfg e s).1.err = s.err := by
  cases e
  case validatedDecode => simp only [runEffect, decodeScratch]; split <;> rfl
  all_goals rfl

theorem runEffects_err (cfg : Config) (es : List Effect) (s : State) : (runEffects cfg es s).1.err = s.err := by
  induction es generalizing s with
  | nil => rfl
  | cons e es ih =>
    have he := runEffect_err cfg e s
    rw [runEffects]
    split
    · next h => rw [ih, ← he, h]
    · next h => rw [← he, h]

theorem answerSlot_err (cfg : Config) (op : SlotOp) (s : State) : (answerSlot cfg op s).err = s.err := by
  cases op
  case reset | read => simp only [answerSlot]; split <;> rfl
  all_goals rfl

theorem recordSlot_err (cfg : Config) (op : SlotOp) (s : State) : (recordSlot cfg op s).err = s.err := by
  cases op <;> rfl

theorem slotResult_err (cfg : Config) (op : MicroOp) (s : State) : (slotResult cfg op s).1.err = s.err := by
  rw [slotResult, runEffects_err, recordSlot_err, answerSlot_err, runEffects_err]

theorem completeCommand_err (cfg : Config) (b : Body) (s : State) : (completeCommand cfg b s).err = s.err :=
  runEffects_err cfg b.always s

/-- From `s` to `t` ERR is left, or it is one of `codes` and what it tells is so. -/
def EndsWith (codes : List Err) (s t : State) : Prop := t.err = s.err ∨ t.err ∈ codes ∧ t.err.Tells t

theorem EndsWith.mono {codes codes' : List Err} {s t : State} (h : EndsWith codes s t) (hc : codes ⊆ codes') :
    EndsWith codes' s t :=
  h.imp_right fun ⟨hmem, htells⟩ => ⟨hc hmem, htells⟩

section
variable {cfg : Config} {b : Body} (hb : b.always = [] ∨ b.always = [.advanceLatched])
include hb

/-- A failing command's code outlasts its unconditional effects, which write neither ERR nor what the code tells of. -/
theorem failCommand_endsWith {codes : List Err} {e : Err} (s : State) {t : State} (hmem : e ∈ codes)
    (htells : e.Tells t) : EndsWith codes s (failCommand cfg b e t) := by
  rw [failCommand_eq_goIdle hb e (s := t) rfl rfl]
  exact .inr ⟨hmem, by cases e <;> exact htells⟩

/-- A controller step that goes on leaves ERR; one that ends its command may have failed. -/
theorem stepMicroOp_endsWith (op : MicroOp) (rest : List MicroOp) (s : State) :
    (stepMicroOp cfg b op rest s).err = s.err ∨
      (stepMicroOp cfg b op rest s).busy = false ∧ EndsWith op.codes s (stepMicroOp cfg b op rest s) := by
  have herr := slotResult_err cfg op s
  rw [stepMicroOp_eq]
  rcases hr : slotResult cfg op s with ⟨t, _ | e⟩ <;> rw [hr] at herr
  case none =>
    left
    cases rest with
    | nil => exact (completeCommand_err cfg b t).trans herr
    | cons next rest => exact herr
  case some =>
    obtain ⟨hmem, htells⟩ := runEffects_fails hr
    have hfail := failCommand_endsWith (cfg := cfg) hb s hmem htells
    right
    cases rest <;> exact ⟨rfl, hfail⟩

theorem runMicroOps_endsWith (n : Nat) (ops : List MicroOp) (s : State) :
    EndsWith (ops.flatMap MicroOp.codes) s (runMicroOps cfg b n ops s) := by
  induction n generalizing ops s with
  | zero => exact .inl rfl
  | succ n ih =>
    cases ops with
    | nil => exact .inl (completeCommand_err cfg b s)
    | cons op rest =>
      rw [runMicroOps_cons]
      rcases stepMicroOp_endsWith (cfg := cfg) hb op rest s with herr | ⟨hidle, hend⟩
      · split
        · have hrest := (ih rest (stepMicroOp cfg b op rest s)).mono (List.subset_append_right op.codes _)
          rwa [EndsWith, herr] at hrest
        · exact .inl herr
      · rw [if_neg (by simp [hidle])]
        exact hend.mono (List.subset_append_left _ _)

/-- From any position in the body, with any limit of the turn. -/
theorem runBody_endsWith (s : State) : EndsWith (b.ops.flatMap MicroOp.codes) s (runBody cfg b s) := by
  unfold runBody
  split
  · have hleft : (opsLeft b s).Sublist b.ops := List.drop_sublist _ _
    exact (runMicroOps_endsWith hb _ _ s).mono (hleft.flatMap _).subset
  · exact .inl rfl

end

/-- A command leaves ERR or ends with one of its own codes, from any position in its body. -/
theorem exec_endsWith {i : Instr} {s t : State} (hi : isCommand i = true) (h : exec i s = .next t) :
    EndsWith (commandCodes i) s t := by
  rw [exec_command i s hi] at h
  obtain rfl := Host.Outcome.next.inj h
  exact bodyOf_codes i s.laddr ▸ runBody_endsWith (bodyOf_always i s.laddr) s

/-- Settles O36, code by code: only the commands with that code's check may end with it. -/
theorem errorCodesOfEachCommand : Obligations.ErrorCodesOfEachCommand := by
  unfold Obligations.ErrorCodesOfEachCommand
  intro i s t hi ht
  refine (exec_endsWith hi ht).imp_right fun ⟨hmem, htells⟩ => ?_
  generalize t.err = e at hmem htells
  cases e
  case ok | illegalCmd => exact htells.elim
  case busAbsent =>
    left
    cases i
    case reset | measure | cycle => exact ⟨rfl, htells⟩
    all_goals simp [commandCodes] at hmem
  case crcMismatch =>
    right
    cases i
    case readScratchpad | decode | measure | cycle => exact ⟨rfl, htells⟩
    all_goals simp [commandCodes] at hmem

/-! ### A command is its pseudocode -/

theorem tailBody_done (r : State × Option Err) : tailBody r (fun u => (u, none)) = r := by
  rcases r with ⟨t, _ | e⟩ <;> rfl

/-- A body's end after its pseudocode's answer is the completion of the pseudocode's run, when the body has no
unconditional effects. -/
theorem endBody_eq_runCommand (cfg : Config) {b : Body} (hb : b.always = []) (i : Instr) (s : State) :
    endBody cfg b (commandBody cfg i s) = runCommand cfg i s := by
  rw [runCommand]
  rcases commandBody cfg i s with ⟨t, _ | e⟩ <;> simp [endBody, failCommand, completeCommand, hb, runEffects]

/-- CYCLE's unconditional advance ends MEASURE's pseudocode as its own (44_scheduler.md R196). -/
theorem endBody_cycleBody_eq_runCommand (cfg : Config) (a : Addr) (imm : Byte) (s : State) :
    endBody cfg (cycleBody a) (measureTransaction cfg s) = runCommand cfg (.cycle imm) s := by
  rw [runCommand, commandBody]
  rcases measureTransaction cfg s with ⟨t, _ | e⟩ <;> rfl

/-- The whole run of a command agrees with its pseudocode, the sequencer and the shift register aside. -/
theorem exec_settled_eq_runCommand {i : Instr} {s : State} (hi : isCommand i = true) (h : Started s) :
    ∃ t, exec i s = .next t ∧ settled t = settled (runCommand Config.owtc i s) := by
  have ⟨hbusy, _, _, hphase⟩ := h
  cases i
  case nop imm => exact ⟨_, nopOnlyEnds s imm h, rfl⟩
  case reset imm =>
    refine ⟨_, resetReportsPresence s imm _ h rfl, ?_⟩
    simp only [runCommand, commandBody, busReset]
    cases Config.owtc.presence s.hist s.choice <;> rfl
  case writeBit imm => exact ⟨_, writeBitSendsTheLowBit s imm h, rfl⟩
  case readBit imm => exact ⟨_, readBitReturnsTheSlotsBit s imm _ h rfl, rfl⟩
  case writeByte imm =>
    refine ⟨_, writeByteSendsEightBits s imm h, ?_⟩
    simp only [runCommand, commandBody, busWriteByte_eq]
    rfl
  case readByte imm =>
    rcases hread : busReadByte Config.owtc s with ⟨v, u⟩
    have hrun := runMicroOps_readByteOps_last Config.owtc readByteBody [.storeRxByte] 0 0 1 v s u hbusy hphase hread
    refine ⟨_, (exec_command _ s rfl).trans (congrArg Host.Outcome.next ((runBody_started _ _ s h).trans hrun)), ?_⟩
    simp only [runCommand, commandBody, hread]
    rfl
  case select imm =>
    refine ⟨_, selectSendsTheLatchedAddress s imm h, ?_⟩
    simp only [runCommand, commandBody, sendMatch_eq]
    simp [sendMatchEvents, addrOrder, addrByte, settled, goIdle, sequencerRest]
  case convert imm =>
    refine ⟨_, convertSendsItsByte s imm h, ?_⟩
    simp only [runCommand, commandBody, busWriteByte_eq]
    rfl
  case readScratchpad imm =>
    have hrun := runMicroOps_scratchReadOps Config.owtc readScratchpadBody (.inl rfl) [] (fun u => (u, none))
      (fun _ => rfl) (fun _ => rfl) 0 1 s hbusy
    rw [tailBody_done] at hrun
    refine ⟨_, (exec_command _ s rfl).trans (congrArg Host.Outcome.next (runBody_started _ _ s h)), hrun.trans ?_⟩
    exact congrArg settled (endBody_eq_runCommand _ rfl (.readScratchpad imm) s)
  case crcInit imm => exact ⟨_, crcInitSetsTheAccumulator s imm h, rfl⟩
  case crcByte imm => exact ⟨_, crcByteFoldsOneByte s imm h, rfl⟩
  case decode imm =>
    refine ⟨_, decodeWritesTempOnlyWhenTheCheckPasses s imm h, ?_⟩
    simp only [runCommand, commandBody, decodeScratch, scratchOk_iff]
    split <;> rfl
  case waitConv imm => exact ⟨_, waitConvOnlyWaits s imm h, rfl⟩
  case measure imm =>
    refine ⟨_, exec_measureOps rfl h rfl rfl, ?_⟩
    rw [runMicroOps_measureOps _ _ (.inl rfl) 1 s hbusy hphase]
    exact congrArg settled (endBody_eq_runCommand _ rfl (.measure imm) s)
  case advance imm => exact ⟨_, advanceMovesOnlyTheCursor s imm h, rfl⟩
  case cycle imm =>
    refine ⟨_, exec_measureOps rfl h rfl rfl, ?_⟩
    rw [runMicroOps_measureOps _ _ (.inr rfl) 1 s hbusy hphase]
    exact congrArg settled (endBody_cycleBody_eq_runCommand _ _ imm s)
  case matchRom | convertT | readScratchpadFn => simp [isCommand] at hi

/-- The run of a command's pseudocode leaves OWTC idle. -/
theorem goIdle_runCommand (cfg : Config) (i : Instr) (s : State) :
    goIdle (runCommand cfg i s) = runCommand cfg i s := by
  rw [runCommand]
  rcases commandBody cfg i s with ⟨t, _ | e⟩ <;> rfl

/-- Settles O32: the run and the pseudocode agree up to the sequencer and the shift register, and both have left the
sequencer at rest. -/
theorem everyCommandRunsItsPseudocode : Obligations.EveryCommandRunsItsPseudocode := by
  unfold Obligations.EveryCommandRunsItsPseudocode
  intro i s hi h
  have ⟨hbusy, _, hturn, _⟩ := h
  obtain ⟨t, hexec, hsettled⟩ := exec_settled_eq_runCommand hi h
  refine ⟨t, hexec, ?_⟩
  have hidle : goIdle t = t := by
    obtain ⟨x, hx⟩ := runBody_completes Config.owtc (bodyOf i s.laddr) hbusy hturn
    rw [exec_command i s hi, hx] at hexec
    rw [← Host.Outcome.next.inj hexec]
    rfl
  calc t
    _ = goIdle t := hidle.symm
    _ = goIdle { runCommand Config.owtc i s with shreg := t.shreg } := goIdle_eq_of_settled hsettled rfl
    _ = { goIdle (runCommand Config.owtc i s) with shreg := t.shreg } := rfl
    _ = { runCommand Config.owtc i s with shreg := t.shreg } := by rw [goIdle_runCommand]

end Sys2Proof.Machine
end

section
/-! PROOFS. How many slots of each kind a command performs (70_reset_and_hazards.md R271): a micro-operation records one
event of its slot's kind, and a run that ends with OK has left none of its body out. -/

namespace Sys2Proof.Machine

/-! ### Counting micro-operations -/

/-- A slot as `slotCounts` counts its event: reset, write and read slots, and waits. -/
def SlotOp.counts : SlotOp → Nat × Nat × Nat × Nat
  | .none => (0, 0, 0, 0)
  | .reset => (1, 0, 0, 0)
  | .write _ => (0, 1, 0, 0)
  | .read => (0, 0, 1, 0)
  | .wait => (0, 0, 0, 1)

/-- The slots of micro-operations, counted by kind. -/
def opsCounts (ops : List MicroOp) : Nat × Nat × Nat × Nat := (ops.map fun op => op.slot.counts).sum

/-- The slots each instruction performs (70_reset_and_hazards.md R271). -/
def instrCounts : Instr → Nat × Nat × Nat × Nat
  | .nop _ | .crcInit _ | .crcByte _ | .decode _ | .advance _ => (0, 0, 0, 0)
  | .reset _ => (1, 0, 0, 0)
  | .writeBit _ => (0, 1, 0, 0)
  | .readBit _ => (0, 0, 1, 0)
  | .writeByte _ | .convert _ | .matchRom | .convertT | .readScratchpadFn => (0, 8, 0, 0)
  | .readByte _ => (0, 0, 8, 0)
  | .select _ => (0, 72, 0, 0)
  | .waitConv _ => (0, 0, 0, 1)
  | .readScratchpad _ => (0, 8, 72, 0)
  | .measure _ | .cycle _ => (2, 160, 72, 1)

theorem opsCounts_cons (op : MicroOp) (ops : List MicroOp) : opsCounts (op :: ops) = op.slot.counts + opsCounts ops :=
  List.sum_cons

theorem opsCounts_append (ops ops' : List MicroOp) : opsCounts (ops ++ ops') = opsCounts ops + opsCounts ops' := by
  simp [opsCounts]

theorem writeByteOps_counts (v : Byte) (byte mstep : BitVec 4) : opsCounts (writeByteOps v byte mstep) = (0, 8, 0, 0) :=
  rfl

theorem readByteOps_counts (post : List Effect) (byte mstep : BitVec 4) :
    opsCounts (readByteOps post byte mstep) = (0, 0, 8, 0) := rfl

theorem sendMatchOps_counts (a : Addr) (mstep : BitVec 4) : opsCounts (sendMatchOps a mstep) = (0, 72, 0, 0) := by
  simp [sendMatchOps, addrOrder, opsCounts_append, writeByteOps_counts]

theorem scratchReadOps_counts (post : List Effect) (mstep : BitVec 4) :
    opsCounts (scratchReadOps post mstep) = (0, 8, 72, 0) := by
  simp [scratchReadOps, scratchOrder, opsCounts_append, writeByteOps_counts, readByteOps_counts]

theorem measureOps_counts (a : Addr) : opsCounts (measureOps a) = (2, 160, 72, 1) := by
  have hreset (pre : List Effect) (mstep : BitVec 4) : opsCounts [resetOp pre mstep] = (1, 0, 0, 0) := rfl
  have hwait (mstep : BitVec 4) : opsCounts [waitOp mstep] = (0, 0, 0, 1) := rfl
  simp only [measureOps, opsCounts_append, hreset, hwait, writeByteOps_counts, sendMatchOps_counts,
    scratchReadOps_counts, Prod.mk_add_mk]

theorem bodyOf_counts {i : Instr} (hi : isCommand i = true) (a : Addr) :
    opsCounts (bodyOf i a).ops = instrCounts i := by
  cases i
  case select => exact sendMatchOps_counts a 0
  case readScratchpad => exact scratchReadOps_counts [] 0
  case measure | cycle => exact measureOps_counts a
  case matchRom | convertT | readScratchpadFn => simp [isCommand] at hi
  all_goals rfl

/-! ### Counting the history -/

theorem slotCounts_append (h h' : List BusEvent) : slotCounts (h ++ h') = slotCounts h + slotCounts h' := by
  simp [slotCounts]

theorem slotCounts_writeEvents (v : Byte) : slotCounts (writeEvents v) = (0, 8, 0, 0) := rfl

theorem runEffect_hist (cfg : Config) (e : Effect) (s : State) : (runEffect cfg e s).1.hist = s.hist := by
  cases e
  case validatedDecode => simp only [runEffect, decodeScratch]; split <;> rfl
  all_goals rfl

theorem runEffects_hist (cfg : Config) (es : List Effect) (s : State) : (runEffects cfg es s).1.hist = s.hist := by
  induction es generalizing s with
  | nil => rfl
  | cons e es ih =>
    have he := runEffect_hist cfg e s
    rw [runEffects]
    split
    · next h => rw [ih, ← he, h]
    · next h => rw [← he, h]

theorem answerSlot_hist (cfg : Config) (op : SlotOp) (s : State) : (answerSlot cfg op s).hist = s.hist := by
  cases op
  case reset | read => simp only [answerSlot]; split <;> rfl
  all_goals rfl

/-- A slot is recorded as one event of its kind (10_state.md R46). -/
theorem recordSlot_counts (cfg : Config) (op : SlotOp) (s : State) :
    slotCounts (recordSlot cfg op s).hist = slotCounts s.hist + op.counts := by
  cases op
  case none => rfl
  all_goals exact slotCounts_append s.hist [_]

theorem slotResult_counts (cfg : Config) (op : MicroOp) (s : State) :
    slotCounts (slotResult cfg op s).1.hist = slotCounts s.hist + op.slot.counts := by
  rw [slotResult, runEffects_hist, recordSlot_counts, answerSlot_hist, runEffects_hist]

theorem slotResult_busy (cfg : Config) (op : MicroOp) (s : State) : (slotResult cfg op s).1.busy = s.busy := by
  rw [slotResult, runEffects_busy, recordSlot_busy, answerSlot_busy, runEffects_busy]

theorem completeCommand_hist (cfg : Config) (b : Body) (s : State) : (completeCommand cfg b s).hist = s.hist :=
  runEffects_hist cfg b.always s

/-! ### A run that ends with OK -/

/-- No check fails with OK (60_exceptions.md R220), so a run that ends with it has performed every slot. -/
theorem runMicroOps_counts (cfg : Config) (b : Body) (n : Nat) (ops : List MicroOp) {s : State} (hb : s.busy = true)
    (hn : ops.length < n) (hok : (runMicroOps cfg b n ops s).err = .ok) :
    slotCounts (runMicroOps cfg b n ops s).hist = slotCounts s.hist + opsCounts ops := by
  induction n generalizing ops s with
  | zero => simp at hn
  | succ n ih =>
    cases ops with
    | nil => exact congrArg slotCounts (completeCommand_hist cfg b s)
    | cons op rest =>
      have hcounts := slotResult_counts cfg op s
      have hbusy := (slotResult_busy cfg op s).trans hb
      rw [runMicroOps_cons, stepMicroOp_eq] at hok ⊢
      rw [opsCounts_cons, ← add_assoc, ← hcounts]
      rcases hr : slotResult cfg op s with ⟨t, _ | e⟩ <;> rw [hr] at hok hbusy
      case some =>
        obtain ⟨-, htells⟩ := runEffects_fails hr
        have hfail : (failCommand cfg b e t).err = .ok := by cases rest <;> exact hok
        rw [failCommand, completeCommand_err] at hfail
        obtain rfl : e = .ok := hfail
        exact htells.elim
      case none =>
        cases rest with
        | nil => exact congrArg slotCounts (completeCommand_hist cfg b t)
        | cons next rest =>
          rw [if_pos (by exact hbusy)] at hok ⊢
          exact ih (next :: rest) hbusy (by simpa using hn) hok

/-- Settles O37: a command's body is counted, and a bus byte is eight write slots. -/
theorem slotCountsOfEachCommand : Obligations.SlotCountsOfEachCommand := by
  unfold Obligations.SlotCountsOfEachCommand
  intro i s h _
  change ∃ t ev, exec i s = .next t ∧ t.hist = s.hist ++ ev ∧ (t.err = .ok → slotCounts ev = instrCounts i)
  cases hi : isCommand i with
  | true =>
    have ⟨hbusy, _⟩ := h
    have hexec := exec_command i s hi
    obtain ⟨ev, hev⟩ := (exec_changes hi hexec).hist
    refine ⟨_, ev, hexec, hev.symm, fun hok => ?_⟩
    have hcounts := congrArg slotCounts hev
    rw [runBody_started _ _ _ h] at hok hcounts
    rw [runMicroOps_counts _ _ _ _ hbusy (Nat.lt_succ_self _) hok, bodyOf_counts hi, slotCounts_append] at hcounts
    exact add_left_cancel hcounts
  | false =>
    cases i
    case matchRom | convertT | readScratchpadFn =>
      exact ⟨_, _, congrArg Host.Outcome.next (sendByteAlone_eq _ _ s), rfl, fun _ => slotCounts_writeEvents _⟩
    all_goals simp [isCommand] at hi

end Sys2Proof.Machine
end

section
/-! PROOFS. MEASURE on two faulty buses (70_reset_and_hazards.md R265, R266): where every reset finds a device the run
is the scratchpad read and its check, and constant reads fix the scratchpad. -/

namespace Sys2Proof.Machine

/-- With a device present at both resets MEASURE ends as the nine bytes it reads say (44_scheduler.md R194). -/
theorem runBody_measureBody_present {cfg : Config} {s : State} (h : Started s)
    (hp : ∀ h c, cfg.presence h c = true) :
    ∃ sp hist c, ScratchAnswers cfg hist c sp ∧ runBody cfg (measureBody s.laddr) s =
      goIdle (checkedAndDecoded s.cursor (scratchPadRead sp (matchedAgain s.laddr (converted cfg s)))) := by
  have ⟨hbusy, _, _, hphase⟩ := h
  have hrun : runBody cfg (measureBody s.laddr) s =
      runMicroOps cfg (measureBody s.laddr) 236 (measureOps s.laddr) s := runBody_started cfg _ s h
  rw [hrun, runMicroOps_measureOps_present 1 hbusy hphase (hp _ _),
    runMicroOps_secondResetOps_present 1 s.laddr (by exact hbusy) (loadSlot_ne_recover _ _ _) (hp _ _)]
  obtain ⟨sp, hsp, hread⟩ := runMicroOps_scratchReadOps_decode (b := measureBody s.laddr) (s := s) 1 (.inl rfl)
    (x := loadSlot cfg (writeBitOp readScratchpadByte 0 5 0)
      (matchedAgain s.laddr (loadSlot cfg (resetOp [] 4) (converted cfg s)))) hbusy rfl rfl
  exact ⟨sp, _, _, hsp, hread.trans rfl⟩

/-- Read slots that all answer alike fill SCRATCH with one byte. -/
theorem scratchAnswers_constant {cfg : Config} {hist : List BusEvent} {c : Nat} {sp : Vector Byte 9} {b : Bool}
    {v : Byte} (hread : ∀ h c, cfg.readBit h c = b) (hv : ∀ i < 8, v.getLsbD i = b)
    (hsp : ScratchAnswers cfg hist c sp) : sp = Vector.replicate 9 v := by
  refine Vector.ext fun k hk => BitVec.eq_of_getLsbD_eq fun i hi => ?_
  have hbit : scratchBit sp (8 * k + i) = sp[k].getLsbD i := by
    simp [scratchBit, show (8 * k + i) / 8 = k by omega, show (8 * k + i) % 8 = i by omega, hk]
  rw [← hbit, hsp _ (by omega), hread, Vector.getElem_replicate, hv i hi]

/-- Settles O39: nine zero bytes pass the check and decode to zero. -/
theorem lineHeldLowGoesUndetected : Obligations.LineHeldLowGoesUndetected := by
  unfold Obligations.LineHeldLowGoesUndetected
  rintro cfg s _ h herr hp hread rfl
  obtain ⟨sp, _, _, hanswers, hrun⟩ := runBody_measureBody_present h hp
  have hsp : sp = Vector.replicate 9 0x00 := scratchAnswers_constant hread (fun i _ => BitVec.getLsbD_zero) hanswers
  have hcrc : crc8 (sp.toList.take 8) = 0x00 := hsp ▸ crc8_replicate_zero 8
  have hok : scratchOk sp = true := (scratchOk_iff sp).mpr (hcrc.trans (by simp [hsp]))
  have htemp : decodeTemp sp = (0x0000, 0) := hsp ▸ rfl
  rw [hrun]
  simpa [checkedAndDecoded, scratchPadRead, matchedAgain, converted, hcrc, hok, htemp, herr] using hsp

/-- Settles O40: eight bytes 0xFF have the checksum 0xC9, which the ninth is not. -/
theorem unmatchedDeviceIsACrcMismatch : Obligations.UnmatchedDeviceIsACrcMismatch := by
  unfold Obligations.UnmatchedDeviceIsACrcMismatch
  rintro cfg s _ h hvalid hp hread rfl
  obtain ⟨sp, _, _, hanswers, hrun⟩ := runBody_measureBody_present h hp
  have hsp : sp = Vector.replicate 9 0xFF := scratchAnswers_constant hread (by decide) hanswers
  have hcrc : crc8 (sp.toList.take 8) = 0xC9 := hsp ▸ crc8_replicate_eight_ff
  have hbad : scratchOk sp = false := by
    rw [← Bool.not_eq_true, scratchOk_iff, hcrc]
    simp [hsp]
  rw [hrun]
  simpa [checkedAndDecoded, scratchPadRead, matchedAgain, converted, hcrc, hbad, hvalid] using hsp

end Sys2Proof.Machine
end

section
/-! PROOFS. Commands with no time slot (70_reset_and_hazards.md R270): a body of one micro-operation with no slot ends
in one clock cycle as it does in one controller step. -/

namespace Sys2Proof.Machine

/-- An accepted command has just started. -/
theorem acceptCommand_started (cfg : Config) {i : Instr} {s : State} (hi : isCommand i = true) (hturn : s.turn = none) :
    Started (acceptCommand cfg i s) := by
  obtain ⟨op, rest, hops⟩ := bodyOf_ops_cons hi (latchCommand cfg i s).laddr
  have hload : acceptCommand cfg i s = loadSlot cfg op (latchCommand cfg i s) := by
    simp only [acceptCommand, loadFirst, hops]
  rw [hload]
  exact ⟨rfl, rfl, hturn, loadSlot_ne_recover _ _ _⟩

/-- The commands with no time slot are bodies of effects only (70_reset_and_hazards.md R271). -/
theorem bodyOf_slotless {op : BitVec 4} (hop : op ∈ ([0x0, 0x9, 0xA, 0xB, 0xE] : List (BitVec 4))) (imm : Byte)
    (a : Addr) : ∃ es, bodyOf (instrOf op imm) a = { ops := instantOps es } := by
  simp only [List.mem_cons, List.not_mem_nil, or_false] at hop
  rcases hop with rfl | rfl | rfl | rfl | rfl <;> exact ⟨_, rfl⟩

/-- The first clock cycle of a body with no slot is its whole run. -/
theorem controllerCycle_instantOps (cfg : Config) (es : List Effect) {s : State} (h : Started s) :
    controllerCycle cfg { ops := instantOps es } s = runBody cfg { ops := instantOps es } s := by
  have ⟨_, huix, _, _⟩ := h
  have hleft : opsLeft { ops := instantOps es } s = [{ slot := .none, post := es }] := by
    rw [opsLeft, huix]
    rfl
  have hpre : (if atSlotStart cfg { slot := .none, post := es } s then (runEffects cfg [] s).1 else s) = s :=
    ite_self s
  rw [instantOps, runBody_oneOp cfg _ h]
  rw [instantOps] at hleft
  simp only [controllerCycle, hleft, hpre, if_true]
  exact endMicroOp_eq cfg _ _ s

/-- Settles O52: the accepting cycle leaves a command that has just started, and the next is its run. -/
theorem slotlessCommandsTakeOneCycle : Obligations.SlotlessCommandsTakeOneCycle := by
  unfold Obligations.SlotlessCommandsTakeOneCycle
  rintro s s1 _ w i d1 d2 hb hturn hdecode hop hs1 rfl
  have hi := isCommand_of_decodeCmd hdecode
  have haccept : s1 = acceptCommand Config.owtc i (syncLine d1 s s) := by
    rw [hs1, ← offerCommand_accept _ w i _ hdecode, ← hb]
    simp [clock, hb, hostAccess, hostWrite]
  have hstarted : Started s1 := haccept ▸ acceptCommand_started _ hi hturn
  have ⟨hbusy, _, hturn1, _⟩ := hstarted
  have hcycle : controllerCycle Config.owtc s1.body s1 = runBody Config.owtc (bodyOf i s1.laddr) s1 := by
    have hcurrent : s1.current = i := haccept ▸ acceptCommand_current _ _ hi
    obtain ⟨-, -, rfl⟩ := decodeCmd_eq_ok_iff.mp hdecode
    obtain ⟨es, hes⟩ := bodyOf_slotless hop (wordImm w) s1.laddr
    rw [State.body, hcurrent]
    exact hes ▸ controllerCycle_instantOps _ es hstarted
  rw [clock_quiet Config.owtc ⟨rfl, rfl⟩ hbusy, hcycle, exec_command i s1 hi]
  have hkept := runBody_kept Config.owtc (bodyOf i s1.laddr) s1
  refine ⟨hbusy, runBody_ends _ _ hturn1, ?_⟩
  rw [← hkept.dqSync, ← hkept.devLow]
  rfl

end Sys2Proof.Machine
end

section
/-! PROOFS. Reads while BUSY = 1 (20_memory.md R64, 70_reset_and_hazards.md R262): the mask of a register picks each bit
from the register or from the draw. -/

namespace Sys2Proof.Machine

section
variable (cfg : Config) (a : Nat) {s : State} (hb : s.busy = true)
include hb

theorem readValue_busy_getLsbD {i : Nat} (hi : i < 32) :
    (readValue cfg a s).getLsbD i =
      if (busyFreeMask a).getLsbD i then (cfg.freeRead s.choice).getLsbD i else (regWord cfg a s).getLsbD i := by
  simp only [readValue, hb, if_true, BitVec.getLsbD_or, BitVec.getLsbD_and, BitVec.getLsbD_not, hi, decide_true]
  cases (busyFreeMask a).getLsbD i <;> simp

/-- A field with no unspecified bit is read as it stands. -/
theorem readValue_busy_exact (p n : Nat) (hn : p + n ≤ 32) (hm : (busyFreeMask a).extractLsb' p n = 0) :
    (readValue cfg a s).extractLsb' p n = (regWord cfg a s).extractLsb' p n := by
  refine BitVec.eq_of_getLsbD_eq fun i hi => ?_
  have hbit := congrArg (·.getLsbD i) hm
  simp only [BitVec.getLsbD_extractLsb', hi, decide_true, Bool.true_and] at hbit ⊢
  rw [readValue_busy_getLsbD cfg a hb (by omega), hbit]
  simp

/-- A field all of whose bits are unspecified is the draw's. -/
theorem readValue_busy_drawn (p n : Nat) (hn : p + n ≤ 32)
    (hm : (busyFreeMask a).extractLsb' p n = BitVec.allOnes n) :
    (readValue cfg a s).extractLsb' p n = (cfg.freeRead s.choice).extractLsb' p n := by
  refine BitVec.eq_of_getLsbD_eq fun i hi => ?_
  have hbit := congrArg (·.getLsbD i) hm
  simp only [BitVec.getLsbD_extractLsb', BitVec.getLsbD_allOnes, hi, decide_true, Bool.true_and] at hbit ⊢
  rw [readValue_busy_getLsbD cfg a hb (by omega), hbit]
  rfl

/-- A register with no unspecified bit is read as it stands. -/
theorem readValue_busy_of_mask_zero (hm : busyFreeMask a = 0) : readValue cfg a s = regWord cfg a s := by
  simpa using readValue_busy_exact cfg a hb 0 32 le_rfl (by rw [hm]; rfl)

/-- A register all of whose bits are unspecified is the draw. -/
theorem readValue_busy_of_mask_allOnes (hm : busyFreeMask a = BitVec.allOnes 32) :
    readValue cfg a s = cfg.freeRead s.choice := by
  simpa using readValue_busy_drawn cfg a hb 0 32 le_rfl (by rw [hm]; rfl)

end

/-- CMD and every offset above SCHED have no unspecified bit (70_reset_and_hazards.md R262). -/
theorem busyFreeMask_empty {a : Nat} (h : a = 0x00 ∨ 0x2C ≤ a) : busyFreeMask a = 0 := by
  unfold busyFreeMask
  split
  case h_9 => rfl
  all_goals omega

/-- Settles O13, register by register: each field lies inside or outside the mask. -/
theorem busyReadsDrawOnlyTheUnspecifiedFields : Obligations.BusyReadsDrawOnlyTheUnspecifiedFields := by
  unfold Obligations.BusyReadsDrawOnlyTheUnspecifiedFields
  rintro s _ a _ _ hb rfl rfl rfl
  change s.choice + readChoices s = s.choice + 1 ∧ _
  have hexact := readValue_busy_exact Config.owtc a hb
  have hdrawn := readValue_busy_drawn Config.owtc a hb
  have hbit {i : Nat} (hi : i < 32) := readValue_busy_getLsbD Config.owtc a hb hi
  have hspecified := readValue_busy_of_mask_zero Config.owtc a hb
  refine ⟨by simp [readChoices, hb], ?_, ?_, ?_, ?_, ?_, ?_, ?_, ?_⟩
  · rintro rfl
    obtain ⟨hbusy, -, -, -, -, hovr, hres0, hhigh⟩ := statusWord_flags s
    exact ⟨(hbit (by decide)).trans (hbusy.trans hb), (hbit (by decide)).trans hovr,
      (hexact 6 2 (by decide) rfl).trans hres0, (hexact 11 21 (by decide) rfl).trans hhigh,
      hdrawn 1 4 (by decide) rfl, hdrawn 8 3 (by decide) rfl⟩
  · rintro (rfl | rfl | rfl) <;>
      exact ⟨(hexact 8 24 (by decide) rfl).trans (setWidth_byte_layout _).2, hdrawn 0 8 (by decide) rfl⟩
  · rintro rfl
    exact hspecified rfl
  · rintro rfl
    exact hspecified rfl
  · rintro (rfl | rfl) <;> exact readValue_busy_of_mask_allOnes _ _ hb rfl
  · rintro rfl
    obtain ⟨-, -, hres0⟩ := tempWord_layout s
    exact ⟨(hexact 18 14 (by decide) rfl).trans hres0, hdrawn 0 18 (by decide) rfl⟩
  · rintro rfl
    obtain ⟨-, -, hcount, hres0⟩ := schedWord_layout Config.owtc s
    refine ⟨?_, (hexact 25 7 (by decide) rfl).trans hres0, hdrawn 0 16 (by decide) rfl⟩
    have hncount := (hexact 16 9 (by decide) rfl).trans hcount
    change ((readValue Config.owtc 0x28 s).extractLsb' 16 9).toNat = _
    rw [hncount, BitVec.toNat_ofNat, Nat.mod_eq_of_lt (nSensors_lt _)]
  · intro ha
    exact (hspecified (busyFreeMask_empty ha)).trans (regWord_empty _ s a ha)

end Sys2Proof.Machine
end

section
/-! PROOFS. A cycle with `rst` = 1 (70_reset_and_hazards.md R250, R251). -/

namespace Sys2Proof.Machine

/-- An access in a cycle with `rst` = 1 leaves only the port's output and the count of choices. -/
theorem resetCycle_eq (cfg : Config) (x : Option Access) (s : State) :
    ∃ v n, resetCycle cfg x s = { resetState s with rdata := v, choice := n } := by
  unfold resetCycle
  split <;> exact ⟨_, _, rfl⟩

/-- After reset SCHED shows NCOUNT alone (10_state.md R35, 70_reset_and_hazards.md R251). -/
theorem schedWord_reset (cfg : Config) {s : State} (hcursor : s.cursor = 0) (hmeas : s.measSlot = 0) :
    schedWord cfg s = BitVec.ofNat 32 cfg.nSensors <<< 16 := by
  have hword (n : Nat) (hn : n < 2 ^ 9) :
      (0 : BitVec 7) ++ BitVec.ofNat 9 n ++ (0 : Byte) ++ (0 : Byte) = BitVec.ofNat 32 n <<< 16 := by
    refine BitVec.eq_of_toNat_eq ((BitVec.toNat_append _ _).trans ?_)
    simp only [BitVec.toNat_append]
    simp [Nat.shiftLeft_eq]
    omega
  rw [schedWord, hcursor, hmeas]
  exact hword _ (nSensors_lt cfg)

/-- Every register but SCHED reads 0 after reset (70_reset_and_hazards.md R251). -/
theorem regWord_reset (cfg : Config) {a : Nat} (ha : a ≠ 0x28) : regWord cfg a State.reset = 0 := by
  unfold regWord
  split
  case h_10 => contradiction
  all_goals decide

/-- Settles O48: up to the port's output and the count of choices every such cycle ends in the reset state. -/
theorem rstGivesResetValues : Obligations.RstGivesResetValues := by
  unfold Obligations.RstGivesResetValues
  rintro s _ x rfl
  obtain ⟨v, n, hreset⟩ := resetCycle_eq Config.owtc x s
  have hact : doAct Config.owtc (.rst x) s = { resetState s with rdata := v, choice := n } := hreset
  refine ⟨?_, fun a ha => ?_, ?_, ?_, rfl, ?_, fun d => rfl⟩
  all_goals rw [hact]
  · exact ⟨rfl, rfl, rfl, rfl, rfl, rfl, rfl, rfl, rfl, rfl, rfl, rfl, rfl, rfl, rfl, rfl⟩
  · exact regWord_reset Config.owtc ha
  · exact schedWord_reset Config.owtc rfl rfl
  · exact ⟨rfl, rfl, rfl, rfl, rfl, rfl, rfl, rfl, rfl, rfl, rfl, rfl, rfl⟩
  · rfl

end Sys2Proof.Machine
end
